-- ==== Sys2Proof/Word.lean ====
section
/-!
DEFINITION. The word types of the core: bytes, instruction words, 12-bit addresses and the 4-bit fields that number
registers and count sprite rows (spec/00_scope.md R7 and R9, spec/30_encoding.md R81).
Every value is unsigned (R9), so plain `BitVec` arithmetic, which wraps, is the arithmetic of a register write.
-/

namespace Sys2Proof

/-- One memory byte or general register: 8 bits (R7 `TIMER_WIDTH`, `NUM_V`; R50). -/
abbrev Byte := BitVec 8

/-- One instruction word, and the index register's width: 16 bits (R80, R25). -/
abbrev Word := BitVec 16

/-- A 12-bit address field or program counter (R27, R50, R83). -/
abbrev Addr := BitVec 12

/-- A 4-bit register number `x` or `y` (R82, R83). -/
abbrev Reg := BitVec 4

/-- A 4-bit count of sprite rows (R83). -/
abbrev Nibble := BitVec 4

end Sys2Proof
end

