-- ==== Sys2Proof/Syntax.lean ====
section
/-!
DEFINITION. The instructions: one constructor for each of the 26 rows of spec/opcode_table.json (spec/30_encoding.md R86).
Each operand has exactly the width of its field (R81 to R84), so a term of this type is an instruction the encoding admits.
-/

namespace Sys2Proof

/-- The 26 instructions of R86, in the table's order; `x` and `y` are register numbers, `kk` an immediate byte, `nnn` a
12-bit address and `n` a row count (R82, R83). -/
inductive Instr where
  | ret                            -- 00EE RET
  | jp     (nnn : Addr)            -- 1nnn JP nnn
  | call   (nnn : Addr)            -- 2nnn CALL nnn
  | seImm  (x : Reg) (kk : Byte)   -- 3xkk SE Vx, kk
  | sneImm (x : Reg) (kk : Byte)   -- 4xkk SNE Vx, kk
  | seReg  (x y : Reg)             -- 5xy0 SE Vx, Vy
  | ldImm  (x : Reg) (kk : Byte)   -- 6xkk LD Vx, kk
  | addImm (x : Reg) (kk : Byte)   -- 7xkk ADD Vx, kk
  | ldReg  (x y : Reg)             -- 8xy0 LD Vx, Vy
  | andReg (x y : Reg)             -- 8xy2 AND Vx, Vy
  | addReg (x y : Reg)             -- 8xy4 ADD Vx, Vy
  | subReg (x y : Reg)             -- 8xy5 SUB Vx, Vy
  | shr    (x y : Reg)             -- 8xy6 SHR Vx, Vy
  | shl    (x y : Reg)             -- 8xyE SHL Vx, Vy
  | ldI    (nnn : Addr)            -- Annn LD I, nnn
  | rnd    (x : Reg) (kk : Byte)   -- Cxkk RND Vx, kk
  | drw    (x y : Reg) (n : Nibble) -- Dxyn DRW Vx, Vy, n
  | sknp   (x : Reg)               -- ExA1 SKNP Vx
  | ldVxDt (x : Reg)               -- Fx07 LD Vx, DT
  | ldDtVx (x : Reg)               -- Fx15 LD DT, Vx
  | ldStVx (x : Reg)               -- Fx18 LD ST, Vx
  | addI   (x : Reg)               -- Fx1E ADD I, Vx
  | ldF    (x : Reg)               -- Fx29 LD F, Vx
  | ldB    (x : Reg)               -- Fx33 LD B, Vx
  | store  (x : Reg)               -- Fx55 LD [I], Vx
  | load   (x : Reg)               -- Fx65 LD Vx, [I]
  deriving DecidableEq, Repr

end Sys2Proof
end

