-- ==== Sys2Proof/Decode.lean ====
section
/-!
DEFINITION. The decoder of spec/30_encoding.md R85 to R89, a total function of the word, and after it the encoder,
written from the same rows of R86, and the rows themselves as masks and values.
-/

namespace Sys2Proof

/-! ## Fields (R81, R82) -/

/-- `byte0`: w[15:8]. -/
def byte0 (w : Word) : Byte := w.extractLsb' 8 8
/-- `byte1`: w[7:0], the immediate `kk`. -/
def byte1 (w : Word) : Byte := w.extractLsb' 0 8
/-- `nibble0`: w[15:12], the opcode family. -/
def nibble0 (w : Word) : Nibble := w.extractLsb' 12 4
/-- `nibble1`: w[11:8], the register number `x`. -/
def nibble1 (w : Word) : Nibble := w.extractLsb' 8 4
/-- `nibble2`: w[7:4], the register number `y`. -/
def nibble2 (w : Word) : Nibble := w.extractLsb' 4 4
/-- `nibble3`: w[3:0], the row count `n`. -/
def nibble3 (w : Word) : Nibble := w.extractLsb' 0 4
/-- `address`: w[11:0], the operand `nnn`. -/
def address (w : Word) : Addr := w.extractLsb' 0 12

/-- The instruction word of two fetched bytes: the byte at the lower address is the more significant one (R58). -/
def wordOfBytes (hi lo : Byte) : Word := hi ++ lo

/-! ## The nested dispatch (R85, R86); `none` is `Unsupported` -/

/-- Family 0 dispatches on `byte1`, and `nibble1` must be 0 (R85, row 1). -/
def decodeFamily0 (w : Word) : Option Instr :=
  if nibble1 w = 0x0#4 ∧ byte1 w = 0xEE#8 then some .ret else none

/-- Family 5 needs `nibble3 = 0` (R85, row 6). -/
def decodeFamily5 (w : Word) : Option Instr :=
  if nibble3 w = 0x0#4 then some (.seReg (nibble1 w) (nibble2 w)) else none

/-- Family 8 dispatches on `nibble3` (R85, rows 9 to 14). -/
def decodeFamily8 (w : Word) : Option Instr :=
  match nibble3 w with
  | 0x0#4 => some (.ldReg (nibble1 w) (nibble2 w))
  | 0x2#4 => some (.andReg (nibble1 w) (nibble2 w))
  | 0x4#4 => some (.addReg (nibble1 w) (nibble2 w))
  | 0x5#4 => some (.subReg (nibble1 w) (nibble2 w))
  | 0x6#4 => some (.shr (nibble1 w) (nibble2 w))
  | 0xE#4 => some (.shl (nibble1 w) (nibble2 w))
  | _ => none

/-- Family E dispatches on `byte1` (R85, row 18). -/
def decodeFamilyE (w : Word) : Option Instr :=
  if byte1 w = 0xA1#8 then some (.sknp (nibble1 w)) else none

/-- Family F dispatches on `byte1` (R85, rows 19 to 26). -/
def decodeFamilyF (w : Word) : Option Instr :=
  match byte1 w with
  | 0x07#8 => some (.ldVxDt (nibble1 w))
  | 0x15#8 => some (.ldDtVx (nibble1 w))
  | 0x18#8 => some (.ldStVx (nibble1 w))
  | 0x1E#8 => some (.addI (nibble1 w))
  | 0x29#8 => some (.ldF (nibble1 w))
  | 0x33#8 => some (.ldB (nibble1 w))
  | 0x55#8 => some (.store (nibble1 w))
  | 0x65#8 => some (.load (nibble1 w))
  | _ => none

/-- `Decode(w)` (R85): the one instruction of R86 the word matches, or `none`, which is `Unsupported` (R87). -/
def decode (w : Word) : Option Instr :=
  match nibble0 w with
  | 0x0#4 => decodeFamily0 w
  | 0x1#4 => some (.jp (address w))
  | 0x2#4 => some (.call (address w))
  | 0x3#4 => some (.seImm (nibble1 w) (byte1 w))
  | 0x4#4 => some (.sneImm (nibble1 w) (byte1 w))
  | 0x5#4 => decodeFamily5 w
  | 0x6#4 => some (.ldImm (nibble1 w) (byte1 w))
  | 0x7#4 => some (.addImm (nibble1 w) (byte1 w))
  | 0x8#4 => decodeFamily8 w
  | 0xA#4 => some (.ldI (address w))
  | 0xC#4 => some (.rnd (nibble1 w) (byte1 w))
  | 0xD#4 => some (.drw (nibble1 w) (nibble2 w) (nibble3 w))
  | 0xE#4 => decodeFamilyE w
  | 0xF#4 => decodeFamilyF w
  | _ => none

/-- Why a list of bytes gives no instruction. -/
inductive DecodeError where
  | unsupported (w : Word)  -- the word matches no row of R86 (R87)
  | truncated               -- fewer than two bytes: no instruction word
  deriving DecidableEq, Repr

/-- The first instruction of a list of bytes and the bytes after it: an instruction is always two bytes (R80). -/
def decodeBytes : List Byte → Except DecodeError (Instr × List Byte)
  | hi :: lo :: rest =>
    match decode (wordOfBytes hi lo) with
    | some i => .ok (i, rest)
    | none => .error (.unsupported (wordOfBytes hi lo))
  | _ => .error .truncated

/-! ## The encoder (R84, R86) -/

/-- The instruction's word, its digits written from the pattern column of R86. -/
def encode : Instr → Word
  | .ret => 0x00EE#16
  | .jp nnn => 0x1#4 ++ nnn
  | .call nnn => 0x2#4 ++ nnn
  | .seImm x kk => 0x3#4 ++ x ++ kk
  | .sneImm x kk => 0x4#4 ++ x ++ kk
  | .seReg x y => 0x5#4 ++ x ++ y ++ 0x0#4
  | .ldImm x kk => 0x6#4 ++ x ++ kk
  | .addImm x kk => 0x7#4 ++ x ++ kk
  | .ldReg x y => 0x8#4 ++ x ++ y ++ 0x0#4
  | .andReg x y => 0x8#4 ++ x ++ y ++ 0x2#4
  | .addReg x y => 0x8#4 ++ x ++ y ++ 0x4#4
  | .subReg x y => 0x8#4 ++ x ++ y ++ 0x5#4
  | .shr x y => 0x8#4 ++ x ++ y ++ 0x6#4
  | .shl x y => 0x8#4 ++ x ++ y ++ 0xE#4
  | .ldI nnn => 0xA#4 ++ nnn
  | .rnd x kk => 0xC#4 ++ x ++ kk
  | .drw x y n => 0xD#4 ++ x ++ y ++ n
  | .sknp x => 0xE#4 ++ x ++ 0xA1#8
  | .ldVxDt x => 0xF#4 ++ x ++ 0x07#8
  | .ldDtVx x => 0xF#4 ++ x ++ 0x15#8
  | .ldStVx x => 0xF#4 ++ x ++ 0x18#8
  | .addI x => 0xF#4 ++ x ++ 0x1E#8
  | .ldF x => 0xF#4 ++ x ++ 0x29#8
  | .ldB x => 0xF#4 ++ x ++ 0x33#8
  | .store x => 0xF#4 ++ x ++ 0x55#8
  | .load x => 0xF#4 ++ x ++ 0x65#8

/-- The two bytes of an instruction as memory holds them, the first at the lower address (R58). -/
def encodeBytes (i : Instr) : List Byte := [byte0 (encode i), byte1 (encode i)]

/-! ## The opcode map as masks and values (R86) -/

/-- One row of R86: a word matches it when `w AND mask = value`. -/
structure OpRow where
  mask  : Word
  value : Word
  deriving DecidableEq, Repr

/-- The row an instruction belongs to (columns `mask` and `match` of R86). -/
def rowOf : Instr → OpRow
  | .ret => ⟨0xFFFF#16, 0x00EE#16⟩
  | .jp _ => ⟨0xF000#16, 0x1000#16⟩
  | .call _ => ⟨0xF000#16, 0x2000#16⟩
  | .seImm _ _ => ⟨0xF000#16, 0x3000#16⟩
  | .sneImm _ _ => ⟨0xF000#16, 0x4000#16⟩
  | .seReg _ _ => ⟨0xF00F#16, 0x5000#16⟩
  | .ldImm _ _ => ⟨0xF000#16, 0x6000#16⟩
  | .addImm _ _ => ⟨0xF000#16, 0x7000#16⟩
  | .ldReg _ _ => ⟨0xF00F#16, 0x8000#16⟩
  | .andReg _ _ => ⟨0xF00F#16, 0x8002#16⟩
  | .addReg _ _ => ⟨0xF00F#16, 0x8004#16⟩
  | .subReg _ _ => ⟨0xF00F#16, 0x8005#16⟩
  | .shr _ _ => ⟨0xF00F#16, 0x8006#16⟩
  | .shl _ _ => ⟨0xF00F#16, 0x800E#16⟩
  | .ldI _ => ⟨0xF000#16, 0xA000#16⟩
  | .rnd _ _ => ⟨0xF000#16, 0xC000#16⟩
  | .drw _ _ _ => ⟨0xF000#16, 0xD000#16⟩
  | .sknp _ => ⟨0xF0FF#16, 0xE0A1#16⟩
  | .ldVxDt _ => ⟨0xF0FF#16, 0xF007#16⟩
  | .ldDtVx _ => ⟨0xF0FF#16, 0xF015#16⟩
  | .ldStVx _ => ⟨0xF0FF#16, 0xF018#16⟩
  | .addI _ => ⟨0xF0FF#16, 0xF01E#16⟩
  | .ldF _ => ⟨0xF0FF#16, 0xF029#16⟩
  | .ldB _ => ⟨0xF0FF#16, 0xF033#16⟩
  | .store _ => ⟨0xF0FF#16, 0xF055#16⟩
  | .load _ => ⟨0xF0FF#16, 0xF065#16⟩

/-- The 26 rows of R86, in its order. -/
def opcodeRows : List OpRow :=
  [⟨0xFFFF#16, 0x00EE#16⟩, ⟨0xF000#16, 0x1000#16⟩, ⟨0xF000#16, 0x2000#16⟩, ⟨0xF000#16, 0x3000#16⟩,
   ⟨0xF000#16, 0x4000#16⟩, ⟨0xF00F#16, 0x5000#16⟩, ⟨0xF000#16, 0x6000#16⟩, ⟨0xF000#16, 0x7000#16⟩,
   ⟨0xF00F#16, 0x8000#16⟩, ⟨0xF00F#16, 0x8002#16⟩, ⟨0xF00F#16, 0x8004#16⟩, ⟨0xF00F#16, 0x8005#16⟩,
   ⟨0xF00F#16, 0x8006#16⟩, ⟨0xF00F#16, 0x800E#16⟩, ⟨0xF000#16, 0xA000#16⟩, ⟨0xF000#16, 0xC000#16⟩,
   ⟨0xF000#16, 0xD000#16⟩, ⟨0xF0FF#16, 0xE0A1#16⟩, ⟨0xF0FF#16, 0xF007#16⟩, ⟨0xF0FF#16, 0xF015#16⟩,
   ⟨0xF0FF#16, 0xF018#16⟩, ⟨0xF0FF#16, 0xF01E#16⟩, ⟨0xF0FF#16, 0xF029#16⟩, ⟨0xF0FF#16, 0xF033#16⟩,
   ⟨0xF0FF#16, 0xF055#16⟩, ⟨0xF0FF#16, 0xF065#16⟩]

/-- A word matches a row (R86). -/
def OpRow.covers (r : OpRow) (w : Word) : Bool := decide (w &&& r.mask = r.value)

/-! ## The host's numbering of a table word -/

/-- The instruction word of `nbits` table bits `w`: every bit from `nbits` up is 0. -/
def tableWord (nbits w : Nat) : Word := BitVec.ofNat 16 (w % 2 ^ nbits)

/-- The instruction the decoder reads from the two bytes of a table word, laid out as memory holds them (R58). -/
def decodeTableWord (nbits w : Nat) : Option Instr :=
  match decodeBytes [byte0 (tableWord nbits w), byte1 (tableWord nbits w)] with
  | .ok (i, _) => some i
  | .error _ => none

end Sys2Proof
end

