-- ==== Sys2Proof/Config.lean ====
section
/-!
DEFINITION. What an implementation fixes (the constants and the parameters of spec/00_scope.md R7) and the free values:
opaque constants without a body, so that no proof can know a value of one.

The parameters are a record that `State` holds as plain data and no step writes (log entry 2), so a statement about every
state holds for every value of every parameter.
-/

namespace Sys2Proof.Config

/-- `MEM_SIZE` (R7): 4096 bytes. -/
def memSize : Nat := 4096

/-- `ENTRY` (R7): where execution starts and where the program is loaded. -/
def entry : Nat := 0x200

/-- `FONT_BASE` (R7). -/
def fontBase : Nat := 0x000

/-- The length of `FONT` (R7): 16 glyphs of 5 bytes, at 0x000 to 0x04F. -/
def fontSize : Nat := 80

/-- `MAX_PROGRAM` (R7): 4096 - 0x200 bytes. -/
def maxProgram : Nat := 3584

/-- `STACK_DEPTH` (R7). -/
def stackDepth : Nat := 16

/-- `BCD_LAYOUT` (R7, R180): where `Fx33` stores its three digits. -/
inductive BcdLayout where
  | table      -- I, I+1, I+2
  | shifted    -- I+1, I+2, I+3
  | collapsed  -- I+1 three times
  deriving DecidableEq, Repr

/-- `FONT_WRITE_POLICY` (R7, R52): what a write to the font region does.
R7 calls the second value `write`, R206 and C10 call it `allow` (log entry 19). -/
inductive FontPolicy where
  | fault  -- raises FontRegionWrite
  | allow  -- the byte is written
  deriving DecidableEq, Repr

/-- The parameters of R7 and the optional trace sink of R224, fixed for a run (R245). -/
structure Params where
  displayW        : Nat         -- DISPLAY_W, OPEN
  displayH        : Nat         -- DISPLAY_H, OPEN
  font            : List Byte   -- FONT, 80 bytes, OPEN with a default
  bcdLayout       : BcdLayout   -- BCD_LAYOUT, OPEN
  timerAccepts255 : Bool        -- TIMER_ACCEPTS_255
  fontPolicy      : FontPolicy  -- FONT_WRITE_POLICY
  tickInterval    : Nat         -- TICK_INTERVAL, OPEN, in the host's unit of time
  batch           : Nat         -- BATCH, OPEN, steps per tick
  traceSink       : Bool        -- whether the engine was constructed with a diagnostic sink
  deriving DecidableEq, Repr

/-- FREE VALUE. The random byte of draw number `k`, where the launch gave no stream for it: any byte, under no law
(R152, 92 D16; log entry 8). -/
opaque randByte (k : Nat) : Byte

/-- FREE VALUE. The key answer of draw number `k`, where the launch gave no stream for it: any boolean
(R171, 92 D17; log entry 9). -/
opaque keyPressed (k : Nat) : Bool

/-- FREE VALUE. The pixel at an offset of the display left by a `Dxyn` that faulted as draw number `k`: any value
(R164, 92 D14; log entry 10). -/
opaque pixelAfterFault (k off : Nat) : Bool

end Sys2Proof.Config
end

