-- ==== Sys2Proof/Machine/Defaults.lean ====
section
/-!
DEFINITION. The launch arguments that `State.reset` is built with: the spec's defaults where it gives one, and a value the
assumption log names where spec/00_scope.md R7 says OPEN.
-/

namespace Sys2Proof.Machine

/-- The default of `FONT` (R54): the standard CHIP-8 font, one glyph a line.
PRESUMED: the spec marks the bytes as general knowledge (log entry 5). -/
def defaultFont : List Byte :=
  [0xF0, 0x90, 0x90, 0x90, 0xF0,
   0x20, 0x60, 0x20, 0x20, 0x70,
   0xF0, 0x10, 0xF0, 0x80, 0xF0,
   0xF0, 0x10, 0xF0, 0x10, 0xF0,
   0x90, 0x90, 0xF0, 0x10, 0x10,
   0xF0, 0x80, 0xF0, 0x10, 0xF0,
   0xF0, 0x80, 0xF0, 0x90, 0xF0,
   0xF0, 0x10, 0x20, 0x40, 0x40,
   0xF0, 0x90, 0xF0, 0x90, 0xF0,
   0xF0, 0x90, 0xF0, 0x10, 0xF0,
   0xF0, 0x90, 0xF0, 0x90, 0x90,
   0xE0, 0x90, 0xE0, 0x90, 0xE0,
   0xF0, 0x80, 0x80, 0x80, 0xF0,
   0xE0, 0x90, 0x90, 0x90, 0xE0,
   0xF0, 0x80, 0xF0, 0x80, 0xF0,
   0xF0, 0x80, 0xF0, 0x80, 0x80]

/-- The parameters of `State.reset`.
`timerAccepts255` and `fontPolicy` are R7's values (log entry 6); the display size is PRESUMED (log entry 3); the BCD layout
(log entry 4), the tick interval, the batch and the absent trace sink (log entry 7) are DESIGN CHOICE. -/
def defaultParams : Config.Params where
  displayW := 64
  displayH := 32
  font := defaultFont
  bcdLayout := .table
  timerAccepts255 := false
  fontPolicy := .fault
  tickInterval := 1
  batch := 1
  traceSink := false

/-- The plane of `State.reset`: every pixel 0. DESIGN CHOICE (log entry 3). -/
def defaultPlane : List Bool := List.replicate (defaultParams.displayW * defaultParams.displayH) false

end Sys2Proof.Machine
end

