-- ==== Sys2Proof/Machine/State.lean ====
section
/-!
DEFINITION. The state of the machine as plain data: the architectural tuple of spec/10_state.md R20, and beside it the state
of the collaborators and of the host-side driver, which R21 calls arguments of the model.
-/

namespace Sys2Proof.Machine

/-- Memory: (address, byte) cells in the canonical form `Memory.wf` (Machine/Memory.lean) describes. -/
abbrev Memory := List Host.Cell

/-- The errors a step can raise, with their payloads (R200, R204); an address payload is an unbounded integer. -/
inductive Err where
  | outOfRangeAddress (a : Int)
  | invalidAddress (a : Int)
  | invalidRegister (r : Int)
  | stackOverflow
  | stackUnderflow
  | unsupportedInstruction (w : Word) (prev : Option Word)
  | timerValueRejected (v : Byte)
  | fontRegionWrite (a : Int)
  deriving DecidableEq, Repr

/-- What a Scheduler listener is told by `onError`: the error of a step, or that the listener `id` raised in its own
`onTick` (R218, R219). -/
inductive TickError where
  | step (e : Err)
  | listener (id : Nat)
  deriving DecidableEq, Repr

/-- The calls the block and the Scheduler make that nothing answers, recorded in order so that a claim can count them:
`Beep()` (R222), `Trace` of a decoded word (R224), and the Scheduler's notifications (R218). -/
inductive Event where
  | beep
  | trace (w : Word)
  | onTick (id : Nat)
  | onError (id : Nat) (e : TickError)
  deriving DecidableEq, Repr

/-- A Scheduler subscription (R216): the core's own, whose `onTick` runs a batch of steps (R218), or a host's. -/
structure Subscriber where
  id : Nat
  runsCore : Bool
  deriving DecidableEq, Repr

/-- The Scheduler's own state: its subscriber list in registration order (R216) and the drift of its tick loop (R217). -/
structure Sched where
  subs : List Subscriber
  drift : Int
  deriving DecidableEq, Repr

/-- The machine's state. The first ten fields are the rows of R20; the others are what R21 calls arguments of the model
(log entry 2), and `draws` is the model's own counter of free values (log entries 8 to 10). -/
structure State where
  mem        : Memory              -- mem[0..4095] (R50)
  v          : Vector Byte 16      -- V0 to VF (R22)
  i          : Word                -- I (R25)
  pc         : Addr                -- PC, bit 0 always 0 (R27)
  stack      : Vector Addr 16      -- STACK[0..15] (R31)
  sp         : Fin 17              -- SP, 0 to 16 (R31)
  dt         : Byte                -- DT (R35)
  st         : Byte                -- ST (R35)
  prev       : Option Word         -- PREV (R38)
  fault      : Option Err          -- FAULT (R39)
  disp       : List Bool           -- DISP, the display plane (R220)
  events     : List Event          -- calls made, newest first (R222, R224, R218)
  randStream : List Byte           -- random bytes given with the launch, not yet drawn (R152)
  keyStream  : List Bool           -- key answers given with the launch, not yet drawn (R171)
  draws      : Nat                 -- how many free values were drawn
  sched      : Sched               -- the Scheduler (R216)
  par        : Config.Params       -- the parameters of R7
  deriving DecidableEq, Repr

/-- Why a step is not enabled. -/
inductive Fault where
  /-- Raised by `step` alone, in a state whose FAULT record is set: R209 says that `Step` is not enabled there and that only
  `Reset` leaves it. Safe: the machine takes no further step there either. -/
  | halted (e : Err)
  deriving DecidableEq, Repr

/-- Why nothing is done. -/
inductive Refusal where
  /-- Raised by `exec` for an instruction that has no meaning yet. Safe. -/
  | notModelled (mnemonic : String)
  /-- Raised by a launch or a reset whose program is longer than 3584 bytes (R70, R242): a refused launch. Safe. -/
  | programTooLong (len : Nat)
  /-- Raised by a launch whose parameters or initial plane are not admissible (R7, R220). Safe. -/
  | badLaunch
  deriving DecidableEq, Repr

/-- The machine right after construction and `Reset` with the empty program (R42, R240, R242): the values of R42, `PREV`
none (R38), and the launch arguments of Machine/Defaults.lean. -/
def State.reset : State where
  mem := []
  v := Vector.replicate 16 0
  i := 0
  pc := BitVec.ofNat 12 Config.entry
  stack := Vector.replicate 16 0
  sp := 0
  dt := 0
  st := 0
  prev := none
  fault := none
  disp := defaultPlane
  events := []
  randStream := []
  keyStream := []
  draws := 0
  sched := { subs := [], drift := 0 }
  par := defaultParams

end Sys2Proof.Machine
end

