-- ==== Sys2Proof/Machine/Memory.lean ====
section
/-!
DEFINITION. Memory as data: what an unlisted byte reads as, reading and writing one byte, and the canonical form.
The range check and the font policy are not here but in the primitives of Machine/Ops.lean.
-/

namespace Sys2Proof.Machine

/-- What an address that memory does not list reads as: the contents after `Reset` with the empty program, the font at
0x000 to 0x04F and zero elsewhere (R53, R54). -/
def Memory.unlisted (font : List Byte) (a : Nat) : Byte :=
  if Config.fontBase ≤ a ∧ a < Config.fontBase + Config.fontSize then font.getD (a - Config.fontBase) 0 else 0

/-- The byte at an address (R50, R64). -/
def Memory.read (font : List Byte) : Memory → Nat → Byte
  | [], a => Memory.unlisted font a
  | (k, b) :: m, a => if k = a then b else Memory.read font m a

/-- A cell put before `m`, left out where it says only what an unlisted address says anyway. -/
def Memory.cell (font : List Byte) (a : Nat) (b : Byte) (m : Memory) : Memory :=
  if b = Memory.unlisted font a then m else (a, b) :: m

/-- Write one byte, keeping the canonical form. -/
def Memory.write (font : List Byte) : Memory → Nat → Byte → Memory
  | [], a, b => Memory.cell font a b []
  | (k, c) :: m, a, b =>
    if a < k then Memory.cell font a b ((k, c) :: m)
    else if a = k then Memory.cell font a b m
    else (k, c) :: Memory.write font m a b

/-- Write a list of bytes from an address up (a program image, R70). -/
def Memory.writeBytes (font : List Byte) : Memory → Nat → List Byte → Memory
  | m, _, [] => m
  | m, a, b :: bs => Memory.writeBytes font (Memory.write font m a b) (a + 1) bs

/-- The canonical form: addresses strictly rising and inside the 4096 bytes, no cell equal to what an unlisted address
reads as. -/
abbrev Memory.wf (font : List Byte) (m : Memory) : Prop :=
  m.Pairwise (fun c d => c.1 < d.1) ∧ ∀ c ∈ m, c.1 < Config.memSize ∧ c.2 ≠ Memory.unlisted font c.1

end Sys2Proof.Machine
end

