-- ==== Sys2Proof/Machine/Ops.lean ====
section
/-!
DEFINITION. The primitives of spec/00_scope.md R11, each with the check and the error its own rule gives it, and the taking
of an error, once (spec/60_exceptions.md R207, R209).

A primitive answers `Res`: it completes with a value and the state after it, or it raises and leaves the state as it was.
-/

namespace Sys2Proof.Machine

/-- How a primitive, or a run of primitives, ends: completed with a value, or raised; both carry the state left (R207). -/
inductive Res (α : Type) where
  | ok (a : α) (s : State)
  | raised (e : Err) (s : State)
  deriving DecidableEq, Repr

/-- Go on with the next primitive, unless this one raised: no later primitive of the step runs then (R207). -/
def Res.bind {α β : Type} (r : Res α) (next : α → State → Res β) : Res β :=
  match r with
  | .ok a s => next a s
  | .raised e s => .raised e s

/-! ## Taking an error -/

/-- The numeric code of an error (R200, 92 D18); no rule depends on it. -/
def Err.code : Err → Nat
  | .outOfRangeAddress _ => 1
  | .invalidAddress _ => 2
  | .invalidRegister _ => 3
  | .stackOverflow => 4
  | .stackUnderflow => 5
  | .unsupportedInstruction _ _ => 6
  | .timerValueRejected _ => 7
  | .fontRegionWrite _ => 8

/-- Fault entry (R209): the FAULT record is set and nothing else changes; no vector, no mode, no saved register, PC not
redirected. There is no return from it but `Reset` (R211). -/
def takeFault (e : Err) (s : State) : State := { s with fault := some e }

/-- The state an execute phase leaves: what it wrote, with the fault taken where a primitive raised (R207, R209). -/
def Res.settle : Res Unit → State
  | .ok _ s => s
  | .raised e s => takeFault e s

/-- The outcome of an execute phase: always a next state, the faulted one where a primitive raised (log entry 1). -/
def finish (r : Res Unit) : Host.Outcome State Fault Refusal := .next r.settle

/-! ## Memory (R51, R52) -/

/-- The byte of memory at an address, as data. -/
def State.byteAt (s : State) (a : Nat) : Byte := s.mem.read s.par.font a

/-- `mem[a] <- b` with no check, as data. -/
def State.setByte (s : State) (a : Nat) (b : Byte) : State := { s with mem := s.mem.write s.par.font a b }

/-- `MemRead(a, 1)` (R51). -/
def memRead (a : Int) (s : State) : Res Byte :=
  if a < 0 ∨ a > 0xFFF then .raised (.outOfRangeAddress a) s else .ok (s.byteAt a.toNat) s

/-- `MemWrite(a, 1, b)` (R52). -/
def memWrite (a : Int) (b : Byte) (s : State) : Res Unit :=
  if a < 0 ∨ a > 0xFFF then .raised (.outOfRangeAddress a) s
  else if a ≤ 0x04F ∧ s.par.fontPolicy = .fault then .raised (.fontRegionWrite a) s
  else .ok () (s.setByte a.toNat b)

/-- Write bytes at offsets from a base, in the list's order; those before a raise stay written (R57, R207). -/
def writeCells (base : Int) : List (Nat × Byte) → State → Res Unit
  | [], s => .ok () s
  | (k, b) :: cells, s => (memWrite (base + k) b s).bind fun _ s => writeCells base cells s

/-! ## General registers and the index register (R22, R26) -/

/-- Read `V[x]` (R22). -/
def State.getV (s : State) (x : Reg) : Byte := s.v[x.toNat]

/-- Write `V[x] <- b` (R22); a byte is its own value modulo 256. -/
def State.setV (s : State) (x : Reg) (b : Byte) : State := { s with v := s.v.set x.toNat b }

/-- `VF`, the register that doubles as a flag (R23). -/
def regF : Reg := 0xF#4

/-- `I <- a`, stored modulo 2^16 (R26). -/
def State.setI (s : State) (a : Nat) : State := { s with i := BitVec.ofNat 16 a }

/-- Load registers, numbered by the list, each from its own number above a base; those before a raise stay loaded (R182). -/
def loadRegs (base : Int) : List Nat → State → Res Unit
  | [], s => .ok () s
  | k :: ks, s => (memRead (base + k) s).bind fun b s => loadRegs base ks (s.setV (BitVec.ofNat 4 k) b)

/-! ## Program counter (R28, R29, R110) -/

/-- An address the program counter and the stack may hold: even and in [0, 0xFFF] (R28, R32). -/
abbrev legalPc (a : Int) : Prop := a % 2 = 0 ∧ 0 ≤ a ∧ a ≤ 0xFFF

/-- `SetPC(a)` (R28): the check is on the unbounded integer, before any truncation. -/
def setPC (a : Int) (s : State) : Res Unit :=
  if legalPc a then .ok () { s with pc := BitVec.ofInt 12 a } else .raised (.invalidAddress a) s

/-- `AdvancePC(d)` is `SetPC(PC + d)` (R29). -/
def advancePC (d : Int) (s : State) : Res Unit := setPC (s.pc.toNat + d) s

/-- `Skip()` is `AdvancePC(2)` in the execute phase (R110). -/
def skip (s : State) : Res Unit := advancePC 2 s

/-- `if c: Skip()` (R114 to R116, R170). -/
def skipIf (c : Bool) (s : State) : Res Unit := if c then skip s else .ok () s

/-! ## Return stack (R32, R33) -/

/-- `Push(a)` (R32): the depth is checked first, then the address. -/
def push (a : Int) (s : State) : Res Unit :=
  if h : s.sp.val = 16 then .raised .stackOverflow s
  else if legalPc a then
    .ok () { s with stack := s.stack.set s.sp.val (BitVec.ofInt 12 a), sp := ⟨s.sp.val + 1, by omega⟩ }
  else .raised (.invalidAddress a) s

/-- `Pop()` (R33): the entry stays where it is, only the depth falls. -/
def pop (s : State) : Res Addr :=
  if h : s.sp.val = 0 then .raised .stackUnderflow s
  else .ok s.stack[s.sp.val - 1] { s with sp := ⟨s.sp.val - 1, by omega⟩ }

/-! ## Timers (R36) -/

/-- A timer takes this value (R36): 255 only where `TIMER_ACCEPTS_255`. -/
abbrev timerTakes (par : Config.Params) (b : Byte) : Prop := b = 255#8 → par.timerAccepts255 = true

/-- `SetDT(b)` (R36). -/
def setDT (b : Byte) (s : State) : Res Unit :=
  if timerTakes s.par b then .ok () { s with dt := b } else .raised (.timerValueRejected b) s

/-- `SetST(b)` (R36). -/
def setST (b : Byte) (s : State) : Res Unit :=
  if timerTakes s.par b then .ok () { s with st := b } else .raised (.timerValueRejected b) s

/-! ## Collaborators (R220 to R224) -/

/-- A pixel of the plane, as data. -/
def State.pixel (s : State) (off : Nat) : Bool := s.disp.getD off false

/-- `DispGet(off)` (R220). -/
def dispGet (off : Nat) (s : State) : Res Bool :=
  if off < s.par.displayW * s.par.displayH then .ok (s.pixel off) s else .raised (.outOfRangeAddress off) s

/-- `DispSet(off, b)` (R220). -/
def dispSet (off : Nat) (b : Bool) (s : State) : Res Unit :=
  if off < s.par.displayW * s.par.displayH then .ok () { s with disp := s.disp.set off b }
  else .raised (.outOfRangeAddress off) s

/-- The display a faulted `Dxyn` leaves is any value (R164): every pixel a free value (log entry 10). -/
def freePlane (s : State) : State :=
  { s with
    disp := (List.range (s.par.displayW * s.par.displayH)).map (Config.pixelAfterFault s.draws)
    draws := s.draws + 1 }

/-- One draw of the key oracle: the next answer of the launch's stream, and a free value where the stream gives none (R171;
log entry 9). -/
def drawKey (s : State) : Res Bool :=
  match s.keyStream with
  | p :: ps => .ok p { s with keyStream := ps }
  | [] => .ok (Config.keyPressed s.draws) { s with draws := s.draws + 1 }

/-- `KeyPressed(k)` (R221): the key number is not masked. -/
def keyPressed (k : Byte) (s : State) : Res Bool :=
  if k.toNat > 15 then .raised (.invalidRegister k.toNat) s else drawKey s

/-- `RandByte()` (R223): the next byte of the launch's stream, and a free value where the stream gives none (R152; log
entry 8). It never raises. -/
def randByte (s : State) : Res Byte :=
  match s.randStream with
  | b :: bs => .ok b { s with randStream := bs }
  | [] => .ok (Config.randByte s.draws) { s with draws := s.draws + 1 }

/-- A call recorded, the newest first (R222). -/
def State.record (s : State) (e : Event) : State := { s with events := e :: s.events }

/-- `Beep()` (R222): it never raises. -/
def beep (s : State) : State := s.record .beep

/-- `Trace` (R224): the sink gets the decoded word where there is a sink; nothing otherwise. -/
def trace (w : Word) (s : State) : State := if s.par.traceSink then s.record (.trace w) else s

end Sys2Proof.Machine
end

