-- ==== Sys2Proof/Machine/Cycle.lean ====
section
/-!
DEFINITION. The phases of a step around `exec` (spec/30_encoding.md R90 to R95), and placing a word where the next step
fetches it.
-/

namespace Sys2Proof.Machine

/-- `if DT > 0: SetDT(DT - 1)` (R91). DEDUCED: the check of `SetDT` cannot fire on `DT - 1` (R37; log entry 15). -/
def tickDelay (s : State) : State := if s.dt = 0#8 then s else { s with dt := s.dt - 1#8 }

/-- `if ST > 0: Beep(); SetST(ST - 1)` (R91). -/
def tickSound (s : State) : State := if s.st = 0#8 then s else { beep s with st := s.st - 1#8 }

/-- Phase 1 (R91): the delay timer, then the sound timer. -/
def timerPhase (s : State) : State := tickSound (tickDelay s)

/-- Phase 2's reads (R92): the bytes at `PC` and `PC + 1`, in that order, as one word (R58). -/
def fetch (s : State) : Res Word :=
  (memRead (s.pc.toNat : Int) s).bind fun hi s =>
    (memRead ((s.pc.toNat : Int) + 1) s).bind fun lo s => .ok (wordOfBytes hi lo) s

/-- Phase 4 (R94): `AdvancePC(2)`, then `PREV <- w` (R38, R90). -/
def advance (w : Word) (s : State) : State :=
  ((advancePC 2 s).bind fun _ s => .ok () { s with prev := some w }).settle

/-- Phase 4 runs only where the execute phase did not raise (R207). -/
def completeStep (w : Word) (s : State) : State :=
  match s.fault with
  | some _ => s
  | none => advance w s

/-- The step's outcome from the execute phase's. -/
def finishStep (w : Word) (r : Host.Outcome State Fault Refusal) : Host.Outcome State Fault Refusal :=
  match r with
  | .next s => .next (completeStep w s)
  | .fault e => .fault e
  | .refused e => .refused e

/-- The step's end on an unsupported word: nothing but the FAULT record changes after phase 1 (R95, R205). -/
def unsupported (w : Word) (s : State) : State := takeFault (.unsupportedInstruction w s.prev) s

/-- A word placed at the program counter in memory's byte order (R58), unchecked as a load is (R240), in a state whose FAULT
record is clear, so that the next step fetches and runs it (log entry 11). -/
def placeWord (w : Word) (s : State) : State :=
  { (s.setByte s.pc.toNat (byte0 w)).setByte (s.pc.toNat + 1) (byte1 w) with fault := none }

end Sys2Proof.Machine
end

