-- ==== Sys2Proof/Machine/Flags.lean ====
section
/-!
DEFINITION. The values `VF` receives (spec/10_state.md R23, spec/41_alu.md R130, spec/43_draw.md R162, R163).
-/

namespace Sys2Proof.Machine

/-- A flag as the byte `VF` holds: 1 or 0. -/
def flagByte (c : Bool) : Byte := if c then 1#8 else 0#8

/-- The carry of an addition: 1 exactly when the unbounded sum exceeds 255 (R130, R135). -/
def carryFlag (a b : Byte) : Byte := flagByte (decide (a.toNat + b.toNat > 255))

/-- The flag of a subtraction: 1 exactly when `a > b`, a strict comparison (R130, R136). -/
def greaterFlag (a b : Byte) : Byte := flagByte (decide (a.toNat > b.toNat))

/-- The bit a right shift by one moves out: bit 0 (R137). -/
def lowBitFlag (b : Byte) : Byte := flagByte (b.getLsbD 0)

/-- The bit a left shift by one moves out: bit 7 (R138). -/
def highBitFlag (b : Byte) : Byte := flagByte (b.getLsbD 7)

/-- A collision comparison fires when the incoming bit equals the pixel's value before it is written (R162). -/
def fires (bit old : Bool) : Bool := bit == old

end Sys2Proof.Machine
end

