-- ==== Sys2Proof/Machine/Alu.lean ====
section
/-!
DEFINITION. The execute phases of `6xkk`, `7xkk`, `8xy0`, `8xy2`, `8xy4`, `8xy5`, `8xy6` and `8xyE` (spec/41_alu.md).
Operands are read from the state before the first write, and the two writes of an instruction go in the row's order
(spec/00_scope.md R13, log entry 12).
-/

namespace Sys2Proof.Machine

/-- LD Vx, kk (R131). -/
def execLdImm (x : Reg) (kk : Byte) (s : State) : Host.Outcome State Fault Refusal :=
  finish (.ok () (s.setV x kk))

/-- ADD Vx, kk (R132): the carry is discarded. -/
def execAddImm (x : Reg) (kk : Byte) (s : State) : Host.Outcome State Fault Refusal :=
  finish (.ok () (s.setV x (s.getV x + kk)))

/-- LD Vx, Vy (R133). -/
def execLdReg (x y : Reg) (s : State) : Host.Outcome State Fault Refusal :=
  finish (.ok () (s.setV x (s.getV y)))

/-- AND Vx, Vy (R134). -/
def execAndReg (x y : Reg) (s : State) : Host.Outcome State Fault Refusal :=
  finish (.ok () (s.setV x (s.getV x &&& s.getV y)))

/-- ADD Vx, Vy (R135): `Vx`, then `VF` gets the carry. -/
def execAddReg (x y : Reg) (s : State) : Host.Outcome State Fault Refusal :=
  finish (.ok () ((s.setV x (s.getV x + s.getV y)).setV regF (carryFlag (s.getV x) (s.getV y))))

/-- SUB Vx, Vy (R136): `VF` gets `Vx > Vy`, then `Vx`. -/
def execSubReg (x y : Reg) (s : State) : Host.Outcome State Fault Refusal :=
  finish (.ok () ((s.setV regF (greaterFlag (s.getV x) (s.getV y))).setV x (s.getV x - s.getV y)))

/-- SHR Vx, Vy (R137): `VF` gets bit 0 of `Vy`, then `Vy` is shifted; the field `x` is neither read nor written. -/
def execShr (_x y : Reg) (s : State) : Host.Outcome State Fault Refusal :=
  finish (.ok () ((s.setV regF (lowBitFlag (s.getV y))).setV y (s.getV y >>> 1)))

/-- SHL Vx, Vy (R138): `VF` gets bit 7 of `Vy`, then `Vy` is shifted; the field `x` is neither read nor written. -/
def execShl (_x y : Reg) (s : State) : Host.Outcome State Fault Refusal :=
  finish (.ok () ((s.setV regF (highBitFlag (s.getV y))).setV y (s.getV y <<< 1)))

end Sys2Proof.Machine
end

