-- ==== Sys2Proof/Machine/Operands.lean ====
section
/-!
DEFINITION. The operand forms: what an instruction computes from its fields before it reads or writes anything
(spec/30_encoding.md R83, spec/20_memory.md R62, spec/40_control_flow.md R117, spec/43_draw.md R160, R161,
spec/45_f_family.md R179, R180).
-/

namespace Sys2Proof.Machine

/-- The base of a memory operand: `I`, as an unbounded integer to which an offset is added without wrapping (R62). -/
def indexBase (s : State) : Int := (s.i.toNat : Int)

/-- What `1nnn` and `2nnn` give `SetPC`: `nnn - 2`, so that the final advance lands on `nnn` (R112, R113, R117). -/
def branchTarget (nnn : Addr) : Int := (nnn.toNat : Int) - 2

/-- The address of the glyph a register's value names, not masked and not checked (R179). -/
def glyphAddr (digit : Byte) : Nat := Config.fontBase + 5 * digit.toNat

/-- The hundreds, tens and ones digits of a byte (R180). -/
def hundreds (b : Byte) : Byte := BitVec.ofNat 8 (b.toNat / 100)
/-- See `hundreds`. -/
def tens (b : Byte) : Byte := BitVec.ofNat 8 (b.toNat / 10 % 10)
/-- See `hundreds`. -/
def ones (b : Byte) : Byte := BitVec.ofNat 8 (b.toNat % 10)

/-- The writes of `Fx33` in order: each digit with its offset from `I`, by `BCD_LAYOUT` (R180). -/
def bcdCells (layout : Config.BcdLayout) (b : Byte) : List (Nat × Byte) :=
  match layout with
  | .table => [(0, hundreds b), (1, tens b), (2, ones b)]
  | .shifted => [(1, hundreds b), (2, tens b), (3, ones b)]
  | .collapsed => [(1, hundreds b), (1, tens b), (1, ones b)]

/-- The writes of `Fx55` in order: `V[k]` at offset `k`, for `k = 0 .. x` (R181). -/
def regCells (s : State) (x : Reg) : List (Nat × Byte) :=
  (List.range (x.toNat + 1)).map fun k => (k, s.getV (BitVec.ofNat 4 k))

/-- Bit `b` of a sprite row, the most significant first: `(row >> (7 - b)) AND 1` (R160). -/
def spriteBit (row : Byte) (b : Nat) : Bool := row.getLsbD (7 - b)

/-- The offset of the pixel for row `r` and bit `b` of a sprite at `(cx, cy)`, both coordinates wrapped (R160, R161). -/
def pixelOffset (par : Config.Params) (cx cy : Byte) (r b : Nat) : Nat :=
  par.displayW * ((cy.toNat + r) % par.displayH) + (cx.toNat + b) % par.displayW

end Sys2Proof.Machine
end

