-- ==== Sys2Proof/Machine/ControlFlow.lean ====
section
/-!
DEFINITION. The execute phases of `00EE`, `1nnn`, `2nnn`, `3xkk`, `4xkk` and `5xy0` (spec/40_control_flow.md).
-/

namespace Sys2Proof.Machine

/-- RET (R111): `a <- Pop(); SetPC(a)`. -/
def execRet (s : State) : Host.Outcome State Fault Refusal :=
  finish ((pop s).bind fun a s => setPC (a.toNat : Int) s)

/-- JP nnn (R112): `SetPC(nnn - 2)`. -/
def execJp (nnn : Addr) (s : State) : Host.Outcome State Fault Refusal :=
  finish (setPC (branchTarget nnn) s)

/-- CALL nnn (R113): `Push(PC); SetPC(nnn - 2)`; the push stays where the target is rejected. -/
def execCall (nnn : Addr) (s : State) : Host.Outcome State Fault Refusal :=
  finish ((push (s.pc.toNat : Int) s).bind fun _ s => setPC (branchTarget nnn) s)

/-- SE Vx, kk (R114). -/
def execSeImm (x : Reg) (kk : Byte) (s : State) : Host.Outcome State Fault Refusal :=
  finish (skipIf (s.getV x == kk) s)

/-- SNE Vx, kk (R115). -/
def execSneImm (x : Reg) (kk : Byte) (s : State) : Host.Outcome State Fault Refusal :=
  finish (skipIf (s.getV x != kk) s)

/-- SE Vx, Vy (R116). -/
def execSeReg (x y : Reg) (s : State) : Host.Outcome State Fault Refusal :=
  finish (skipIf (s.getV x == s.getV y) s)

end Sys2Proof.Machine
end

