-- ==== Sys2Proof/Machine/Draw.lean ====
section
/-!
DEFINITION. The sprite engine and the execute phase of `Dxyn` (spec/43_draw.md R160 to R165).
-/

namespace Sys2Proof.Machine

/-- One pixel (R160, R161): read once, compare, write `old XOR bit`; `hit` is what fired so far. -/
def drawBit (cx cy row : Byte) (r b : Nat) (hit : Bool) (s : State) : Res Bool :=
  (dispGet (pixelOffset s.par cx cy r b) s).bind fun old s =>
    (dispSet (pixelOffset s.par cx cy r b) (old ^^ spriteBit row b) s).bind fun _ s =>
      .ok (hit || fires (spriteBit row b) old) s

/-- The pixels of one row, for the listed bits in order (R161). -/
def drawBits (cx cy row : Byte) (r : Nat) : List Nat → Bool → State → Res Bool
  | [], hit, s => .ok hit s
  | b :: bs, hit, s => (drawBit cx cy row r b hit s).bind fun hit s => drawBits cx cy row r bs hit s

/-- The listed rows in order, each read from memory just before its pixels (R161). -/
def drawRows (base : Int) (cx cy : Byte) : List Nat → Bool → State → Res Bool
  | [], hit, s => .ok hit s
  | r :: rs, hit, s =>
    (memRead (base + r) s).bind fun row s =>
      (drawBits cx cy row r (List.range 8) hit s).bind fun hit s => drawRows base cx cy rs hit s

/-- The end of a draw: `VF` is written once, after every pixel (R163); a draw that faults writes no `VF` and leaves the
display at any value (R164). -/
def finishDraw : Res Bool → Res Unit
  | .ok hit s => .ok () (s.setV regF (flagByte hit))
  | .raised e s => .raised e (freePlane s)

/-- DRW Vx, Vy, n (R160): the coordinates are latched first (R163). -/
def execDrw (x y : Reg) (n : Nibble) (s : State) : Host.Outcome State Fault Refusal :=
  finish (finishDraw (drawRows (indexBase s) (s.getV x) (s.getV y) (List.range n.toNat) false s))

end Sys2Proof.Machine
end

