-- ==== Sys2Proof/Machine/FFamily.lean ====
section
/-!
DEFINITION. The execute phases of the F family (spec/45_f_family.md R175 to R182).
-/

namespace Sys2Proof.Machine

/-- LD Vx, DT (R175): `DT` as the timer phase of this step left it. -/
def execLdVxDt (x : Reg) (s : State) : Host.Outcome State Fault Refusal :=
  finish (.ok () (s.setV x s.dt))

/-- LD DT, Vx (R176). -/
def execLdDtVx (x : Reg) (s : State) : Host.Outcome State Fault Refusal :=
  finish (setDT (s.getV x) s)

/-- LD ST, Vx (R177). -/
def execLdStVx (x : Reg) (s : State) : Host.Outcome State Fault Refusal :=
  finish (setST (s.getV x) s)

/-- ADD I, Vx (R178): modulo 2^16, no flag. -/
def execAddI (x : Reg) (s : State) : Host.Outcome State Fault Refusal :=
  finish (.ok () (s.setI (s.i.toNat + (s.getV x).toNat)))

/-- LD F, Vx (R179). -/
def execLdF (x : Reg) (s : State) : Host.Outcome State Fault Refusal :=
  finish (.ok () (s.setI (glyphAddr (s.getV x))))

/-- LD B, Vx (R180). -/
def execLdB (x : Reg) (s : State) : Host.Outcome State Fault Refusal :=
  finish (writeCells (indexBase s) (bcdCells s.par.bcdLayout (s.getV x)) s)

/-- LD [I], Vx (R181): `I` is not changed. -/
def execStore (x : Reg) (s : State) : Host.Outcome State Fault Refusal :=
  finish (writeCells (indexBase s) (regCells s x) s)

/-- LD Vx, [I] (R182): `I` is not changed. -/
def execLoad (x : Reg) (s : State) : Host.Outcome State Fault Refusal :=
  finish (loadRegs (indexBase s) (List.range (x.toNat + 1)) s)

end Sys2Proof.Machine
end

