-- ==== Sys2Proof/Machine/IndexRandom.lean ====
section
/-!
DEFINITION. The execute phases of `Annn` and `Cxkk` (spec/42_index_random.md).
-/

namespace Sys2Proof.Machine

/-- LD I, nnn (R150). -/
def execLdI (nnn : Addr) (s : State) : Host.Outcome State Fault Refusal :=
  finish (.ok () (s.setI nnn.toNat))

/-- RND Vx, kk (R151): one draw, masked. -/
def execRnd (x : Reg) (kk : Byte) (s : State) : Host.Outcome State Fault Refusal :=
  finish ((randByte s).bind fun r s => .ok () (s.setV x (r &&& kk)))

end Sys2Proof.Machine
end

