-- ==== Sys2Proof/Machine/Keyboard.lean ====
section
/-!
DEFINITION. The execute phase of `ExA1` (spec/44_keyboard.md R170).
-/

namespace Sys2Proof.Machine

/-- SKNP Vx (R170): skip when the key numbered by `Vx` is not pressed. -/
def execSknp (x : Reg) (s : State) : Host.Outcome State Fault Refusal :=
  finish ((keyPressed (s.getV x) s).bind fun p s => skipIf (!p) s)

end Sys2Proof.Machine
end

