-- ==== Sys2Proof/Machine/Step.lean ====
section
/-!
DEFINITION. `step`: one `Step()` of spec/30_encoding.md R90, enabled only where FAULT is none (spec/60_exceptions.md R209).
-/

namespace Sys2Proof.Machine

/-- `Step()` (R90): timers, fetch and decode, trace, execute, advance. A raise ends it with the FAULT record set, which is a
next state; a state whose FAULT record is set takes no step (R209; log entry 1). -/
def step (s : State) : Host.Outcome State Fault Refusal :=
  match s.fault with
  | some e => .fault (.halted e)
  | none =>
    match fetch (timerPhase s) with
    | .raised e s => .next (takeFault e s)
    | .ok w s =>
      match decode w with
      | none => .next (unsupported w s)
      | some i => finishStep w (exec i (trace w s))

/-- A table word placed where the next step fetches it (log entry 11). -/
def State.withFetchWord (s : State) (nbits w : Nat) : State := placeWord (tableWord nbits w) s

end Sys2Proof.Machine
end

