-- ==== Sys2Proof/WellFormed.lean ====
section
/-!
DEFINITION. What has to be well formed before the machine runs: the launch data.
An instruction needs no check: each operand of `Instr` has the width of its field (spec/30_encoding.md R81 to R84), so there
is no ill-formed instruction term (and `InvalidRegister` for a register number cannot arise, spec/10_state.md R22).
-/

namespace Sys2Proof

/-- A launch's program fits memory: at most 3584 bytes (R70, R242). -/
def programWf (p : List Byte) : Bool := decide (p.length ≤ Config.maxProgram)

/-- The parameters are admissible: a display of positive size, a font of 80 bytes, a positive batch (R7). -/
def Config.Params.wf (par : Config.Params) : Bool :=
  decide (0 < par.displayW) && decide (0 < par.displayH) && decide (par.font.length = Config.fontSize)
    && decide (0 < par.batch)

/-- The initial plane has one bit for each pixel of the display (R220, R245). -/
def planeWf (par : Config.Params) (plane : List Bool) : Bool :=
  decide (plane.length = par.displayW * par.displayH)

end Sys2Proof
end

