-- ==== Sys2Proof/Machine/Launch.lean ====
section
/-!
DEFINITION. `Reset(program)` and the launch (spec/70_reset_and_hazards.md R240 to R245): what the host does to the machine
before it runs.
-/

namespace Sys2Proof.Machine

/-- The whole State Store set (R240, R42), unchecked: the font and the program are written whatever `FONT_WRITE_POLICY` says.
`PREV`, the display, the oracles, the calls recorded and the Scheduler are not touched (R244). -/
def loadProgram (p : List Byte) (s : State) : State :=
  { s with
    mem := Memory.writeBytes s.par.font [] Config.entry p
    v := Vector.replicate 16 0
    i := 0
    pc := BitVec.ofNat 12 Config.entry
    stack := Vector.replicate 16 0
    sp := 0
    dt := 0
    st := 0
    fault := none }

/-- `Reset(program)` (R240): it has no failure mode for a program that fits; a longer one is refused and no state is
produced (R70, R242). -/
def resetProgram (p : List Byte) (s : State) : Host.Outcome State Fault Refusal :=
  if programWf p then .next (loadProgram p s) else .refused (.programTooLong p.length)

/-- The launch (R245, steps 1 to 4): parameters, initial plane and the streams of the random source and the keyboard, then
`Reset(program)`; `PREV` is none at construction (R38). The fifth step is `subscribe` (Machine/Scheduler.lean). -/
def launch (par : Config.Params) (plane : List Bool) (rands : List Byte) (keys : List Bool) (p : List Byte) :
    Host.Outcome State Fault Refusal :=
  if par.wf && planeWf par plane then
    resetProgram p { State.reset with par := par, disp := plane, randStream := rands, keyStream := keys }
  else .refused .badLaunch

end Sys2Proof.Machine
end

