-- ==== Sys2Proof/Machine/Scheduler.lean ====
section
/-!
DEFINITION. The periodic Scheduler (spec/60_exceptions.md R216 to R219): a host-side driver that groups steps into ticks and
stops at the first error. It never enters the instruction stream, and `step` never touches it.
Times are numbers the host supplies (log entry 17); which host listeners raise in a tick is the host's input too (log
entry 18).
-/

namespace Sys2Proof.Machine

/-- `subscribe` (R216): registered last, under a number the host chooses, which is neither allotted nor checked, so that one
number may be registered twice (DESIGN CHOICE: R216 names a subscription by the object it returns; log entry 32). The first
subscription starts the tick loop, whose drift starts at 0 (R217). -/
def subscribe (sub : Subscriber) (s : State) : State :=
  { s with
    sched := { subs := s.sched.subs ++ [sub], drift := if s.sched.subs = [] then 0 else s.sched.drift } }

/-- `unsubscribe` (R216): the listener is removed; the loop stops when none is left. DESIGN CHOICE: every entry with that number
is removed, where R216 says only 'that listener' (log entry 32). -/
def unsubscribe (id : Nat) (s : State) : State :=
  { s with sched := { s.sched with subs := s.sched.subs.filter fun sub => sub.id != id } }

/-- How long the loop waits before a tick: `max(0, INTERVAL - drift)` (R217). -/
def tickWait (interval : Nat) (drift : Int) : Int := max 0 ((interval : Int) - drift)

/-- The drift after a wait that began at `start` and ended at `now`: `now - expected`, and 0 where that exceeds the interval
(R217, 92 D28). -/
def nextDrift (interval : Nat) (start now : Int) : Int :=
  if now - (start + (interval : Int)) > (interval : Int) then 0 else now - (start + (interval : Int))

/-- The core's `onTick` (R218): `Step()` a number of times, stopping at the first error; an error raised before this tick
stops it at once (R209). `step` never refuses, so the last arm is never taken. -/
def runBatch : Nat → State → State × Option Err
  | 0, s => (s, none)
  | n + 1, s =>
    match step s with
    | .next t =>
      match t.fault with
      | none => runBatch n t
      | some e => (t, some e)
    | .fault (.halted e) => (s, some e)
    | .refused _ => (s, none)

/-- One listener's `onTick`, invoked once (R218): the core runs its batch; a host's listener raises where the host's input
says so (R219). -/
def onTick (raising : List Nat) (sub : Subscriber) (s : State) : State × Option TickError :=
  if sub.runsCore then
    match runBatch s.par.batch (s.record (.onTick sub.id)) with
    | (t, e) => (t, e.map .step)
  else (s.record (.onTick sub.id), if sub.id ∈ raising then some (.listener sub.id) else none)

/-- `onError` of each listener in registration order (R218). -/
def notifyAll (e : TickError) : List Subscriber → State → State
  | [], s => s
  | sub :: subs, s => notifyAll e subs (s.record (.onError sub.id e))

/-- A tick that an error ends: every subscriber is told, all are removed, and the loop halts (R218). -/
def stopTick (e : TickError) (s : State) : State :=
  { notifyAll e s.sched.subs s with sched := { s.sched with subs := [] } }

/-- The listeners of a tick, in order; an error skips the later ones (R218). -/
def runListeners (raising : List Nat) : List Subscriber → State → State
  | [], s => s
  | sub :: subs, s =>
    match onTick raising sub s with
    | (t, none) => runListeners raising subs t
    | (t, some e) => stopTick e t

/-- `RunTick()` (R218). -/
def runTick (raising : List Nat) (s : State) : State := runListeners raising s.sched.subs s

/-- One turn of the tick loop, which runs only while there is a subscriber (R217): the wait from `start` to `now`, the drift,
the tick. -/
def tickLoopTurn (start now : Int) (raising : List Nat) (s : State) : State :=
  if s.sched.subs = [] then s
  else runTick raising { s with sched := { s.sched with drift := nextDrift s.par.tickInterval start now } }

end Sys2Proof.Machine
end

