-- ==== Sys2Proof/Safety.lean ====
section
/-!
DEFINITION. The terms claims use: the invariant of the machine, the ends of a run (spec/70_reset_and_hazards.md R247), and,
instruction by instruction, what it may write (spec/10_state.md R24, R25, R35, spec/20_memory.md R56) and which errors it
may raise (spec/60_exceptions.md R201).
-/

namespace Sys2Proof.Machine

/-- The machine's invariant, kept by every step from every state: memory in its canonical form; PC and every stack entry
even (R27, R31); the plane as long as the display is large (R220); admissible parameters (R7); and no timer at 255 unless
`TIMER_ACCEPTS_255` (R36, R37). -/
structure State.Inv (s : State) : Prop where
  mem : s.mem.wf s.par.font
  pc : s.pc.toNat % 2 = 0
  stack : ∀ j : Fin 16, (s.stack[j]).toNat % 2 = 0
  plane : s.disp.length = s.par.displayW * s.par.displayH
  par : s.par.wf = true
  dt : timerTakes s.par s.dt
  st : timerTakes s.par s.st

/-- `MemRead` takes this address (R51). -/
abbrev readable (a : Int) : Prop := 0 ≤ a ∧ a ≤ 0xFFF

/-- `MemWrite` takes this address (R52): in range, and outside the font unless `FONT_WRITE_POLICY` allows it. -/
abbrev writable (par : Config.Params) (a : Int) : Prop :=
  readable a ∧ (par.fontPolicy = .fault → 0x04F < a)

/-- The error of a `MemWrite` that does not take an address (R52). -/
def writeErr (a : Int) : Err := if readable a then .fontRegionWrite a else .outOfRangeAddress a

/-- `FAULT` is set: no step follows (R247, R209). -/
abbrev State.Faulted (s : State) : Prop := s.fault ≠ none

/-- The word in memory at an address and the one after it, the first byte the more significant (R58). -/
def State.wordAt (s : State) (a : Nat) : Word := wordOfBytes (s.byteAt a) (s.byteAt (a + 1))

/-- The state the execute phase of a step starts from: timers counted, the word traced (R90). -/
def State.begun (s : State) : State := trace (s.wordAt s.pc.toNat) (timerPhase s)

/-- A step from here fetches and runs `i`: no fault, an even program counter (R27), and `i`'s word at it. -/
def State.Fetches (s : State) (i : Instr) : Prop :=
  s.fault = none ∧ s.pc.toNat % 2 = 0 ∧ s.wordAt s.pc.toNat = encode i

/-- What the execute phase of a skip instruction leaves (R110): two further where the skip is taken, and
`InvalidAddress(0x1000)` where it is taken at 0xFFE. -/
def skipLeaves (taken : Bool) (s : State) : State :=
  if taken then
    if s.pc = 0xFFE#12 then takeFault (.invalidAddress 0x1000) s else { s with pc := s.pc + 2#12 }
  else s

/-- What a whole step of a skip instruction with word `w` leaves, from the state its execute phase started with (R110, R114):
four further where the skip is taken, two where it is not, and `InvalidAddress(0x1000)` at the top of memory, with `PC` at
0xFFE after a skip taken at 0xFFC. -/
def skipStepLeaves (w : Word) (taken : Bool) (s : State) : State :=
  if s.pc = 0xFFE#12 then takeFault (.invalidAddress 0x1000) s
  else if taken then
    if s.pc = 0xFFC#12 then takeFault (.invalidAddress 0x1000) { s with pc := 0xFFE#12 }
    else { s with pc := s.pc + 4#12, prev := some w }
  else { s with pc := s.pc + 2#12, prev := some w }

/-- Push each address of a list in turn (R32). -/
def pushAll : List Addr → State → Res Unit
  | [], s => .ok () s
  | a :: as, s => (push (a.toNat : Int) s).bind fun _ s => pushAll as s

/-- Pop a number of addresses, the first popped first (R33). -/
def popAll : Nat → State → Res (List Addr)
  | 0, s => .ok [] s
  | k + 1, s => (pop s).bind fun a s => (popAll k s).bind fun as s => .ok (a :: as) s

/-- A timer one step on: one less, stopping at 0 (R91, R215). -/
def countDown (b : Byte) : Byte := if b = 0#8 then 0#8 else b - 1#8

/-- An error without the previous instruction that `UnsupportedInstruction` carries (R205, R38). -/
def Err.withoutPrev : Err → Err
  | .unsupportedInstruction w _ => .unsupportedInstruction w none
  | .outOfRangeAddress a => .outOfRangeAddress a
  | .invalidAddress a => .invalidAddress a
  | .invalidRegister r => .invalidRegister r
  | .stackOverflow => .stackOverflow
  | .stackUnderflow => .stackUnderflow
  | .timerValueRejected v => .timerValueRejected v
  | .fontRegionWrite a => .fontRegionWrite a

/-- A recorded call goes to the listener with this number (R218). -/
def Event.calls (id : Nat) : Event → Bool
  | .onTick k | .onError k _ => k == id
  | .beep | .trace _ => false

/-- How many beeps were called for so far (R222). -/
def State.beeps (s : State) : Nat := s.events.countP fun e => e == .beep

/-- One pixel update of the pseudocode of R160 on a plane and the flag so far: compare, then write `old XOR bit`. -/
def blit (par : Config.Params) (cx cy : Byte) (row : Nat → Byte) (acc : List Bool × Bool) (rb : Nat × Nat) :
    List Bool × Bool :=
  let off := pixelOffset par cx cy rb.1 rb.2
  (acc.1.set off (acc.1.getD off false ^^ spriteBit (row rb.1) rb.2),
   acc.2 || (spriteBit (row rb.1) rb.2 == acc.1.getD off false))

/-- The (row, bit) pairs of a sprite of `n` rows in the order of R161: row by row, the leftmost pixel first. -/
def spritePairs (n : Nat) : List (Nat × Nat) :=
  (List.range n).flatMap fun r => (List.range 8).map fun b => (r, b)

/-- Idle at `p` (R247): no fault, and the word at `PC = p`, with `p ≥ 0x002`, is a jump to itself. -/
def State.IdleAt (s : State) (p : Addr) : Prop :=
  s.fault = none ∧ s.pc = p ∧ 0x002 ≤ p.toNat ∧ s.wordAt p.toNat = 0x1#4 ++ p

/-- The instruction may write general register `r` (R23, R24). -/
def mayWriteV (i : Instr) (r : Reg) : Prop :=
  match i with
  | .ldImm x _ | .addImm x _ | .ldReg x _ | .andReg x _ | .rnd x _ | .ldVxDt x => r = x
  | .addReg x _ | .subReg x _ => r = x ∨ r = 0xF#4
  | .shr _ y | .shl _ y => r = y ∨ r = 0xF#4
  | .drw _ _ _ => r = 0xF#4
  | .load x => r.toNat ≤ x.toNat
  | .ret | .jp _ | .call _ | .seImm _ _ | .sneImm _ _ | .seReg _ _ | .ldI _ | .sknp _ | .ldDtVx _ | .ldStVx _ | .addI _
  | .ldF _ | .ldB _ | .store _ => False

/-- The instruction may write `I` (R25). -/
def mayWriteI (i : Instr) : Prop :=
  match i with
  | .ldI _ | .addI _ | .ldF _ => True
  | .ret | .jp _ | .call _ | .seImm _ _ | .sneImm _ _ | .seReg _ _ | .ldImm _ _ | .addImm _ _ | .ldReg _ _ | .andReg _ _
  | .addReg _ _ | .subReg _ _ | .shr _ _ | .shl _ _ | .rnd _ _ | .drw _ _ _ | .sknp _ | .ldVxDt _ | .ldDtVx _ | .ldStVx _
  | .ldB _ | .store _ | .load _ => False

/-- The instruction may move the program counter in its execute phase (R27): a transfer of control or a skip. -/
def mayMovePc (i : Instr) : Prop :=
  match i with
  | .ret | .jp _ | .call _ | .seImm _ _ | .sneImm _ _ | .seReg _ _ | .sknp _ => True
  | .ldImm _ _ | .addImm _ _ | .ldReg _ _ | .andReg _ _ | .addReg _ _ | .subReg _ _ | .shr _ _ | .shl _ _ | .ldI _
  | .rnd _ _ | .drw _ _ _ | .ldVxDt _ | .ldDtVx _ | .ldStVx _ | .addI _ | .ldF _ | .ldB _ | .store _ | .load _ => False

/-- The instruction may use a free value (R152, R164, R171; log entries 8 to 10). -/
def mayDraw (i : Instr) : Prop :=
  match i with
  | .rnd _ _ | .sknp _ | .drw _ _ _ => True
  | .ret | .jp _ | .call _ | .seImm _ _ | .sneImm _ _ | .seReg _ _ | .ldImm _ _ | .addImm _ _ | .ldReg _ _ | .andReg _ _
  | .addReg _ _ | .subReg _ _ | .shr _ _ | .shl _ _ | .ldI _ | .ldVxDt _ | .ldDtVx _ | .ldStVx _ | .addI _ | .ldF _
  | .ldB _ | .store _ | .load _ => False

/-- The instruction may write memory (R56). -/
def mayWriteMem (i : Instr) : Prop :=
  match i with
  | .ldB _ | .store _ => True
  | .ret | .jp _ | .call _ | .seImm _ _ | .sneImm _ _ | .seReg _ _ | .ldImm _ _ | .addImm _ _ | .ldReg _ _ | .andReg _ _
  | .addReg _ _ | .subReg _ _ | .shr _ _ | .shl _ _ | .ldI _ | .rnd _ _ | .drw _ _ _ | .sknp _ | .ldVxDt _ | .ldDtVx _
  | .ldStVx _ | .addI _ | .ldF _ | .load _ => False

/-- The errors an instruction's execute phase can raise in a state (R201, with the operands of the instruction rules). -/
def mayRaise (i : Instr) (s : State) (e : Err) : Prop :=
  match i with
  | .ret => e = .stackUnderflow
  | .jp nnn => e = .invalidAddress (branchTarget nnn) ∧ (nnn.toNat % 2 = 1 ∨ nnn = 0)
  | .call nnn => e = .stackOverflow ∨ e = .invalidAddress (branchTarget nnn) ∧ (nnn.toNat % 2 = 1 ∨ nnn = 0)
  | .seImm _ _ | .sneImm _ _ | .seReg _ _ => e = .invalidAddress 0x1000 ∧ s.pc = 0xFFE#12
  | .drw _ _ n => ∃ r : Nat, r < n.toNat ∧ e = .outOfRangeAddress (indexBase s + r)
  | .sknp x => e = .invalidRegister (s.getV x).toNat ∧ 15 < (s.getV x).toNat
      ∨ e = .invalidAddress 0x1000 ∧ s.pc = 0xFFE#12
  | .ldDtVx _ | .ldStVx _ => e = .timerValueRejected 255#8
  | .ldB _ => ∃ k : Nat, k ≤ 3 ∧ (e = .outOfRangeAddress (indexBase s + k) ∨ e = .fontRegionWrite (indexBase s + k))
  | .store x => ∃ k : Nat, k ≤ x.toNat ∧
      (e = .outOfRangeAddress (indexBase s + k) ∨ e = .fontRegionWrite (indexBase s + k))
  | .load x => ∃ k : Nat, k ≤ x.toNat ∧ e = .outOfRangeAddress (indexBase s + k)
  | .ldImm _ _ | .addImm _ _ | .ldReg _ _ | .andReg _ _ | .addReg _ _ | .subReg _ _ | .shr _ _ | .shl _ _ | .ldI _
  | .rnd _ _ | .ldVxDt _ | .addI _ | .ldF _ => False

end Sys2Proof.Machine
end

