-- ==== Sys2Proof/Certificates/Slice0/Obligations.lean ====
section
/-!
DEFINITION. The statements for the provers, each from a numbered rule of spec/.
A result statement has as its conclusion the next state of `exec`, with all of the state it leaves alone (`t = { s with … }`),
so it is also the instruction's frame and its completion.
-/

open Sys2Proof Sys2Proof.Machine

/-! ## Encoding (R80 to R89) -/

/-- R86: words written out bit by bit from the rows' patterns, one of each of the fourteen families (R14) that have a row. -/
def Obligations.SampleWordsDecodeAsTheirRows : Prop :=
  decode 0b0000000011101110#16 = some .ret ∧
  decode 0b0001111111111111#16 = some (.jp 0xFFF) ∧
  decode 0b0010001100000000#16 = some (.call 0x300) ∧
  decode 0b0011001101000010#16 = some (.seImm 0x3 0x42) ∧
  decode 0b0100000000000001#16 = some (.sneImm 0x0 0x01) ∧
  decode 0b0101111111110000#16 = some (.seReg 0xF 0xF) ∧
  decode 0b0110000000000101#16 = some (.ldImm 0x0 0x05) ∧
  decode 0b0111000011111010#16 = some (.addImm 0x0 0xFA) ∧
  decode 0b1000111111111110#16 = some (.shl 0xF 0xF) ∧
  decode 0b1010000100100011#16 = some (.ldI 0x123) ∧
  decode 0b1100001100001111#16 = some (.rnd 0x3 0x0F) ∧
  decode 0b1101111111110000#16 = some (.drw 0xF 0xF 0x0) ∧
  decode 0b1110111110100001#16 = some (.sknp 0xF) ∧
  decode 0b1111111101100101#16 = some (.load 0xF)

/-- R84 to R86: the decoder reads back every instruction from the word the encoding gives it, every operand at every value. -/
def Obligations.DecodeOfEncodeIsTheInstruction : Prop :=
  ∀ i : Instr, decode (encode i) = some i

/-- R85: the match is strict in every fixed digit, which is the spec's own choice D2 (log entry 26), so a word that decodes is
the very word of its instruction. -/
def Obligations.EncodeOfDecodeIsTheWord : Prop :=
  ∀ (w : Word) (i : Instr), decode w = some i → encode i = w

/-- R86: "No two rows match the same word". -/
def Obligations.NoWordMatchesTwoRows : Prop :=
  ∀ (w : Word) (r r' : OpRow), r ∈ opcodeRows → r' ∈ opcodeRows → r.covers w = true → r'.covers w = true → r = r'

/-- R87: the unsupported words are those no row matches, which are the words listed family by family; and a step that decodes
one raises `UnsupportedInstruction` (R205; what PREV holds is D23, log entry 28). That families 0 and 5 match every fixed digit is
the spec's own choice D2 (R85, C8; log entry 26). -/
def Obligations.UnsupportedWordsAreThoseOffTheMap : Prop :=
  ∀ w : Word,
    (decode w = none ↔ ∀ r ∈ opcodeRows, r.covers w = false) ∧
    (decode w = none ↔
      nibble0 w = 0x0#4 ∧ w ≠ 0x00EE#16 ∨
      nibble0 w = 0x5#4 ∧ nibble3 w ≠ 0x0#4 ∨
      nibble0 w = 0x8#4 ∧ nibble3 w ∈ [0x1#4, 0x3#4, 0x7#4, 0x8#4, 0x9#4, 0xA#4, 0xB#4, 0xC#4, 0xD#4, 0xF#4] ∨
      nibble0 w = 0x9#4 ∨
      nibble0 w = 0xB#4 ∨
      nibble0 w = 0xE#4 ∧ byte1 w ≠ 0xA1#8 ∨
      nibble0 w = 0xF#4 ∧ byte1 w ∉ [0x07#8, 0x15#8, 0x18#8, 0x1E#8, 0x29#8, 0x33#8, 0x55#8, 0x65#8]) ∧
    ∀ s : State, s.fault = none → s.pc.toNat % 2 = 0 → s.wordAt s.pc.toNat = w → decode w = none →
      ∃ t, step s = .next t ∧ t.fault = some (.unsupportedInstruction w s.prev)

/-- R95: an unsupported word changes nothing after phase 1, and phase 1's decrements and beep are not undone. -/
def Obligations.UnsupportedWordChangesNothingAfterTheTimers : Prop :=
  ∀ s : State, s.fault = none → s.pc.toNat % 2 = 0 → decode (s.wordAt s.pc.toNat) = none →
    ∃ t, step s = .next t ∧
      t = { s with
        dt := countDown s.dt
        st := countDown s.st
        events := if s.st = 0#8 then s.events else .beep :: s.events
        fault := some (.unsupportedInstruction (s.wordAt s.pc.toNat) s.prev) }

/-! ## The step (R90 to R95, R207 to R212) -/

/-- R90 to R94: a step that fetches the word of a decodable instruction runs its execute phase from the state after the timers and
the trace; a raise ends it there (a next state, log entry 1); otherwise PC advances by 2 and PREV gets the word. R58: the word's
more significant byte is the one at the lower address. R91, R222, R224: before the execute phase the timers have counted down, a
running sound timer has beeped, and the sink, where there is one, has been given the word, in that order.
Where the trace and the write of PREV stand is the spec's own choice D23 and D24 (log entries 28, 30); that calls are events,
the newest first, is the model's (log entry 14). -/
def Obligations.StepRunsTheDecodedInstruction : Prop :=
  ∀ s : State,
    (∀ a, (s.wordAt a).toNat = 256 * (s.byteAt a).toNat + (s.byteAt (a + 1)).toNat) ∧
    s.begun = { s with
      dt := countDown s.dt
      st := countDown s.st
      events := (if s.par.traceSink then [.trace (s.wordAt s.pc.toNat)] else []) ++
        (if s.st = 0#8 then [] else [.beep]) ++ s.events } ∧
    ∀ i : Instr, s.fault = none → s.pc.toNat % 2 = 0 → decode (s.wordAt s.pc.toNat) = some i →
      ∃ u, exec i s.begun = .next u ∧
        (∀ e, u.fault = some e → step s = .next u) ∧
        (u.fault = none → u.pc.toNat % 2 = 0 →
          step s = .next
            (if u.pc = 0xFFE#12 then { u with fault := some (.invalidAddress 0x1000) }
             else { u with pc := u.pc + 2#12, prev := some (s.wordAt s.pc.toNat) }))

/-- R209: taking an error sets the FAULT record and nothing else; a state whose FAULT record is set takes no step, and every other
state takes one (no step is refused). That a raise is a next state and `halted` a fault is the model's choice (log entry 1). -/
def Obligations.StepIsEnabledExactlyWithoutFault : Prop :=
  ∀ s : State, (∀ e, takeFault e s = { s with fault := some e }) ∧
    (∀ e, s.fault = some e → step s = .fault (.halted e)) ∧ (s.fault = none → ∃ t, step s = .next t)

/-- R91: both timers count down once in every step, whatever it runs and also where it faults, unless the step's own
instruction writes the timer; and a step beeps once exactly where the sound timer was running. -/
def Obligations.TimersCountDownOncePerStep : Prop :=
  ∀ s t : State, s.pc.toNat % 2 = 0 → step s = .next t →
    ((∀ x, decode (s.wordAt s.pc.toNat) ≠ some (.ldDtVx x)) → t.dt = countDown s.dt) ∧
    ((∀ x, decode (s.wordAt s.pc.toNat) ≠ some (.ldStVx x)) → t.st = countDown s.st) ∧
    t.beeps = s.beeps + (if s.st = 0#8 then 0 else 1)

/-- R210 as R110 and R111 qualify it (log entry 16): after a step that raised, PC is that of the instruction, or else the execute
phase ended without a fault at 0xFFE and the final advance raised `InvalidAddress(0x1000)` there. -/
def Obligations.FaultLeavesPcAtTheInstructionOrTheTop : Prop :=
  ∀ (s t : State) (e : Err), step s = .next t → t.fault = some e →
    t.pc = s.pc ∨
    ∃ i u, decode (s.wordAt s.pc.toNat) = some i ∧ exec i s.begun = .next u ∧ u.fault = none ∧ u.pc = 0xFFE#12 ∧
      e = .invalidAddress 0x1000 ∧ t = takeFault e u

/-- R201, a table the spec marks as derived from its instruction rules: the errors an instruction can raise are those listed for
it, or `InvalidAddress(0x1000)` in the final advance; an unsupported word raises `UnsupportedInstruction(w, PREV)`; no other
error is reachable. -/
def Obligations.OnlyTheListedErrorsAreRaised : Prop :=
  ∀ (s t : State) (e : Err), s.Inv → step s = .next t → t.fault = some e →
    match decode (s.wordAt s.pc.toNat) with
    | none => e = .unsupportedInstruction (s.wordAt s.pc.toNat) s.prev
    | some i =>
      exec i s.begun = .next t ∧ mayRaise i s.begun e ∨
      ∃ u, exec i s.begun = .next u ∧ u.fault = none ∧ u.pc = 0xFFE#12 ∧ e = .invalidAddress 0x1000

/-- R23, R24, which the spec marks as derived: an instruction writes no general register but those listed for it. That it writes
no more than its row names is the spec's own choice D4 (log entry 13). -/
def Obligations.RegistersChangeOnlyByTheirWriters : Prop :=
  ∀ (i : Instr) (s t : State), exec i s = .next t → ∀ r, ¬mayWriteV i r → t.getV r = s.getV r

/-- R25, R27, R31, R35, R38, R56, R201, R245: outside the instructions that write it, each of the other parts of the state stays
as it is in the execute phase: `I`, PC, memory, the stack, each timer, the display, the two streams, the counter of free
values, and, for an instruction that can raise none of the errors listed for it, FAULT. `PREV`, the calls recorded, the
parameters and the Scheduler always stay. That an instruction writes no more than its row names is the spec's own choice D4
(log entry 13); the streams and the counter are the model's fields (log entries 8 to 10). -/
def Obligations.OtherStateChangesOnlyByItsWriters : Prop :=
  ∀ (i : Instr) (s t : State), exec i s = .next t →
    (¬mayWriteI i → t.i = s.i) ∧
    (¬mayMovePc i → t.pc = s.pc) ∧
    (¬mayWriteMem i → t.mem = s.mem) ∧
    ((∀ nnn, i ≠ .call nnn) → t.stack = s.stack ∧ (i ≠ .ret → t.sp = s.sp)) ∧
    ((∀ x, i ≠ .ldDtVx x) → t.dt = s.dt) ∧
    ((∀ x, i ≠ .ldStVx x) → t.st = s.st) ∧
    ((∀ x y n, i ≠ .drw x y n) → t.disp = s.disp) ∧
    ((∀ x kk, i ≠ .rnd x kk) → t.randStream = s.randStream) ∧
    ((∀ x, i ≠ .sknp x) → t.keyStream = s.keyStream) ∧
    (¬mayDraw i → t.draws = s.draws) ∧
    (s.pc.toNat % 2 = 0 → (∀ e, ¬mayRaise i s e) → t.fault = s.fault) ∧
    t.prev = s.prev ∧ t.events = s.events ∧ t.par = s.par ∧ t.sched = s.sched

/-- R38, which the spec marks as its own choice D23 (log entry 28): PREV cannot change what a step does. From states that differ
only in it, a step that completes ends in the same state; one that raises leaves the same state but for PREV, and the same
error, with the same payload, but for the PREV that `UnsupportedInstruction` carries. -/
def Obligations.PrevNeverInfluencesAStep : Prop :=
  ∀ (s t : State) (p : Option Word), step s = .next t →
    ∃ t', step { s with prev := p } = .next t' ∧
      (t.fault = none → t' = t) ∧
      t' = { t with prev := t'.prev, fault := t'.fault } ∧
      t'.fault.map Err.withoutPrev = t.fault.map Err.withoutPrev

/-! ## Invariants -/

/-- The invariant (canonical memory, even PC and stack entries, the plane's size, admissible parameters, no rejected timer
value) is kept by every step. That a timer does not hold 255 by default is the spec's own choice D12 (log entry 6), that the
parameters are admissible the model's (log entry 31). -/
def Obligations.StepKeepsTheInvariant : Prop :=
  ∀ s t : State, s.Inv → step s = .next t → t.Inv

/-- The invariant holds right after reset; the display and the parameters there are the model's choice (log entries 3 to 7). -/
def Obligations.ResetMeetsTheInvariant : Prop := State.reset.Inv

/-- R52, R53: under `FONT_WRITE_POLICY = fault`, the spec's own choice D11 (log entry 6), no step changes a byte of the font. -/
def Obligations.StepKeepsTheFont : Prop :=
  ∀ s t : State, s.par.fontPolicy = .fault → step s = .next t → ∀ a, a < 0x50 → t.byteAt a = s.byteAt a

/-! ## Reset (R42, R240 to R243, R53) -/

/-- R42: the values reset leaves, memory among them (the font there is log entry 5's, the reading of an unlisted byte log entry
29's). -/
def Obligations.ResetLeavesTheListedValues : Prop :=
  (∀ r, State.reset.getV r = 0#8) ∧ State.reset.i = 0#16 ∧ State.reset.pc = 0x200#12 ∧ State.reset.sp = 0 ∧
  (∀ j : Fin 16, State.reset.stack[j] = 0#12) ∧ State.reset.dt = 0#8 ∧ State.reset.st = 0#8 ∧
  State.reset.fault = none ∧
  ∀ a, State.reset.byteAt a = if a < 80 then State.reset.par.font.getD a 0 else 0#8

/-- R240, R53, R70: `Reset(program)` of a program that fits writes the font, the program and zero elsewhere, and sets the State
Store to the listed values. R244: it touches nothing else; that PREV and the display stay is the spec's own choice D23 and D20
(log entry 28). -/
def Obligations.ResetProgramSetsTheStateStore : Prop :=
  ∀ (p : List Byte) (s : State), p.length ≤ 3584 →
    ∃ t, resetProgram p s = .next t ∧
      t = { s with
        mem := t.mem, v := Vector.replicate 16 0#8, i := 0#16, pc := 0x200#12, stack := Vector.replicate 16 0#12, sp := 0,
        dt := 0#8, st := 0#8, fault := none } ∧
      ∀ a, t.byteAt a =
        if 0x200 ≤ a ∧ a < 0x200 + p.length then p.getD (a - 0x200) 0
        else if a < 80 then s.par.font.getD a 0 else 0#8

/-- R241: reset twice is reset once, and the program reads back. -/
def Obligations.ResetIsIdempotentAndReadsBack : Prop :=
  ∀ (p : List Byte) (s t : State), resetProgram p s = .next t →
    resetProgram p t = .next t ∧ (List.range p.length).map (fun k => t.byteAt (0x200 + k)) = p

/-- R242, R245: a launch with admissible parameters and plane, none of them refused, is `Reset(program)` on the given display and
streams with no PREV where the program fits, and is refused where it is longer than 3584 bytes, the spec's own choice D21. The
empty program is allowed, and its first step faults with `UnsupportedInstruction(0x0000, none)` where PREV is none.
That `Reset` itself is refused a longer program too, and a launch with parameters or a plane that are not admissible, is the
model's choice (log entry 31); the streams are log entries 8 and 9. -/
def Obligations.OverlongProgramIsRefusedAndEmptyProgramFaults : Prop :=
  ∀ (par : Config.Params) (plane : List Bool) (rands : List Byte) (keys : List Bool) (p : List Byte) (s : State),
    (par.wf = true → planeWf par plane = true →
      (p.length ≤ 3584 → ∃ t, launch par plane rands keys p = .next t ∧ resetProgram p t = .next t ∧
        t.par = par ∧ t.disp = plane ∧ t.randStream = rands ∧ t.keyStream = keys ∧ t.prev = none ∧ t.fault = none) ∧
      (3584 < p.length → launch par plane rands keys p = .refused (.programTooLong p.length))) ∧
    (par.wf = false ∨ planeWf par plane = false → launch par plane rands keys p = .refused .badLaunch) ∧
    (p.length ≤ 3584 → ∃ t, resetProgram p s = .next t) ∧
    (3584 < p.length → resetProgram p s = .refused (.programTooLong p.length)) ∧
    (s.prev = none → ∃ t u, resetProgram [] s = .next t ∧ step t = .next u ∧
      u.fault = some (.unsupportedInstruction 0x0000#16 none) ∧ u.pc = 0x200#12)

/-! ## Control flow (R110 to R117) -/

/-- R111: RET pops the calling instruction's address; the step lands two after it. That no other word of family 0 decodes is the
spec's own choice D2 (log entry 26). That the depth stays lowered and PC is 0xFFE where the final advance raises is R111's,
resting on D14 (log entry 30) and on how R210 is read beside it (log entry 16). -/
def Obligations.RetReturnsAfterTheCall : Prop :=
  decode 0x00EE#16 = some .ret ∧
  (∀ w : Word, nibble0 w = 0x0#4 → nibble1 w ≠ 0x0#4 → decode w = none) ∧
  ∀ s : State,
    (s.sp.val = 0 → exec .ret s = .next (takeFault .stackUnderflow s)) ∧
    ∀ (h : 0 < s.sp.val) (a : Addr), s.stack[s.sp.val - 1]'(by omega) = a → a.toNat % 2 = 0 →
      exec .ret s = .next { s with sp := ⟨s.sp.val - 1, by omega⟩, pc := a } ∧
      (s.Fetches .ret → step s = .next
        (if a = 0xFFE#12 then
          takeFault (.invalidAddress 0x1000) { s.begun with sp := ⟨s.sp.val - 1, by omega⟩, pc := a }
         else { s.begun with sp := ⟨s.sp.val - 1, by omega⟩, pc := a + 2#12, prev := some 0x00EE#16 }))

/-- R112: JP reaches every even target but 0, and raises `InvalidAddress(nnn - 2)` with PC unchanged for the others. -/
def Obligations.JumpReachesItsTargetOrRaises : Prop :=
  ∀ (nnn : Addr) (s : State),
    decode (0x1#4 ++ nnn) = some (.jp nnn) ∧
    (nnn.toNat % 2 = 0 → nnn ≠ 0 →
      exec (.jp nnn) s = .next { s with pc := nnn - 2#12 } ∧
      (s.Fetches (.jp nnn) → step s = .next { s.begun with pc := nnn, prev := some (0x1#4 ++ nnn) })) ∧
    (nnn.toNat % 2 = 1 ∨ nnn = 0 →
      exec (.jp nnn) s = .next (takeFault (.invalidAddress ((nnn.toNat : Int) - 2)) s) ∧
      (s.Fetches (.jp nnn) → step s = .next (takeFault (.invalidAddress ((nnn.toNat : Int) - 2)) s.begun)))

/-- R113: CALL pushes its own address, then jumps; `StackOverflow` at depth 16 before any write. That a rejected target leaves the
push in place is the spec's own choice D14 (log entry 30). -/
def Obligations.CallPushesItsAddressAndJumps : Prop :=
  ∀ (nnn : Addr) (s : State), s.pc.toNat % 2 = 0 →
    decode (0x2#4 ++ nnn) = some (.call nnn) ∧
    (s.sp.val = 16 → exec (.call nnn) s = .next (takeFault .stackOverflow s)) ∧
    ∀ h : s.sp.val < 16,
      (nnn.toNat % 2 = 0 → nnn ≠ 0 →
        exec (.call nnn) s = .next { s with
          stack := s.stack.set s.sp.val s.pc, sp := ⟨s.sp.val + 1, by omega⟩, pc := nnn - 2#12 } ∧
        (s.Fetches (.call nnn) → step s = .next { s.begun with
          stack := s.stack.set s.sp.val s.pc, sp := ⟨s.sp.val + 1, by omega⟩, pc := nnn,
          prev := some (0x2#4 ++ nnn) })) ∧
      (nnn.toNat % 2 = 1 ∨ nnn = 0 →
        exec (.call nnn) s = .next (takeFault (.invalidAddress ((nnn.toNat : Int) - 2)) { s with
          stack := s.stack.set s.sp.val s.pc, sp := ⟨s.sp.val + 1, by omega⟩ }))

/-- R114: SE Vx, kk, its execute phase and its whole step, the top of memory included. That the skip is an advance by 2
inside the execute phase, so that one taken at 0xFFC ends at 0xFFE, is R110's OUR CHOICE, D15 (log entry 30). -/
def Obligations.SkipIfEqualImmediate : Prop :=
  ∀ (x : Reg) (kk : Byte) (s : State), s.pc.toNat % 2 = 0 →
    decode (0x3#4 ++ x ++ kk) = some (.seImm x kk) ∧
    exec (.seImm x kk) s = .next (skipLeaves (decide (s.getV x = kk)) s) ∧
    (s.Fetches (.seImm x kk) →
      step s = .next (skipStepLeaves (0x3#4 ++ x ++ kk) (decide (s.getV x = kk)) s.begun))

/-- R115: SNE Vx, kk. That the skip is an advance by 2 inside the execute phase, so that one
taken at 0xFFC ends at 0xFFE, is R110's OUR CHOICE, D15 (log entry 30). -/
def Obligations.SkipIfNotEqualImmediate : Prop :=
  ∀ (x : Reg) (kk : Byte) (s : State), s.pc.toNat % 2 = 0 →
    decode (0x4#4 ++ x ++ kk) = some (.sneImm x kk) ∧
    exec (.sneImm x kk) s = .next (skipLeaves (decide (s.getV x ≠ kk)) s) ∧
    (s.Fetches (.sneImm x kk) →
      step s = .next (skipStepLeaves (0x4#4 ++ x ++ kk) (decide (s.getV x ≠ kk)) s.begun))

/-- R116: SE Vx, Vy; a word 5xyN with N ≠ 0 is unsupported (D2, log entry 26). That the skip is an advance by 2 inside
the execute phase, so that one taken at 0xFFC ends at 0xFFE, is R110's OUR CHOICE, D15 (log entry 30). -/
def Obligations.SkipIfEqualRegisters : Prop :=
  (∀ w : Word, nibble0 w = 0x5#4 → nibble3 w ≠ 0x0#4 → decode w = none) ∧
  ∀ (x y : Reg) (s : State), s.pc.toNat % 2 = 0 →
    decode (0x5#4 ++ x ++ y ++ 0x0#4) = some (.seReg x y) ∧
    exec (.seReg x y) s = .next (skipLeaves (decide (s.getV x = s.getV y)) s) ∧
    (s.Fetches (.seReg x y) →
      step s = .next (skipStepLeaves (0x5#4 ++ x ++ y ++ 0x0#4) (decide (s.getV x = s.getV y)) s.begun))

/-- R33: after k pushes `Pop` succeeds exactly k times, last in first out, and the next one raises `StackUnderflow`. -/
def Obligations.StackIsLastInFirstOut : Prop :=
  ∀ (as : List Addr) (s : State), s.sp.val = 0 → as.length ≤ 16 → (∀ a ∈ as, a.toNat % 2 = 0) →
    ∃ t u, pushAll as s = .ok () t ∧ popAll as.length t = .ok as.reverse u ∧ pop u = .raised .stackUnderflow u

/-- R111, R113, R118: a call and the return at its target come back to the instruction after the call, with the depth
restored and no register changed. -/
def Obligations.CallThenReturnComesBack : Prop :=
  ∀ (nnn : Addr) (s t u : State), s.Fetches (.call nnn) → s.pc ≠ 0xFFE#12 → s.sp.val < 16 → nnn.toNat % 2 = 0 → nnn ≠ 0 →
    step s = .next t → t.Fetches .ret → step t = .next u →
      u.fault = none ∧ u.pc = s.pc + 2#12 ∧ u.sp = s.sp ∧ u.v = s.v ∧ u.i = s.i ∧ u.mem = s.mem

/-! ## Loads and arithmetic (R131 to R138) -/

/-- R131: LD Vx, kk. -/
def Obligations.LoadImmediateWritesVx : Prop :=
  ∀ (x : Reg) (kk : Byte) (s : State),
    decode (0x6#4 ++ x ++ kk) = some (.ldImm x kk) ∧
    ∃ t, exec (.ldImm x kk) s = .next t ∧ t = { s with v := t.v } ∧
      ∀ r, t.getV r = if r = x then kk else s.getV r

/-- R132: ADD Vx, kk wraps at 256 and writes no flag. That it writes no flag is the spec's own choice D4 (log entry 13). -/
def Obligations.AddImmediateWrapsWithoutFlag : Prop :=
  ∀ (x : Reg) (kk : Byte) (s : State),
    decode (0x7#4 ++ x ++ kk) = some (.addImm x kk) ∧
    ∃ t, exec (.addImm x kk) s = .next t ∧ t = { s with v := t.v } ∧
      ∀ r, (t.getV r).toNat = if r = x then ((s.getV x).toNat + kk.toNat) % 256 else (s.getV r).toNat

/-- R133: LD Vx, Vy. That it writes no flag is the spec's own choice D4 (log entry 13). -/
def Obligations.LoadRegisterCopiesVy : Prop :=
  ∀ (x y : Reg) (s : State),
    decode (0x8#4 ++ x ++ y ++ 0x0#4) = some (.ldReg x y) ∧
    ∃ t, exec (.ldReg x y) s = .next t ∧ t = { s with v := t.v } ∧
      ∀ r, t.getV r = if r = x then s.getV y else s.getV r

/-- R134: AND Vx, Vy, bit by bit, with no flag. That it writes no flag is the spec's own choice D4 (log entry 13). -/
def Obligations.AndCombinesEachBitWithoutFlag : Prop :=
  ∀ (x y : Reg) (s : State),
    decode (0x8#4 ++ x ++ y ++ 0x2#4) = some (.andReg x y) ∧
    ∃ t, exec (.andReg x y) s = .next t ∧ t = { s with v := t.v } ∧
      (∀ k, (t.getV x).getLsbD k = ((s.getV x).getLsbD k && (s.getV y).getLsbD k)) ∧
      ∀ r, r ≠ x → t.getV r = s.getV r

/-- R135: ADD Vx, Vy; the carry write comes second, so `VF` ends with the carry also where it is the destination. The order of the
writes is the spec's own choice D3 (log entry 12). -/
def Obligations.AddWritesSumThenCarry : Prop :=
  ∀ (x y : Reg) (s : State),
    decode (0x8#4 ++ x ++ y ++ 0x4#4) = some (.addReg x y) ∧
    ∃ t, exec (.addReg x y) s = .next t ∧ t = { s with v := t.v } ∧
      ∀ r, (t.getV r).toNat =
        if r = 0xF#4 then (if 255 < (s.getV x).toNat + (s.getV y).toNat then 1 else 0)
        else if r = x then ((s.getV x).toNat + (s.getV y).toNat) % 256
        else (s.getV r).toNat

/-- R136: SUB Vx, Vy; the flag is `Vx > Vy`, strictly, and the difference is written second. What `VF` and `Vx` end with where `x`
or `y` is F rests on the spec's own choice D3 (log entry 12). -/
def Obligations.SubWritesFlagThenDifference : Prop :=
  ∀ (x y : Reg) (s : State),
    decode (0x8#4 ++ x ++ y ++ 0x5#4) = some (.subReg x y) ∧
    ∃ t, exec (.subReg x y) s = .next t ∧ t = { s with v := t.v } ∧
      ∀ r, ((t.getV r).toNat : Int) =
        if r = x then ((s.getV x).toNat - (s.getV y).toNat : Int) % 256
        else if r = 0xF#4 then (if (s.getV y).toNat < (s.getV x).toNat then 1 else 0)
        else (s.getV r).toNat

/-- R137: SHR Vx, Vy shifts `Vy` and leaves `Vx` alone. What `VF` ends with where `y` is F rests on the spec's own choice D3 (log
entry 12). -/
def Obligations.ShiftRightShiftsVy : Prop :=
  ∀ (x y : Reg) (s : State),
    decode (0x8#4 ++ x ++ y ++ 0x6#4) = some (.shr x y) ∧
    ∃ t, exec (.shr x y) s = .next t ∧ t = { s with v := t.v } ∧
      ∀ r, (t.getV r).toNat =
        if r = y then (s.getV y).toNat / 2
        else if r = 0xF#4 then (s.getV y).toNat % 2
        else (s.getV r).toNat

/-- R138: SHL Vx, Vy shifts `Vy` and leaves `Vx` alone. What `VF` ends with where `y` is F rests on the spec's own choice D3 (log
entry 12). -/
def Obligations.ShiftLeftShiftsVy : Prop :=
  ∀ (x y : Reg) (s : State),
    decode (0x8#4 ++ x ++ y ++ 0xE#4) = some (.shl x y) ∧
    ∃ t, exec (.shl x y) s = .next t ∧ t = { s with v := t.v } ∧
      ∀ r, (t.getV r).toNat =
        if r = y then 2 * (s.getV y).toNat % 256
        else if r = 0xF#4 then (s.getV y).toNat / 128
        else (s.getV r).toNat

/-! ## Index and random (R150, R151) -/

/-- R150: LD I, nnn. -/
def Obligations.LoadIndexWritesTheAddress : Prop :=
  ∀ (nnn : Addr) (s : State),
    decode (0xA#4 ++ nnn) = some (.ldI nnn) ∧
    ∃ t, exec (.ldI nnn) s = .next t ∧ t = { s with i := t.i } ∧ t.i.toNat = nnn.toNat

/-- R151: RND Vx, kk makes exactly one draw `r` and writes `r AND kk`; whatever the draw, no bit outside `kk` is set. Where the
byte comes from, the head of the launch's stream or else a free value counted by `draws`, is the model's choice (R152, D16; log
entry 8). -/
def Obligations.RandomByteIsDrawnOnceAndMasked : Prop :=
  ∀ (x : Reg) (kk : Byte) (s : State),
    decode (0xC#4 ++ x ++ kk) = some (.rnd x kk) ∧
    ∃ (r : Byte) (t : State), exec (.rnd x kk) s = .next t ∧
      (∀ b bs, s.randStream = b :: bs → r = b ∧ t = { s with v := t.v, randStream := bs }) ∧
      (s.randStream = [] → t = { s with v := t.v, draws := s.draws + 1 }) ∧
      t.getV x = r &&& kk ∧ t.getV x &&& ~~~kk = 0#8 ∧
      ∀ q, q ≠ x → t.getV q = s.getV q

/-! ## Sprite draw (R160 to R165) -/

/-- R160: the draw is the pseudocode's loop over rows and bits in order, on the plane and the flag, with the offset
`W * ((Vy + r) mod H) + ((Vx + b) mod W)` and the bits most significant first; a row outside memory raises `OutOfRangeAddress`
with `VF` unwritten. The coordinates from `Vx` and `Vy`, the 0 in `VF` where nothing fires and the order of the pixels are the
spec's own choices D6, D7 and D8 (log entries 21, 22, 23). -/
def Obligations.DrawFollowsThePixelLoop : Prop :=
  ∀ (x y : Reg) (n : Nibble) (s : State), 0 < s.par.displayW → 0 < s.par.displayH →
    decode (0xD#4 ++ x ++ y ++ n) = some (.drw x y n) ∧
    (∀ r b, pixelOffset s.par (s.getV x) (s.getV y) r b =
      s.par.displayW * (((s.getV y).toNat + r) % s.par.displayH) + ((s.getV x).toNat + b) % s.par.displayW) ∧
    (∀ (row : Byte) (b : Nat), b < 8 → (spriteBit row b = true ↔ row.toNat / 2 ^ (7 - b) % 2 = 1)) ∧
    (n = 0 ∨ s.i.toNat + n.toNat ≤ 0x1000 →
      ∃ t, exec (.drw x y n) s = .next t ∧ t = { s with v := t.v, disp := t.disp } ∧
        (t.disp, decide (t.getV 0xF#4 = 1#8)) =
          (spritePairs n.toNat).foldl
            (blit s.par (s.getV x) (s.getV y) fun r => s.byteAt (s.i.toNat + r)) (s.disp, false) ∧
        (t.getV 0xF#4 = 0#8 ∨ t.getV 0xF#4 = 1#8) ∧
        ∀ r, r ≠ 0xF#4 → t.getV r = s.getV r) ∧
    (n ≠ 0 → 0x1000 < s.i.toNat + n.toNat →
      ∃ t, exec (.drw x y n) s = .next t ∧ t = { s with disp := t.disp, draws := t.draws, fault := t.fault } ∧
        t.fault = some (.outOfRangeAddress (max (s.i.toNat : Int) 0x1000)))

/-- R164: a row address past 0xFFF ends the step in a fault with `VF` unwritten and PC unchanged, on a plane of the display's size
whose pixels are free values (D14; log entry 10). `n = 0` reads no memory and cannot fault; the 0 it writes to `VF` is R163's and
R165's, the spec's own choice D7 (log entry 22). -/
def Obligations.FaultedDrawLeavesAFreePlane : Prop :=
  ∀ (x y : Reg) (n : Nibble) (s : State), 0 < s.par.displayW → 0 < s.par.displayH →
    exec (.drw x y 0x0#4) s = .next (s.setV 0xF#4 0#8) ∧
    (n ≠ 0 → 0x1000 < s.i.toNat + n.toNat →
      (∃ t, exec (.drw x y n) s = .next t ∧
        t = takeFault (.outOfRangeAddress (max (s.i.toNat : Int) 0x1000)) { s with disp := t.disp, draws := s.draws + 1 } ∧
        t.disp.length = s.par.displayW * s.par.displayH) ∧
      (s.Fetches (.drw x y n) → ∃ t, step s = .next t ∧
        t = takeFault (.outOfRangeAddress (max (s.i.toNat : Int) 0x1000))
          { s.begun with disp := t.disp, draws := s.draws + 1 } ∧
        t.disp.length = s.par.displayW * s.par.displayH))

/-- R160 to R163 on a display at least 8 wide and n high, where no pixel is touched twice: the draw is a snapshot, every pixel
of the sprite is `old XOR bit`, every other is as before, and `VF` is 1 exactly where some bit equals the old pixel. The
coordinates and the 0 in `VF` are the spec's own choices D6 and D7 (log entries 21, 22); the order D8 (log entry 23) does not
matter on such a display. -/
def Obligations.DrawMatchesASnapshotOfThePlane : Prop :=
  ∀ (x y : Reg) (n : Nibble) (s : State), 8 ≤ s.par.displayW → 0 < s.par.displayH → n.toNat ≤ s.par.displayH →
    s.disp.length = s.par.displayW * s.par.displayH → (n = 0 ∨ s.i.toNat + n.toNat ≤ 0x1000) →
    ∃ t, exec (.drw x y n) s = .next t ∧ t = { s with v := t.v, disp := t.disp } ∧
      (t.getV 0xF#4 = 0#8 ∨ t.getV 0xF#4 = 1#8) ∧
      (t.getV 0xF#4 = 1#8 ↔ ∃ r b, r < n.toNat ∧ b < 8 ∧
        spriteBit (s.byteAt (s.i.toNat + r)) b = s.pixel (pixelOffset s.par (s.getV x) (s.getV y) r b)) ∧
      (∀ q, q ≠ 0xF#4 → t.getV q = s.getV q) ∧
      t.disp.length = s.disp.length ∧
      (∀ r b, r < n.toNat → b < 8 →
        t.pixel (pixelOffset s.par (s.getV x) (s.getV y) r b) =
          (s.pixel (pixelOffset s.par (s.getV x) (s.getV y) r b) ^^ spriteBit (s.byteAt (s.i.toNat + r)) b)) ∧
      ∀ o, (∀ r b, r < n.toNat → b < 8 → pixelOffset s.par (s.getV x) (s.getV y) r b ≠ o) → t.pixel o = s.pixel o

/-- R160, R162: on such a display a sprite drawn twice, at coordinates that are not `VF`, leaves the plane as it was. The
coordinates are the spec's own choice D6 (log entry 21). -/
def Obligations.DrawTwiceRestoresThePlane : Prop :=
  ∀ (x y : Reg) (n : Nibble) (s t u : State), x ≠ 0xF#4 → y ≠ 0xF#4 → 8 ≤ s.par.displayW → 0 < s.par.displayH →
    n.toNat ≤ s.par.displayH → s.disp.length = s.par.displayW * s.par.displayH →
    (n = 0 ∨ s.i.toNat + n.toNat ≤ 0x1000) →
    exec (.drw x y n) s = .next t → exec (.drw x y n) t = .next u → u.disp = s.disp

/-! ## Keyboard (R170) -/

/-- R170: SKNP raises `InvalidRegister` above 15, unmasked; otherwise it makes exactly one query and skips where the key is
not pressed. Where the answer comes from, the head of the launch's stream or else a free value counted by `draws`, is the
model's choice (R171, D17; log entry 9), and the skip's form is R110's OUR CHOICE, D15 (log entry 30). -/
def Obligations.SkipIfKeyNotPressed : Prop :=
  ∀ (x : Reg) (s : State), s.pc.toNat % 2 = 0 →
    decode (0xE#4 ++ x ++ 0xA1#8) = some (.sknp x) ∧
    (15 < (s.getV x).toNat → exec (.sknp x) s = .next (takeFault (.invalidRegister (s.getV x).toNat) s)) ∧
    ((s.getV x).toNat ≤ 15 →
      (∀ p ps, s.keyStream = p :: ps → exec (.sknp x) s = .next (skipLeaves (!p) { s with keyStream := ps }) ∧
        (s.Fetches (.sknp x) →
          step s = .next (skipStepLeaves (0xE#4 ++ x ++ 0xA1#8) (!p) { s.begun with keyStream := ps }))) ∧
      (s.keyStream = [] → ∃ p : Bool,
        exec (.sknp x) s = .next (skipLeaves (!p) { s with draws := s.draws + 1 }) ∧
        (s.Fetches (.sknp x) →
          step s = .next (skipStepLeaves (0xE#4 ++ x ++ 0xA1#8) (!p) { s.begun with draws := s.draws + 1 }))))

/-! ## F family (R175 to R183) -/

/-- R175: LD Vx, DT reads `DT` after this step's own decrement. -/
def Obligations.ReadDelayTimerAfterItsDecrement : Prop :=
  ∀ (x : Reg) (s : State),
    decode (0xF#4 ++ x ++ 0x07#8) = some (.ldVxDt x) ∧
    (∃ t, exec (.ldVxDt x) s = .next t ∧ t = { s with v := t.v } ∧
      ∀ r, t.getV r = if r = x then s.dt else s.getV r) ∧
    (s.Fetches (.ldVxDt x) → s.pc ≠ 0xFFE#12 →
      ∃ t, step s = .next t ∧ t.fault = none ∧ t.dt = countDown s.dt ∧ t.getV x = countDown s.dt)

/-- R176: LD DT, Vx; 255 is rejected unless `TIMER_ACCEPTS_255`, the spec's own choice D12 (log entry 6). The value is not
decremented in the step that writes it; in a step that rejects it, `DT` keeps its decremented value and PC stays. -/
def Obligations.WriteDelayTimerRejecting255 : Prop :=
  ∀ (x : Reg) (s : State),
    decode (0xF#4 ++ x ++ 0x15#8) = some (.ldDtVx x) ∧
    (s.getV x ≠ 255#8 ∨ s.par.timerAccepts255 = true →
      exec (.ldDtVx x) s = .next { s with dt := s.getV x } ∧
      (s.Fetches (.ldDtVx x) → s.pc ≠ 0xFFE#12 →
        step s = .next { s.begun with dt := s.getV x, pc := s.pc + 2#12, prev := some (0xF#4 ++ x ++ 0x15#8) })) ∧
    (s.getV x = 255#8 → s.par.timerAccepts255 = false →
      exec (.ldDtVx x) s = .next (takeFault (.timerValueRejected 255#8) s) ∧
      (s.Fetches (.ldDtVx x) → step s = .next (takeFault (.timerValueRejected 255#8) s.begun)))

/-- R177: LD ST, Vx, in the same way (D12; log entry 6). The value is not decremented in the step that writes it; in a step that
rejects it, `ST` keeps its decremented value and PC stays. -/
def Obligations.WriteSoundTimerRejecting255 : Prop :=
  ∀ (x : Reg) (s : State),
    decode (0xF#4 ++ x ++ 0x18#8) = some (.ldStVx x) ∧
    (s.getV x ≠ 255#8 ∨ s.par.timerAccepts255 = true →
      exec (.ldStVx x) s = .next { s with st := s.getV x } ∧
      (s.Fetches (.ldStVx x) → s.pc ≠ 0xFFE#12 →
        step s = .next { s.begun with st := s.getV x, pc := s.pc + 2#12, prev := some (0xF#4 ++ x ++ 0x18#8) })) ∧
    (s.getV x = 255#8 → s.par.timerAccepts255 = false →
      exec (.ldStVx x) s = .next (takeFault (.timerValueRejected 255#8) s) ∧
      (s.Fetches (.ldStVx x) → step s = .next (takeFault (.timerValueRejected 255#8) s.begun)))

/-- R249, which the spec marks as derived: a delay value is first seen one less, by a read in the step after the write. -/
def Obligations.DelayTimerHasAOneStepLatency : Prop :=
  ∀ (x y : Reg) (s t : State), s.Fetches (.ldDtVx x) → s.pc ≠ 0xFFE#12 → s.getV x ≠ 0#8 → s.getV x ≠ 255#8 →
    step s = .next t → t.Fetches (.ldVxDt y) → t.pc ≠ 0xFFE#12 →
    ∃ u, step t = .next u ∧ u.fault = none ∧ (u.getV y).toNat = (s.getV x).toNat - 1

/-- R178: ADD I, Vx modulo 2^16, unchecked and with no flag. The wrap is the spec's own choice D5 (log entry 20), and that no flag
is written its choice D4 (log entry 13). -/
def Obligations.AddIndexWrapsAt16Bits : Prop :=
  ∀ (x : Reg) (s : State),
    decode (0xF#4 ++ x ++ 0x1E#8) = some (.addI x) ∧
    ∃ t, exec (.addI x) s = .next t ∧ t = { s with i := t.i } ∧
      t.i.toNat = (s.i.toNat + (s.getV x).toNat) % 65536

/-- R179: LD F, Vx is five times the value, neither masked nor checked. -/
def Obligations.FontAddressIsFiveTimesTheDigit : Prop :=
  ∀ (x : Reg) (s : State),
    decode (0xF#4 ++ x ++ 0x29#8) = some (.ldF x) ∧
    ∃ t, exec (.ldF x) s = .next t ∧ t = { s with i := t.i } ∧ t.i.toNat = 5 * (s.getV x).toNat

/-- R180: LD B, Vx. Where its three writes are taken: the digits at the addresses of `BCD_LAYOUT`, `I` and every other byte as
before. Otherwise it raises at the first address that is not taken, in the layout's order, with that address's own error, and the
digits before it stay written: the spec's own choice D14 (log entry 30). `FontRegionWrite` is its choice D11 (log entry 6), and
that `I` stays D4 (log entry 13). -/
def Obligations.BcdStoresItsDigitsOrRaises : Prop :=
  ∀ (x : Reg) (s : State), s.mem.wf s.par.font →
    decode (0xF#4 ++ x ++ 0x33#8) = some (.ldB x) ∧
    (bcdCells s.par.bcdLayout (s.getV x)).map (fun c => (c.1, c.2.toNat)) =
      (match s.par.bcdLayout with
        | .table => [0, 1, 2]
        | .shifted => [1, 2, 3]
        | .collapsed => [1, 1, 1]).zip
      [(s.getV x).toNat / 100, (s.getV x).toNat / 10 % 10, (s.getV x).toNat % 10] ∧
    ((∀ c ∈ bcdCells s.par.bcdLayout (s.getV x), writable s.par (indexBase s + c.1)) →
      ∃ t, exec (.ldB x) s = .next t ∧ t = { s with mem := t.mem } ∧
        ∀ a, (t.byteAt a).toNat =
          match s.par.bcdLayout with
          | .table =>
            if a = s.i.toNat then (s.getV x).toNat / 100
            else if a = s.i.toNat + 1 then (s.getV x).toNat / 10 % 10
            else if a = s.i.toNat + 2 then (s.getV x).toNat % 10 else (s.byteAt a).toNat
          | .shifted =>
            if a = s.i.toNat + 1 then (s.getV x).toNat / 100
            else if a = s.i.toNat + 2 then (s.getV x).toNat / 10 % 10
            else if a = s.i.toNat + 3 then (s.getV x).toNat % 10 else (s.byteAt a).toNat
          | .collapsed => if a = s.i.toNat + 1 then (s.getV x).toNat % 10 else (s.byteAt a).toNat) ∧
    ∀ (pre post : List (Nat × Byte)) (c : Nat × Byte),
      bcdCells s.par.bcdLayout (s.getV x) = pre ++ c :: post →
      (∀ d ∈ pre, writable s.par (indexBase s + d.1)) → ¬writable s.par (indexBase s + c.1) →
      ∃ t, exec (.ldB x) s = .next t ∧ t = { s with mem := t.mem, fault := t.fault } ∧
        t.fault = some (if s.i.toNat + c.1 ≤ 0xFFF then .fontRegionWrite (indexBase s + c.1)
          else .outOfRangeAddress (indexBase s + c.1)) ∧
        (∀ d ∈ pre, t.byteAt (s.i.toNat + d.1) = d.2) ∧
        ∀ a, (∀ d ∈ pre, s.i.toNat + d.1 ≠ a) → t.byteAt a = s.byteAt a

/-- R181: LD [I], Vx. Where its writes are taken: `V0 .. Vx` from `I` up, `I` unchanged, every other byte as before. Otherwise
it raises at the first offset `k` that is not taken; bytes `0 .. k - 1` stay written, and no others change. That they stay is
the spec's own choice D14 (log entry 30), that `I` is unchanged D4 (log entry 13), the font's policy D11 (log entry 6). -/
def Obligations.StoreRegistersWritesV0ToVxOrRaises : Prop :=
  ∀ (x : Reg) (s : State), s.mem.wf s.par.font →
    decode (0xF#4 ++ x ++ 0x55#8) = some (.store x) ∧
    (s.i.toNat + x.toNat ≤ 0xFFF → (s.par.fontPolicy = .fault → 0x50 ≤ s.i.toNat) →
      ∃ t, exec (.store x) s = .next t ∧ t = { s with mem := t.mem } ∧
        (∀ r : Reg, r.toNat ≤ x.toNat → t.byteAt (s.i.toNat + r.toNat) = s.getV r) ∧
        ∀ a, a < s.i.toNat ∨ s.i.toNat + x.toNat < a → t.byteAt a = s.byteAt a) ∧
    ∀ k, k ≤ x.toNat → (∀ j, j < k → writable s.par (indexBase s + j)) → ¬writable s.par (indexBase s + k) →
      ∃ t, exec (.store x) s = .next t ∧ t = { s with mem := t.mem, fault := t.fault } ∧
        t.fault = some (if s.i.toNat + k ≤ 0xFFF then .fontRegionWrite (indexBase s + k)
          else .outOfRangeAddress (indexBase s + k)) ∧
        (∀ r : Reg, r.toNat < k → t.byteAt (s.i.toNat + r.toNat) = s.getV r) ∧
        ∀ a, a < s.i.toNat ∨ s.i.toNat + k ≤ a → t.byteAt a = s.byteAt a

/-- R182: LD Vx, [I]: `V0 .. Vx` from `I` up where the addresses are in range; otherwise the first address out of range is
raised, and the registers before it stay loaded. That they stay is the spec's own choice D14 (log entry 30), that `I` is
unchanged D4 (log entry 13). -/
def Obligations.LoadRegistersReadsV0ToVx : Prop :=
  ∀ (x : Reg) (s : State),
    decode (0xF#4 ++ x ++ 0x65#8) = some (.load x) ∧
    (s.i.toNat + x.toNat ≤ 0xFFF →
      ∃ t, exec (.load x) s = .next t ∧ t = { s with v := t.v } ∧
        ∀ r, t.getV r = if r.toNat ≤ x.toNat then s.byteAt (s.i.toNat + r.toNat) else s.getV r) ∧
    (0xFFF < s.i.toNat + x.toNat →
      ∃ t, exec (.load x) s = .next t ∧ t = { s with v := t.v, fault := t.fault } ∧
        t.fault = some (.outOfRangeAddress (max (s.i.toNat : Int) 0x1000)) ∧
        ∀ r : Reg, t.getV r = if s.i.toNat + r.toNat ≤ 0xFFF then s.byteAt (s.i.toNat + r.toNat) else s.getV r)

/-- R183, which the spec marks as derived from R181 and R182: a store of `V0 .. Vn` and then a load with the same `I` and `n`
restore those registers, whatever the registers held in between. That the store leaves `I` is D4 (log entry 13). -/
def Obligations.StoreThenLoadRestoresTheRegisters : Prop :=
  ∀ (n : Reg) (s t : State) (v : Vector Byte 16), s.mem.wf s.par.font → s.fault = none →
    exec (.store n) s = .next t → t.fault = none →
    ∃ u, exec (.load n) { t with v := v } = .next u ∧ u.fault = none ∧
      ∀ r : Reg, r.toNat ≤ n.toNat → u.getV r = s.getV r

/-! ## The end of a run and the Scheduler (R216 to R219, R247) -/

/-- R247, the spec's own choice D22: a step from an idle state changes only the timers, the beep and PREV (and the trace, where
there is a sink); once the timers are 0 and PREV is the jump's word, the state is a fixed point. -/
def Obligations.IdleStateOnlyCountsDown : Prop :=
  ∀ (s : State) (p : Addr), s.IdleAt p → p.toNat % 2 = 0 →
    step s = .next { s.begun with prev := some (0x1#4 ++ p) } ∧
    (s.dt = 0#8 → s.st = 0#8 → s.par.traceSink = false → s.prev = some (0x1#4 ++ p) → step s = .next s)

/-- R218: the listeners of a tick run in registration order, each called once, the core's call being a batch of steps. One that
raises ends the tick: the later ones are skipped, every subscriber is told in that order, all are removed, and nothing else
changes. That a host's listener does nothing but raise where its number is in a list is the model's choice (log entry 18), and so
is that calls are recorded as events (log entry 14). -/
def Obligations.ErrorStopsTheTickForEverySubscriber : Prop :=
  ∀ (raising : List Nat) (sub : Subscriber) (later : List Subscriber) (s t : State),
    runTick raising s = runListeners raising s.sched.subs s ∧
    (sub.runsCore = true →
      onTick raising sub s =
        ((runBatch s.par.batch { s with events := .onTick sub.id :: s.events }).1,
          (runBatch s.par.batch { s with events := .onTick sub.id :: s.events }).2.map .step)) ∧
    (sub.runsCore = false →
      onTick raising sub s =
        ({ s with events := .onTick sub.id :: s.events },
          if sub.id ∈ raising then some (.listener sub.id) else none)) ∧
    (onTick raising sub s = (t, none) → runListeners raising (sub :: later) s = runListeners raising later t) ∧
    ∀ e, onTick raising sub s = (t, some e) →
      runListeners raising (sub :: later) s =
        { t with
          events := (t.sched.subs.map fun l => Event.onError l.id e).reverse ++ t.events
          sched := { t.sched with subs := [] } }

/-- R219, which the spec marks as derived: a batch is `Step` applied repeatedly: one that no error stops is that many steps, and
one that an error stops reports the FAULT record the last step left. -/
def Obligations.BatchIsStepAppliedRepeatedly : Prop :=
  ∀ (n : Nat) (s t : State), s.fault = none →
    (runBatch n s = (t, none) → t.fault = none ∧ core.run n s = .next t) ∧
    ∀ e, runBatch n s = (t, some e) → t.fault = some e ∧ ∃ k, k ≤ n ∧ core.run k s = .next t

/-- R216: a subscription is registered last and the first one starts the loop with no drift; unsubscribing removes the listener
and no other, so that it takes back a subscription, and a tick after it calls that listener for nothing. A listener is named by a
number, and unsubscribing removes every entry that has it: the model's choice (log entry 32). Calls are events (log entry 14). -/
def Obligations.UnsubscribingRemovesThatListener : Prop :=
  ∀ (sub : Subscriber) (id : Nat) (raising : List Nat) (s : State),
    subscribe sub s = { s with sched := {
      subs := s.sched.subs ++ [sub], drift := if s.sched.subs = [] then 0 else s.sched.drift } } ∧
    unsubscribe id s = { s with sched := { s.sched with subs := (unsubscribe id s).sched.subs } } ∧
    (unsubscribe id s).sched.subs.Sublist s.sched.subs ∧
    (∀ l, l ∈ (unsubscribe id s).sched.subs ↔ l ∈ s.sched.subs ∧ l.id ≠ id) ∧
    ((∀ l ∈ s.sched.subs, l.id ≠ sub.id) → (unsubscribe sub.id (subscribe sub s)).sched.subs = s.sched.subs) ∧
    (runTick raising (unsubscribe id s)).events.countP (Event.calls id) = s.events.countP (Event.calls id)

/-- R217: the loop waits `max(0, INTERVAL - drift)`; the drift after the wait is `now - expected`, and 0 where that exceeds the
interval, which is the spec's own choice D28 (log entry 30), so that the loop never catches up; a turn is the drift and then a
tick, which leaves the drift alone, and there is no turn without a subscriber. Times are numbers the host supplies (log entry
17). -/
def Obligations.TickLoopWaitsAndCorrectsItsDrift : Prop :=
  ∀ (interval : Nat) (drift start now : Int) (raising : List Nat) (s : State),
    (drift ≤ interval → tickWait interval drift = interval - drift) ∧
    (interval < drift → tickWait interval drift = 0) ∧
    (now - (start + interval) ≤ interval → nextDrift interval start now = now - (start + interval)) ∧
    (interval < now - (start + interval) → nextDrift interval start now = 0) ∧
    tickWait interval (nextDrift interval start now) = interval - nextDrift interval start now ∧
    (s.sched.subs = [] → tickLoopTurn start now raising s = s) ∧
    (s.sched.subs ≠ [] →
      tickLoopTurn start now raising s =
        runTick raising { s with sched := { s.sched with drift := nextDrift s.par.tickInterval start now } } ∧
      (tickLoopTurn start now raising s).sched.drift = nextDrift s.par.tickInterval start now)
end

