-- ==== Sys2Proof/Laws/Decode.lean ====
section
/-!
SUPPORT. The fields of a word that is a concatenation of fields, and a word as the concatenation of its fields
(spec/30_encoding.md R81, R82).
-/

namespace Sys2Proof

/-! ## Family and address -/

@[simp] theorem nibble0_append_addr (f : Nibble) (nnn : Addr) : nibble0 (f ++ nnn) = f :=
  BitVec.extractLsb'_append_eq_left
@[simp] theorem address_append_addr (f : Nibble) (nnn : Addr) : address (f ++ nnn) = nnn :=
  BitVec.extractLsb'_append_eq_right
theorem nibble0_append_address (w : Word) : nibble0 w ++ address w = w := by
  apply BitVec.eq_of_getLsbD_eq; intro i hi; simp [nibble0, address]; grind

/-! ## Family, register and byte -/

@[simp] theorem nibble0_append_byte (f x : Nibble) (kk : Byte) : nibble0 (f ++ x ++ kk) = f := by
  apply BitVec.eq_of_getLsbD_eq; intro i hi; simp [nibble0]; grind
@[simp] theorem nibble1_append_byte (f x : Nibble) (kk : Byte) : nibble1 (f ++ x ++ kk) = x := by
  apply BitVec.eq_of_getLsbD_eq; intro i hi; simp [nibble1]; grind
@[simp] theorem byte1_append_byte (f x : Nibble) (kk : Byte) : byte1 (f ++ x ++ kk) = kk := by
  apply BitVec.eq_of_getLsbD_eq; intro i hi; simp [byte1]; grind
theorem nibble0_append_nibble1_append_byte1 (w : Word) : nibble0 w ++ nibble1 w ++ byte1 w = w := by
  apply BitVec.eq_of_getLsbD_eq; intro i hi; simp [nibble0, nibble1, byte1]; grind

/-! ## Four nibbles -/

@[simp] theorem nibble0_append_nibbles (f x y n : Nibble) : nibble0 (f ++ x ++ y ++ n) = f := by
  apply BitVec.eq_of_getLsbD_eq; intro i hi; simp [nibble0]; grind
@[simp] theorem nibble1_append_nibbles (f x y n : Nibble) : nibble1 (f ++ x ++ y ++ n) = x := by
  apply BitVec.eq_of_getLsbD_eq; intro i hi; simp [nibble1]; grind
@[simp] theorem nibble2_append_nibbles (f x y n : Nibble) : nibble2 (f ++ x ++ y ++ n) = y := by
  apply BitVec.eq_of_getLsbD_eq; intro i hi; simp [nibble2]; grind
@[simp] theorem nibble3_append_nibbles (f x y n : Nibble) : nibble3 (f ++ x ++ y ++ n) = n := by
  apply BitVec.eq_of_getLsbD_eq; intro i hi; simp [nibble3]; grind
theorem nibble0_append_nibble1_append_nibble2_append_nibble3 (w : Word) :
    nibble0 w ++ nibble1 w ++ nibble2 w ++ nibble3 w = w := by
  apply BitVec.eq_of_getLsbD_eq; intro i hi; simp [nibble0, nibble1, nibble2, nibble3]; grind

/-! ## Bytes -/

theorem wordOfBytes_bytes (w : Word) : wordOfBytes (byte0 w) (byte1 w) = w := by
  apply BitVec.eq_of_getLsbD_eq; intro i hi; simp [wordOfBytes, byte0, byte1]; grind

/-! ## Masks (R86) -/

theorem and_all4 (c : Nibble) : c &&& 0xF#4 = c := by revert c; decide
theorem and_all8 (c : Byte) : c &&& 0xFF#8 = c := by revert c; decide

/-- The masks of R86 on a word given by its fields. -/
theorem mask_addr (f : Nibble) (nnn : Addr) : (f ++ nnn) &&& 0xF000#16 = f ++ 0#12 := by
  rw [show (0xF000#16) = 0xF#4 ++ 0x000#12 from rfl, BitVec.and_append, and_all4, BitVec.and_zero]
/-- See `mask_addr`. -/
theorem mask_family_byte (f x : Nibble) (kk : Byte) : (f ++ x ++ kk) &&& 0xF000#16 = f ++ 0#4 ++ 0#8 := by
  rw [show (0xF000#16) = 0xF#4 ++ 0x0#4 ++ 0x00#8 from rfl, BitVec.and_append, BitVec.and_append, and_all4,
    BitVec.and_zero, BitVec.and_zero]
/-- See `mask_addr`. -/
theorem mask_function_byte (f x : Nibble) (kk : Byte) : (f ++ x ++ kk) &&& 0xF0FF#16 = f ++ 0#4 ++ kk := by
  rw [show (0xF0FF#16) = 0xF#4 ++ 0x0#4 ++ 0xFF#8 from rfl, BitVec.and_append, BitVec.and_append, and_all4, and_all8,
    BitVec.and_zero]
/-- See `mask_addr`. -/
theorem mask_nibbles (f x y n : Nibble) : (f ++ x ++ y ++ n) &&& 0xF00F#16 = f ++ 0#4 ++ 0#4 ++ n := by
  rw [show (0xF00F#16) = 0xF#4 ++ 0x0#4 ++ 0x0#4 ++ 0xF#4 from rfl, BitVec.and_append, BitVec.and_append,
    BitVec.and_append, and_all4, and_all4, BitVec.and_zero, BitVec.and_zero]
/-- See `mask_addr`. -/
theorem mask_family_nibbles (f x y n : Nibble) : (f ++ x ++ y ++ n) &&& 0xF000#16 = f ++ 0#4 ++ 0#4 ++ 0#4 := by
  rw [show (0xF000#16) = 0xF#4 ++ 0x0#4 ++ 0x0#4 ++ 0x0#4 from rfl, BitVec.and_append, BitVec.and_append,
    BitVec.and_append, and_all4, BitVec.and_zero, BitVec.and_zero, BitVec.and_zero]

end Sys2Proof
end

