-- ==== Sys2Proof/Laws/Memory.lean ====
section
/-!
SUPPORT. The laws of memory: a read after a write, the canonical form is kept, and equal reads are equal data.
-/

namespace Sys2Proof.Machine

/-- An address memory does not list reads as the reset contents (R53, R64). -/
theorem Memory.read_unlisted {font : List Byte} {m : Memory} {a : Nat} (h : ∀ c ∈ m, c.1 ≠ a) :
    m.read font a = Memory.unlisted font a := by
  induction m with
  | nil => rfl
  | cons c m ih =>
    have hc : c.1 ≠ a := h c (by simp)
    simp only [Memory.read, if_neg hc]
    exact ih fun d hd => h d (by simp [hd])

/-- A listed cell of a canonical memory is what its address reads as. -/
theorem Memory.read_listed {font : List Byte} {m : Memory} (h : m.Pairwise fun c d => c.1 < d.1) {c : Host.Cell}
    (hc : c ∈ m) : m.read font c.1 = c.2 := by
  induction m with
  | nil => simp at hc
  | cons d m ih =>
    rw [List.pairwise_cons] at h
    rcases List.mem_cons.mp hc with rfl | hm
    · simp [Memory.read]
    · have hne : d.1 ≠ c.1 := (h.1 c hm).ne
      simp only [Memory.read, if_neg hne]
      exact ih h.2 hm

/-- A write leaves every other address alone. -/
theorem Memory.read_write_other (font : List Byte) (m : Memory) {a a' : Nat} (b : Byte) (h : a ≠ a') :
    (m.write font a b).read font a' = m.read font a' := by
  induction m with
  | nil => simp only [Memory.write, Memory.cell]; split <;> simp [Memory.read, h]
  | cons c m ih =>
    simp only [Memory.write]
    split
    · simp only [Memory.cell]; split <;> simp [Memory.read, h]
    · split
      next h1 h2 => subst h2; simp only [Memory.cell]; split <;> simp [Memory.read, h]
      next => simp only [Memory.read, ih]

/-- A read after a write to the same address gives the byte written. -/
theorem Memory.read_write_same {font : List Byte} {m : Memory} (hm : m.Pairwise fun c d => c.1 < d.1) (a : Nat)
    (b : Byte) : (m.write font a b).read font a = b := by
  induction m with
  | nil => simp only [Memory.write, Memory.cell]; split <;> simp_all [Memory.read]
  | cons c m ih =>
    rw [List.pairwise_cons] at hm
    simp only [Memory.write]
    split
    next hlt =>
      simp only [Memory.cell]
      split
      next hb =>
        rw [Memory.read_unlisted, hb]
        intro d hd
        rcases List.mem_cons.mp hd with rfl | hd
        · exact hlt.ne'
        · exact (hlt.trans (hm.1 d hd)).ne'
      next => simp [Memory.read]
    next hge =>
      split
      next he =>
        subst he
        simp only [Memory.cell]
        split
        next hb => rw [Memory.read_unlisted, hb]; exact fun d hd => (hm.1 d hd).ne'
        next => simp [Memory.read]
      next hne => simpa only [Memory.read, if_neg (Ne.symm hne)] using ih hm.2

/-- What a read gives after a write to a canonical memory. -/
theorem Memory.read_write {font : List Byte} {m : Memory} (hm : m.wf font) (a a' : Nat) (b : Byte) :
    (m.write font a b).read font a' = if a' = a then b else m.read font a' := by
  by_cases h : a' = a
  · subst h; simp [Memory.read_write_same hm.1]
  · rw [Memory.read_write_other font m b (Ne.symm h), if_neg h]

/-- The cells after a write: old cells, and the one written where it says something. -/
theorem Memory.mem_write {font : List Byte} {m : Memory} {a : Nat} {b : Byte} {c : Host.Cell}
    (h : c ∈ m.write font a b) : c ∈ m ∨ c = (a, b) ∧ b ≠ Memory.unlisted font a := by
  induction m with
  | nil =>
    simp only [Memory.write, Memory.cell] at h
    split at h <;> simp_all
  | cons d m ih =>
    simp only [Memory.write] at h
    split at h
    · simp only [Memory.cell] at h; split at h <;> simp_all [or_comm]
    · split at h
      · simp only [Memory.cell] at h
        split at h
        · exact .inl (List.mem_cons_of_mem _ h)
        · rcases List.mem_cons.mp h with rfl | h
          · exact .inr ⟨rfl, ‹_›⟩
          · exact .inl (List.mem_cons_of_mem _ h)
      · rcases List.mem_cons.mp h with rfl | h
        · simp
        · rcases ih h with h | h
          · exact .inl (List.mem_cons_of_mem _ h)
          · exact .inr h

/-- A write inside the address space keeps the canonical form. -/
theorem Memory.write_wf {font : List Byte} {m : Memory} (hm : m.wf font) {a : Nat} (ha : a < Config.memSize) (b : Byte) :
    (m.write font a b).wf font := by
  constructor
  · have hp := hm.1
    clear hm
    induction m with
    | nil => simp only [Memory.write, Memory.cell]; split <;> simp
    | cons d m ih =>
      have hd := hp
      rw [List.pairwise_cons] at hp
      simp only [Memory.write]
      split
      next hlt =>
        simp only [Memory.cell]
        split
        · exact hd
        · rw [List.pairwise_cons]
          refine ⟨fun e he => ?_, hd⟩
          rcases List.mem_cons.mp he with rfl | he
          · exact hlt
          · exact hlt.trans (hp.1 e he)
      next hge =>
        split
        next he =>
          simp only [Memory.cell]
          split
          · exact hp.2
          · rw [List.pairwise_cons]
            exact ⟨fun e hm => he ▸ hp.1 e hm, hp.2⟩
        next hne =>
          rw [List.pairwise_cons]
          refine ⟨fun e he => ?_, ih hp.2⟩
          rcases Memory.mem_write he with hm | ⟨rfl, _⟩
          · exact hp.1 e hm
          · show d.1 < a
            omega
  · intro c hc
    rcases Memory.mem_write hc with h | ⟨rfl, h⟩
    · exact hm.2 c h
    · exact ⟨ha, h⟩

/-- Writing a program image keeps the canonical form. -/
theorem Memory.writeBytes_wf {font : List Byte} {bs : List Byte} {m : Memory} (hm : m.wf font) {a : Nat}
    (ha : a + bs.length ≤ Config.memSize) : (m.writeBytes font a bs).wf font := by
  induction bs generalizing m a with
  | nil => exact hm
  | cons b bs ih =>
    rw [List.length_cons] at ha
    exact ih (Memory.write_wf hm (by omega) b) (by omega)

/-- What a byte reads as after a program image is written. -/
theorem Memory.read_writeBytes {font : List Byte} {bs : List Byte} {m : Memory} (hm : m.wf font) {a : Nat}
    (ha : a + bs.length ≤ Config.memSize) (a' : Nat) :
    (m.writeBytes font a bs).read font a' =
      if a ≤ a' ∧ a' < a + bs.length then bs.getD (a' - a) 0 else m.read font a' := by
  induction bs generalizing m a with
  | nil => simp only [Memory.writeBytes, List.length_nil]; rw [if_neg (by omega)]
  | cons b bs ih =>
    rw [List.length_cons] at ha
    rw [Memory.writeBytes, ih (Memory.write_wf hm (by omega) b) (by omega), Memory.read_write hm]
    by_cases h : a' = a
    · subst h; rw [if_neg (by omega), if_pos rfl, if_pos (by simp)]; simp
    · rw [if_neg h, List.length_cons]
      by_cases h2 : a + 1 ≤ a' ∧ a' < a + 1 + bs.length
      · rw [if_pos h2, if_pos (by omega), show a' - a = (a' - (a + 1)) + 1 by omega]; simp
      · rw [if_neg h2, if_neg (by omega)]

/-- Equal memories are equal data: two canonical memories that read the same are the same list. -/
theorem Memory.ext_of_read {font : List Byte} {m m' : Memory} (hm : m.wf font) (hm' : m'.wf font)
    (h : ∀ a, m.read font a = m'.read font a) : m = m' := by
  have mem_iff : ∀ {n n' : Memory}, n.wf font → n'.wf font → (∀ a, n.read font a = n'.read font a) →
      ∀ c ∈ n, c ∈ n' := by
    intro n n' hn hn' hr c hc
    have hne := (hn.2 c hc).2
    have hread : n'.read font c.1 = c.2 := by rw [← hr, Memory.read_listed hn.1 hc]
    by_contra hnot
    by_cases hk : ∃ d ∈ n', d.1 = c.1
    · obtain ⟨d, hd, hdk⟩ := hk
      have := Memory.read_listed (font := font) hn'.1 hd
      rw [hdk, hread] at this
      exact hnot ((Prod.ext hdk this.symm : d = c) ▸ hd)
    · rw [Memory.read_unlisted fun d hd he => hk ⟨d, hd, he⟩] at hread
      exact hne hread.symm
  have nodup : ∀ {n : Memory}, n.wf font → n.Nodup := fun hn =>
    hn.1.imp fun hlt he => (he ▸ hlt).false
  have hperm : m.Perm m' := (List.perm_ext_iff_of_nodup (nodup hm) (nodup hm')).mpr fun c =>
    ⟨mem_iff hm hm' h c, mem_iff hm' hm (fun a => (h a).symm) c⟩
  exact hperm.eq_of_pairwise (fun a b _ _ h1 h2 => absurd (h1.trans h2) (lt_irrefl _)) hm.1 hm'.1

/-- The memory of `State.reset` is canonical: it lists nothing. -/
theorem State.reset_mem_wf : State.reset.mem.wf State.reset.par.font := by
  simp [State.reset, Memory.wf]

end Sys2Proof.Machine
end

