-- ==== Sys2Proof/Laws/State.lean ====
section
/-!
SUPPORT. Beside State: one lemma per field per named update, true by `rfl`, and the laws of reading a register after a write,
so that no later proof unfolds a record update.
-/

namespace Sys2Proof.Machine

/-! ## `State.setV` -/

@[simp] theorem State.setV_mem (s : State) (x : Reg) (b : Byte) : (s.setV x b).mem = s.mem := rfl
@[simp] theorem State.setV_v (s : State) (x : Reg) (b : Byte) : (s.setV x b).v = s.v.set x.toNat b := rfl
@[simp] theorem State.setV_i (s : State) (x : Reg) (b : Byte) : (s.setV x b).i = s.i := rfl
@[simp] theorem State.setV_pc (s : State) (x : Reg) (b : Byte) : (s.setV x b).pc = s.pc := rfl
@[simp] theorem State.setV_stack (s : State) (x : Reg) (b : Byte) : (s.setV x b).stack = s.stack := rfl
@[simp] theorem State.setV_sp (s : State) (x : Reg) (b : Byte) : (s.setV x b).sp = s.sp := rfl
@[simp] theorem State.setV_dt (s : State) (x : Reg) (b : Byte) : (s.setV x b).dt = s.dt := rfl
@[simp] theorem State.setV_st (s : State) (x : Reg) (b : Byte) : (s.setV x b).st = s.st := rfl
@[simp] theorem State.setV_prev (s : State) (x : Reg) (b : Byte) : (s.setV x b).prev = s.prev := rfl
@[simp] theorem State.setV_fault (s : State) (x : Reg) (b : Byte) : (s.setV x b).fault = s.fault := rfl
@[simp] theorem State.setV_disp (s : State) (x : Reg) (b : Byte) : (s.setV x b).disp = s.disp := rfl
@[simp] theorem State.setV_events (s : State) (x : Reg) (b : Byte) : (s.setV x b).events = s.events := rfl
@[simp] theorem State.setV_randStream (s : State) (x : Reg) (b : Byte) : (s.setV x b).randStream = s.randStream := rfl
@[simp] theorem State.setV_keyStream (s : State) (x : Reg) (b : Byte) : (s.setV x b).keyStream = s.keyStream := rfl
@[simp] theorem State.setV_draws (s : State) (x : Reg) (b : Byte) : (s.setV x b).draws = s.draws := rfl
@[simp] theorem State.setV_sched (s : State) (x : Reg) (b : Byte) : (s.setV x b).sched = s.sched := rfl
@[simp] theorem State.setV_par (s : State) (x : Reg) (b : Byte) : (s.setV x b).par = s.par := rfl

/-! ## `State.setI` -/

@[simp] theorem State.setI_mem (s : State) (a : Nat) : (s.setI a).mem = s.mem := rfl
@[simp] theorem State.setI_v (s : State) (a : Nat) : (s.setI a).v = s.v := rfl
@[simp] theorem State.setI_i (s : State) (a : Nat) : (s.setI a).i = BitVec.ofNat 16 a := rfl
@[simp] theorem State.setI_pc (s : State) (a : Nat) : (s.setI a).pc = s.pc := rfl
@[simp] theorem State.setI_stack (s : State) (a : Nat) : (s.setI a).stack = s.stack := rfl
@[simp] theorem State.setI_sp (s : State) (a : Nat) : (s.setI a).sp = s.sp := rfl
@[simp] theorem State.setI_dt (s : State) (a : Nat) : (s.setI a).dt = s.dt := rfl
@[simp] theorem State.setI_st (s : State) (a : Nat) : (s.setI a).st = s.st := rfl
@[simp] theorem State.setI_prev (s : State) (a : Nat) : (s.setI a).prev = s.prev := rfl
@[simp] theorem State.setI_fault (s : State) (a : Nat) : (s.setI a).fault = s.fault := rfl
@[simp] theorem State.setI_disp (s : State) (a : Nat) : (s.setI a).disp = s.disp := rfl
@[simp] theorem State.setI_events (s : State) (a : Nat) : (s.setI a).events = s.events := rfl
@[simp] theorem State.setI_randStream (s : State) (a : Nat) : (s.setI a).randStream = s.randStream := rfl
@[simp] theorem State.setI_keyStream (s : State) (a : Nat) : (s.setI a).keyStream = s.keyStream := rfl
@[simp] theorem State.setI_draws (s : State) (a : Nat) : (s.setI a).draws = s.draws := rfl
@[simp] theorem State.setI_sched (s : State) (a : Nat) : (s.setI a).sched = s.sched := rfl
@[simp] theorem State.setI_par (s : State) (a : Nat) : (s.setI a).par = s.par := rfl

/-! ## `State.setByte` -/

@[simp] theorem State.setByte_mem (s : State) (a : Nat) (b : Byte) : (s.setByte a b).mem = s.mem.write s.par.font a b := rfl
@[simp] theorem State.setByte_v (s : State) (a : Nat) (b : Byte) : (s.setByte a b).v = s.v := rfl
@[simp] theorem State.setByte_i (s : State) (a : Nat) (b : Byte) : (s.setByte a b).i = s.i := rfl
@[simp] theorem State.setByte_pc (s : State) (a : Nat) (b : Byte) : (s.setByte a b).pc = s.pc := rfl
@[simp] theorem State.setByte_stack (s : State) (a : Nat) (b : Byte) : (s.setByte a b).stack = s.stack := rfl
@[simp] theorem State.setByte_sp (s : State) (a : Nat) (b : Byte) : (s.setByte a b).sp = s.sp := rfl
@[simp] theorem State.setByte_dt (s : State) (a : Nat) (b : Byte) : (s.setByte a b).dt = s.dt := rfl
@[simp] theorem State.setByte_st (s : State) (a : Nat) (b : Byte) : (s.setByte a b).st = s.st := rfl
@[simp] theorem State.setByte_prev (s : State) (a : Nat) (b : Byte) : (s.setByte a b).prev = s.prev := rfl
@[simp] theorem State.setByte_fault (s : State) (a : Nat) (b : Byte) : (s.setByte a b).fault = s.fault := rfl
@[simp] theorem State.setByte_disp (s : State) (a : Nat) (b : Byte) : (s.setByte a b).disp = s.disp := rfl
@[simp] theorem State.setByte_events (s : State) (a : Nat) (b : Byte) : (s.setByte a b).events = s.events := rfl
@[simp] theorem State.setByte_randStream (s : State) (a : Nat) (b : Byte) : (s.setByte a b).randStream = s.randStream := rfl
@[simp] theorem State.setByte_keyStream (s : State) (a : Nat) (b : Byte) : (s.setByte a b).keyStream = s.keyStream := rfl
@[simp] theorem State.setByte_draws (s : State) (a : Nat) (b : Byte) : (s.setByte a b).draws = s.draws := rfl
@[simp] theorem State.setByte_sched (s : State) (a : Nat) (b : Byte) : (s.setByte a b).sched = s.sched := rfl
@[simp] theorem State.setByte_par (s : State) (a : Nat) (b : Byte) : (s.setByte a b).par = s.par := rfl

/-! ## `State.record` -/

@[simp] theorem State.record_mem (s : State) (e : Event) : (s.record e).mem = s.mem := rfl
@[simp] theorem State.record_v (s : State) (e : Event) : (s.record e).v = s.v := rfl
@[simp] theorem State.record_i (s : State) (e : Event) : (s.record e).i = s.i := rfl
@[simp] theorem State.record_pc (s : State) (e : Event) : (s.record e).pc = s.pc := rfl
@[simp] theorem State.record_stack (s : State) (e : Event) : (s.record e).stack = s.stack := rfl
@[simp] theorem State.record_sp (s : State) (e : Event) : (s.record e).sp = s.sp := rfl
@[simp] theorem State.record_dt (s : State) (e : Event) : (s.record e).dt = s.dt := rfl
@[simp] theorem State.record_st (s : State) (e : Event) : (s.record e).st = s.st := rfl
@[simp] theorem State.record_prev (s : State) (e : Event) : (s.record e).prev = s.prev := rfl
@[simp] theorem State.record_fault (s : State) (e : Event) : (s.record e).fault = s.fault := rfl
@[simp] theorem State.record_disp (s : State) (e : Event) : (s.record e).disp = s.disp := rfl
@[simp] theorem State.record_events (s : State) (e : Event) : (s.record e).events = e :: s.events := rfl
@[simp] theorem State.record_randStream (s : State) (e : Event) : (s.record e).randStream = s.randStream := rfl
@[simp] theorem State.record_keyStream (s : State) (e : Event) : (s.record e).keyStream = s.keyStream := rfl
@[simp] theorem State.record_draws (s : State) (e : Event) : (s.record e).draws = s.draws := rfl
@[simp] theorem State.record_sched (s : State) (e : Event) : (s.record e).sched = s.sched := rfl
@[simp] theorem State.record_par (s : State) (e : Event) : (s.record e).par = s.par := rfl

/-! ## `takeFault` -/

@[simp] theorem takeFault_mem (s : State) (e : Err) : (takeFault e s).mem = s.mem := rfl
@[simp] theorem takeFault_v (s : State) (e : Err) : (takeFault e s).v = s.v := rfl
@[simp] theorem takeFault_i (s : State) (e : Err) : (takeFault e s).i = s.i := rfl
@[simp] theorem takeFault_pc (s : State) (e : Err) : (takeFault e s).pc = s.pc := rfl
@[simp] theorem takeFault_stack (s : State) (e : Err) : (takeFault e s).stack = s.stack := rfl
@[simp] theorem takeFault_sp (s : State) (e : Err) : (takeFault e s).sp = s.sp := rfl
@[simp] theorem takeFault_dt (s : State) (e : Err) : (takeFault e s).dt = s.dt := rfl
@[simp] theorem takeFault_st (s : State) (e : Err) : (takeFault e s).st = s.st := rfl
@[simp] theorem takeFault_prev (s : State) (e : Err) : (takeFault e s).prev = s.prev := rfl
@[simp] theorem takeFault_fault (s : State) (e : Err) : (takeFault e s).fault = some e := rfl
@[simp] theorem takeFault_disp (s : State) (e : Err) : (takeFault e s).disp = s.disp := rfl
@[simp] theorem takeFault_events (s : State) (e : Err) : (takeFault e s).events = s.events := rfl
@[simp] theorem takeFault_randStream (s : State) (e : Err) : (takeFault e s).randStream = s.randStream := rfl
@[simp] theorem takeFault_keyStream (s : State) (e : Err) : (takeFault e s).keyStream = s.keyStream := rfl
@[simp] theorem takeFault_draws (s : State) (e : Err) : (takeFault e s).draws = s.draws := rfl
@[simp] theorem takeFault_sched (s : State) (e : Err) : (takeFault e s).sched = s.sched := rfl
@[simp] theorem takeFault_par (s : State) (e : Err) : (takeFault e s).par = s.par := rfl

/-! ## `freePlane` -/

@[simp] theorem freePlane_mem (s : State) : (freePlane s).mem = s.mem := rfl
@[simp] theorem freePlane_v (s : State) : (freePlane s).v = s.v := rfl
@[simp] theorem freePlane_i (s : State) : (freePlane s).i = s.i := rfl
@[simp] theorem freePlane_pc (s : State) : (freePlane s).pc = s.pc := rfl
@[simp] theorem freePlane_stack (s : State) : (freePlane s).stack = s.stack := rfl
@[simp] theorem freePlane_sp (s : State) : (freePlane s).sp = s.sp := rfl
@[simp] theorem freePlane_dt (s : State) : (freePlane s).dt = s.dt := rfl
@[simp] theorem freePlane_st (s : State) : (freePlane s).st = s.st := rfl
@[simp] theorem freePlane_prev (s : State) : (freePlane s).prev = s.prev := rfl
@[simp] theorem freePlane_fault (s : State) : (freePlane s).fault = s.fault := rfl
@[simp] theorem freePlane_events (s : State) : (freePlane s).events = s.events := rfl
@[simp] theorem freePlane_randStream (s : State) : (freePlane s).randStream = s.randStream := rfl
@[simp] theorem freePlane_keyStream (s : State) : (freePlane s).keyStream = s.keyStream := rfl
@[simp] theorem freePlane_draws (s : State) : (freePlane s).draws = s.draws + 1 := rfl
@[simp] theorem freePlane_sched (s : State) : (freePlane s).sched = s.sched := rfl
@[simp] theorem freePlane_par (s : State) : (freePlane s).par = s.par := rfl

/-! ## Registers -/

/-- The register the flags go to is `V[0xF]` (R23). -/
theorem regF_eq : regF = 0xF#4 := rfl

@[simp] theorem State.getV_setV_same (s : State) (x : Reg) (b : Byte) : (s.setV x b).getV x = b := by
  simp [State.getV]

@[simp] theorem State.getV_setV_of_ne (s : State) {x r : Reg} (b : Byte) (h : r ≠ x) :
    (s.setV x b).getV r = s.getV r := by
  have hn : x.toNat ≠ r.toNat := fun e => h (BitVec.eq_of_toNat_eq e.symm)
  simp [State.getV, hn]

/-- What a register reads after a write of any register (R22). -/
theorem State.getV_setV (s : State) (x r : Reg) (b : Byte) :
    (s.setV x b).getV r = if r = x then b else s.getV r := by
  by_cases h : r = x
  · subst h; simp
  · simp [h]

/-- A state whose registers all read the same is the same but for nothing in `v`. -/
theorem State.v_ext {s t : State} (h : ∀ r : Reg, s.getV r = t.getV r) : s.v = t.v := by
  apply Vector.ext
  intro k hk
  simpa [State.getV, Nat.mod_eq_of_lt hk] using h (BitVec.ofNat 4 k)

@[simp] theorem State.getV_setI (s : State) (a : Nat) (r : Reg) : (s.setI a).getV r = s.getV r := rfl
@[simp] theorem State.getV_setByte (s : State) (a : Nat) (b : Byte) (r : Reg) : (s.setByte a b).getV r = s.getV r := rfl
@[simp] theorem State.getV_record (s : State) (e : Event) (r : Reg) : (s.record e).getV r = s.getV r := rfl
@[simp] theorem State.getV_takeFault (s : State) (e : Err) (r : Reg) : (takeFault e s).getV r = s.getV r := rfl
@[simp] theorem State.getV_freePlane (s : State) (r : Reg) : (freePlane s).getV r = s.getV r := rfl

/-! ## Memory, as the updates leave it -/

@[simp] theorem State.byteAt_setV (s : State) (x : Reg) (b : Byte) (a : Nat) : (s.setV x b).byteAt a = s.byteAt a := rfl
@[simp] theorem State.byteAt_setI (s : State) (n a : Nat) : (s.setI n).byteAt a = s.byteAt a := rfl
@[simp] theorem State.byteAt_record (s : State) (e : Event) (a : Nat) : (s.record e).byteAt a = s.byteAt a := rfl
@[simp] theorem State.byteAt_takeFault (s : State) (e : Err) (a : Nat) : (takeFault e s).byteAt a = s.byteAt a := rfl
@[simp] theorem State.byteAt_freePlane (s : State) (a : Nat) : (freePlane s).byteAt a = s.byteAt a := rfl

/-! ## The plane a faulted draw leaves -/

@[simp] theorem freePlane_length (s : State) :
    (freePlane s).disp.length = s.par.displayW * s.par.displayH := by
  simp [freePlane]

/-! ## The timer phase, field by field (R91) -/

@[simp] theorem timerPhase_mem (s : State) : (timerPhase s).mem = s.mem := by
  unfold timerPhase tickSound tickDelay; split <;> split <;> rfl
@[simp] theorem timerPhase_v (s : State) : (timerPhase s).v = s.v := by
  unfold timerPhase tickSound tickDelay; split <;> split <;> rfl
@[simp] theorem timerPhase_i (s : State) : (timerPhase s).i = s.i := by
  unfold timerPhase tickSound tickDelay; split <;> split <;> rfl
@[simp] theorem timerPhase_pc (s : State) : (timerPhase s).pc = s.pc := by
  unfold timerPhase tickSound tickDelay; split <;> split <;> rfl
@[simp] theorem timerPhase_stack (s : State) : (timerPhase s).stack = s.stack := by
  unfold timerPhase tickSound tickDelay; split <;> split <;> rfl
@[simp] theorem timerPhase_sp (s : State) : (timerPhase s).sp = s.sp := by
  unfold timerPhase tickSound tickDelay; split <;> split <;> rfl
@[simp] theorem timerPhase_prev (s : State) : (timerPhase s).prev = s.prev := by
  unfold timerPhase tickSound tickDelay; split <;> split <;> rfl
@[simp] theorem timerPhase_fault (s : State) : (timerPhase s).fault = s.fault := by
  unfold timerPhase tickSound tickDelay; split <;> split <;> rfl
@[simp] theorem timerPhase_disp (s : State) : (timerPhase s).disp = s.disp := by
  unfold timerPhase tickSound tickDelay; split <;> split <;> rfl
@[simp] theorem timerPhase_randStream (s : State) : (timerPhase s).randStream = s.randStream := by
  unfold timerPhase tickSound tickDelay; split <;> split <;> rfl
@[simp] theorem timerPhase_keyStream (s : State) : (timerPhase s).keyStream = s.keyStream := by
  unfold timerPhase tickSound tickDelay; split <;> split <;> rfl
@[simp] theorem timerPhase_draws (s : State) : (timerPhase s).draws = s.draws := by
  unfold timerPhase tickSound tickDelay; split <;> split <;> rfl
@[simp] theorem timerPhase_sched (s : State) : (timerPhase s).sched = s.sched := by
  unfold timerPhase tickSound tickDelay; split <;> split <;> rfl
@[simp] theorem timerPhase_par (s : State) : (timerPhase s).par = s.par := by
  unfold timerPhase tickSound tickDelay; split <;> split <;> rfl
@[simp] theorem timerPhase_getV (s : State) (r : Reg) : (timerPhase s).getV r = s.getV r := by
  simp [State.getV]
@[simp] theorem timerPhase_byteAt (s : State) (a : Nat) : (timerPhase s).byteAt a = s.byteAt a := by
  simp [State.byteAt]

/-- The delay timer after phase 1: one less, and 0 where it was 0. -/
theorem timerPhase_dt (s : State) : (timerPhase s).dt = if s.dt = 0#8 then 0#8 else s.dt - 1#8 := by
  unfold timerPhase tickSound tickDelay
  by_cases hd : s.dt = 0#8 <;> simp [hd] <;> split <;> simp_all [beep, State.record]

/-- The sound timer after phase 1: one less, and 0 where it was 0. -/
theorem timerPhase_st (s : State) : (timerPhase s).st = if s.st = 0#8 then 0#8 else s.st - 1#8 := by
  unfold timerPhase tickSound tickDelay
  by_cases hd : s.dt = 0#8 <;> by_cases hs : s.st = 0#8 <;> simp [hd, hs]

/-- The calls recorded after phase 1: one beep exactly where the sound timer was running. -/
theorem timerPhase_events (s : State) :
    (timerPhase s).events = if s.st = 0#8 then s.events else .beep :: s.events := by
  unfold timerPhase tickSound tickDelay
  by_cases hd : s.dt = 0#8 <;> by_cases hs : s.st = 0#8 <;> simp [hd, hs, beep, State.record]

/-! ## The trace call, field by field (R224) -/

@[simp] theorem trace_mem (w : Word) (s : State) : (trace w s).mem = s.mem := by
  unfold trace; split <;> rfl
@[simp] theorem trace_v (w : Word) (s : State) : (trace w s).v = s.v := by
  unfold trace; split <;> rfl
@[simp] theorem trace_i (w : Word) (s : State) : (trace w s).i = s.i := by
  unfold trace; split <;> rfl
@[simp] theorem trace_pc (w : Word) (s : State) : (trace w s).pc = s.pc := by
  unfold trace; split <;> rfl
@[simp] theorem trace_stack (w : Word) (s : State) : (trace w s).stack = s.stack := by
  unfold trace; split <;> rfl
@[simp] theorem trace_sp (w : Word) (s : State) : (trace w s).sp = s.sp := by
  unfold trace; split <;> rfl
@[simp] theorem trace_dt (w : Word) (s : State) : (trace w s).dt = s.dt := by
  unfold trace; split <;> rfl
@[simp] theorem trace_st (w : Word) (s : State) : (trace w s).st = s.st := by
  unfold trace; split <;> rfl
@[simp] theorem trace_prev (w : Word) (s : State) : (trace w s).prev = s.prev := by
  unfold trace; split <;> rfl
@[simp] theorem trace_fault (w : Word) (s : State) : (trace w s).fault = s.fault := by
  unfold trace; split <;> rfl
@[simp] theorem trace_disp (w : Word) (s : State) : (trace w s).disp = s.disp := by
  unfold trace; split <;> rfl
@[simp] theorem trace_randStream (w : Word) (s : State) : (trace w s).randStream = s.randStream := by
  unfold trace; split <;> rfl
@[simp] theorem trace_keyStream (w : Word) (s : State) : (trace w s).keyStream = s.keyStream := by
  unfold trace; split <;> rfl
@[simp] theorem trace_draws (w : Word) (s : State) : (trace w s).draws = s.draws := by
  unfold trace; split <;> rfl
@[simp] theorem trace_sched (w : Word) (s : State) : (trace w s).sched = s.sched := by
  unfold trace; split <;> rfl
@[simp] theorem trace_par (w : Word) (s : State) : (trace w s).par = s.par := by
  unfold trace; split <;> rfl
@[simp] theorem trace_getV (w : Word) (s : State) (r : Reg) : (trace w s).getV r = s.getV r := by
  simp [State.getV]
@[simp] theorem trace_byteAt (w : Word) (s : State) (a : Nat) : (trace w s).byteAt a = s.byteAt a := by
  simp [State.byteAt]
theorem trace_events (w : Word) (s : State) :
    (trace w s).events = if s.par.traceSink then .trace w :: s.events else s.events := by
  unfold trace; split <;> rfl

/-! ## The state the execute phase starts from, field by field -/

@[simp] theorem State.begun_mem (s : State) : s.begun.mem = s.mem := by simp [State.begun]
@[simp] theorem State.begun_v (s : State) : s.begun.v = s.v := by simp [State.begun]
@[simp] theorem State.begun_i (s : State) : s.begun.i = s.i := by simp [State.begun]
@[simp] theorem State.begun_pc (s : State) : s.begun.pc = s.pc := by simp [State.begun]
@[simp] theorem State.begun_stack (s : State) : s.begun.stack = s.stack := by simp [State.begun]
@[simp] theorem State.begun_sp (s : State) : s.begun.sp = s.sp := by simp [State.begun]
@[simp] theorem State.begun_prev (s : State) : s.begun.prev = s.prev := by simp [State.begun]
@[simp] theorem State.begun_fault (s : State) : s.begun.fault = s.fault := by simp [State.begun]
@[simp] theorem State.begun_disp (s : State) : s.begun.disp = s.disp := by simp [State.begun]
@[simp] theorem State.begun_randStream (s : State) : s.begun.randStream = s.randStream := by simp [State.begun]
@[simp] theorem State.begun_keyStream (s : State) : s.begun.keyStream = s.keyStream := by simp [State.begun]
@[simp] theorem State.begun_draws (s : State) : s.begun.draws = s.draws := by simp [State.begun]
@[simp] theorem State.begun_sched (s : State) : s.begun.sched = s.sched := by simp [State.begun]
@[simp] theorem State.begun_par (s : State) : s.begun.par = s.par := by simp [State.begun]
@[simp] theorem State.begun_getV (s : State) (r : Reg) : s.begun.getV r = s.getV r := by simp [State.begun]
@[simp] theorem State.begun_byteAt (s : State) (a : Nat) : s.begun.byteAt a = s.byteAt a := by simp [State.begun]
@[simp] theorem State.begun_dt (s : State) : s.begun.dt = countDown s.dt := by
  simp [State.begun, timerPhase_dt, countDown]
@[simp] theorem State.begun_st (s : State) : s.begun.st = countDown s.st := by
  simp [State.begun, timerPhase_st, countDown]
/-- The calls made before the execute phase: the beep, then the trace (R91, R224). -/
theorem State.begun_events (s : State) :
    s.begun.events = (if s.par.traceSink then [.trace (s.wordAt s.pc.toNat)] else []) ++
      (if s.st = 0#8 then [] else [.beep]) ++ s.events := by
  unfold State.begun
  rw [trace_events, timerPhase_events, timerPhase_par]
  split <;> split <;> rfl

end Sys2Proof.Machine
end

