-- ==== Sys2Proof/Laws/Ops.lean ====
section
/-!
SUPPORT. For each shared operation, what it can do, said once: when it completes and with which state, when it raises and with
which error, and what it leaves alone. Later proofs cite these lemmas and do not unfold the operations.
-/

namespace Sys2Proof.Machine

/-! ## Sequencing and ending (R207, R209) -/

@[simp] theorem Res.bind_ok {α β : Type} (a : α) (s : State) (k : α → State → Res β) : (Res.ok a s).bind k = k a s := rfl
@[simp] theorem Res.bind_raised {α β : Type} (e : Err) (s : State) (k : α → State → Res β) :
    (Res.raised e s : Res α).bind k = .raised e s := rfl
@[simp] theorem Res.settle_ok (a : Unit) (s : State) : (Res.ok a s).settle = s := rfl
@[simp] theorem Res.settle_raised (e : Err) (s : State) : (Res.raised e s : Res Unit).settle = takeFault e s := rfl
@[simp] theorem finish_eq (r : Res Unit) : finish r = .next r.settle := rfl

/-- A sequence completes exactly when both parts do. -/
theorem Res.bind_eq_ok {α β : Type} {r : Res α} {k : α → State → Res β} {b : β} {t : State} :
    r.bind k = .ok b t ↔ ∃ a s, r = .ok a s ∧ k a s = .ok b t := by
  cases r <;> simp [Res.bind]

/-- A sequence raises where its first part does, or where the first completes and the second does. -/
theorem Res.bind_eq_raised {α β : Type} {r : Res α} {k : α → State → Res β} {e : Err} {t : State} :
    r.bind k = .raised e t ↔ r = .raised e t ∨ ∃ a s, r = .ok a s ∧ k a s = .raised e t := by
  cases r <;> simp [Res.bind]

/-! ## Memory (R51, R52) -/

theorem memRead_ok {a : Int} (h : readable a) (s : State) : memRead a s = .ok (s.byteAt a.toNat) s := by
  unfold readable at h; unfold memRead; rw [if_neg (by omega)]

theorem memRead_raised {a : Int} (h : ¬readable a) (s : State) : memRead a s = .raised (.outOfRangeAddress a) s := by
  unfold readable at h; unfold memRead; rw [if_pos (by omega)]

theorem memWrite_ok {a : Int} {s : State} (h : writable s.par a) (b : Byte) :
    memWrite a b s = .ok () (s.setByte a.toNat b) := by
  obtain ⟨hr, hw⟩ := h
  unfold readable at hr
  unfold memWrite
  rw [if_neg (by omega), if_neg]
  rintro ⟨hle, hp⟩
  have := hw hp
  omega

theorem memWrite_raised {a : Int} {s : State} (h : ¬writable s.par a) (b : Byte) :
    memWrite a b s = .raised (writeErr a) s := by
  unfold memWrite writeErr
  by_cases hr : readable a
  · have hw : s.par.fontPolicy = .fault ∧ ¬0x04F < a := by simpa [hr] using h
    rw [if_pos hr]
    unfold readable at hr
    rw [if_neg (by omega), if_pos ⟨by omega, hw.1⟩]
  · rw [if_neg hr]
    unfold readable at hr
    rw [if_pos (by omega)]

theorem State.byteAt_setByte {s : State} (hm : s.mem.wf s.par.font) (a a' : Nat) (b : Byte) :
    (s.setByte a b).byteAt a' = if a' = a then b else s.byteAt a' := Memory.read_write hm a a' b

theorem State.byteAt_setByte_other (s : State) {a a' : Nat} (b : Byte) (h : a ≠ a') :
    (s.setByte a b).byteAt a' = s.byteAt a' := Memory.read_write_other _ _ b h

theorem State.setByte_mem_wf {s : State} (hm : s.mem.wf s.par.font) {a : Nat} (ha : a < Config.memSize) (b : Byte) :
    (s.setByte a b).mem.wf (s.setByte a b).par.font := Memory.write_wf hm ha b

/-- The state after a run of writes that all succeed. -/
def putCells (base : Int) (cells : List (Nat × Byte)) (s : State) : State :=
  cells.foldl (fun t c => t.setByte (base + c.1).toNat c.2) s

@[simp] theorem putCells_nil (base : Int) (s : State) : putCells base [] s = s := rfl
@[simp] theorem putCells_cons (base : Int) (c : Nat × Byte) (cells : List (Nat × Byte)) (s : State) :
    putCells base (c :: cells) s = putCells base cells (s.setByte (base + c.1).toNat c.2) := rfl

/-- A run of writes changes memory and nothing else. -/
theorem putCells_frame (base : Int) (cells : List (Nat × Byte)) (s : State) :
    putCells base cells s = { s with mem := (putCells base cells s).mem } := by
  induction cells generalizing s with
  | nil => rfl
  | cons c cells ih => rw [putCells_cons, ih]; rfl

/-- A run of writes whose addresses are all taken completes. -/
theorem writeCells_ok {base : Int} {cells : List (Nat × Byte)} {s : State}
    (h : ∀ c ∈ cells, writable s.par (base + c.1)) : writeCells base cells s = .ok () (putCells base cells s) := by
  induction cells generalizing s with
  | nil => rfl
  | cons c cells ih =>
    rw [writeCells, memWrite_ok (h c (by simp)), Res.bind_ok, putCells_cons]
    exact ih fun d hd => h d (by simp [hd])

/-- A run of writes stops at the first address that is not taken, and the writes before it stay (R207). -/
theorem writeCells_raised {base : Int} {pre post : List (Nat × Byte)} {c : Nat × Byte} {s : State}
    (h : ∀ d ∈ pre, writable s.par (base + d.1)) (hc : ¬writable s.par (base + c.1)) :
    writeCells base (pre ++ c :: post) s = .raised (writeErr (base + c.1)) (putCells base pre s) := by
  induction pre generalizing s with
  | nil => rw [List.nil_append, writeCells, memWrite_raised hc, Res.bind_raised, putCells_nil]
  | cons d pre ih =>
    rw [List.cons_append, writeCells, memWrite_ok (h d (by simp)), Res.bind_ok, putCells_cons]
    exact ih (fun d hd => h d (by simp [hd])) hc

/-- A byte that no cell of a run of writes is stored to reads as before. -/
theorem byteAt_putCells_other {base : Int} {cells : List (Nat × Byte)} {a : Nat}
    (h : ∀ c ∈ cells, (base + c.1).toNat ≠ a) (s : State) : (putCells base cells s).byteAt a = s.byteAt a := by
  induction cells generalizing s with
  | nil => rfl
  | cons c cells ih =>
    rw [putCells_cons, ih fun d hd => h d (by simp [hd]), State.byteAt_setByte_other _ _ (h c (by simp))]

/-- A run of writes whose addresses are all taken keeps the canonical form. -/
theorem putCells_mem_wf {base : Int} {cells : List (Nat × Byte)} {s : State} (hm : s.mem.wf s.par.font)
    (h : ∀ c ∈ cells, writable s.par (base + c.1)) : (putCells base cells s).mem.wf s.par.font := by
  induction cells generalizing s with
  | nil => exact hm
  | cons c cells ih =>
    rw [putCells_cons]
    refine ih (s := s.setByte _ _) ?_ fun d hd => h d (by simp [hd])
    have hr := (h c (by simp)).1
    unfold readable at hr
    exact State.setByte_mem_wf hm (by unfold Config.memSize; omega) _

/-- A cell of a run of writes that no later one overwrites reads as what it stored. -/
theorem byteAt_putCells_last {base : Int} {pre post : List (Nat × Byte)} {c : Nat × Byte} {s : State}
    (hm : s.mem.wf s.par.font) (h : ∀ d ∈ pre ++ c :: post, writable s.par (base + d.1))
    (hp : ∀ d ∈ post, (base + d.1).toNat ≠ (base + c.1).toNat) :
    (putCells base (pre ++ c :: post) s).byteAt (base + c.1).toNat = c.2 := by
  induction pre generalizing s with
  | nil => rw [List.nil_append, putCells_cons, byteAt_putCells_other hp, State.byteAt_setByte hm, if_pos rfl]
  | cons d pre ih =>
    rw [List.cons_append, putCells_cons]
    refine ih (s := s.setByte _ _) ?_ fun e he => h e (by simp at he ⊢; tauto)
    have hr := (h d (by simp)).1
    unfold readable at hr
    exact State.setByte_mem_wf hm (by unfold Config.memSize; omega) _

/-- An offset from the index register, as a natural number. -/
@[simp] theorem indexBase_add_toNat (s : State) (k : Nat) : (indexBase s + k).toNat = s.i.toNat + k := by
  unfold indexBase; omega

/-! ## Program counter (R28 to R30, R110) -/

theorem setPC_ok {a : Int} (h : legalPc a) (s : State) : setPC a s = .ok () { s with pc := BitVec.ofInt 12 a } :=
  if_pos h

theorem setPC_raised {a : Int} (h : ¬legalPc a) (s : State) : setPC a s = .raised (.invalidAddress a) s :=
  if_neg h

/-- A legal program counter is held as it is. -/
theorem toNat_ofInt_legalPc {a : Int} (h : legalPc a) : (BitVec.ofInt 12 a).toNat = a.toNat := by
  obtain ⟨_, h0, h1⟩ := h
  rw [BitVec.toNat_ofInt]
  omega

/-- The final advance and a skip: two further, and `InvalidAddress(0x1000)` at the top (R30). -/
theorem advancePC_two {s : State} (h : s.pc.toNat % 2 = 0) :
    advancePC 2 s =
      if s.pc = 0xFFE#12 then .raised (.invalidAddress 0x1000) s else .ok () { s with pc := s.pc + 2#12 } := by
  have hlt := s.pc.isLt
  unfold advancePC
  by_cases hp : s.pc = 0xFFE#12
  · rw [if_pos hp, hp]
    rw [setPC_raised (by simp [legalPc])]
    rfl
  · have hne : s.pc.toNat ≠ 4094 := fun e => hp (BitVec.eq_of_toNat_eq e)
    have hl : legalPc ((s.pc.toNat : Int) + 2) := by unfold legalPc; omega
    rw [if_neg hp, setPC_ok hl]
    congr 2

/-! ## Return stack (R32, R33) -/

theorem push_ok {a : Int} {s : State} (hs : s.sp.val < 16) (ha : legalPc a) :
    push a s = .ok () { s with
      stack := s.stack.set s.sp.val (BitVec.ofInt 12 a), sp := ⟨s.sp.val + 1, by omega⟩ } := by
  unfold push; rw [dif_neg (by omega), if_pos ha]

theorem push_overflow {s : State} (hs : s.sp.val = 16) (a : Int) : push a s = .raised .stackOverflow s := dif_pos hs

theorem pop_ok {s : State} (hs : 0 < s.sp.val) :
    pop s = .ok (s.stack[s.sp.val - 1]'(by omega)) { s with sp := ⟨s.sp.val - 1, by omega⟩ } :=
  dif_neg (by omega)

theorem pop_underflow {s : State} (hs : s.sp.val = 0) : pop s = .raised .stackUnderflow s := dif_pos hs

/-- A pop after a push gives the address pushed and the depth before it (R33). -/
theorem pop_after_push {a : Int} {s t : State} (h : push a s = .ok () t) :
    pop t = .ok (BitVec.ofInt 12 a) { t with sp := s.sp } := by
  unfold push at h
  split at h
  · cases h
  · split at h
    · cases h
      simp [pop]
    · cases h

/-! ## Timers (R36) -/

theorem setDT_ok {b : Byte} {s : State} (h : timerTakes s.par b) : setDT b s = .ok () { s with dt := b } := if_pos h
theorem setST_ok {b : Byte} {s : State} (h : timerTakes s.par b) : setST b s = .ok () { s with st := b } := if_pos h

theorem setDT_raised {b : Byte} {s : State} (h : ¬timerTakes s.par b) :
    setDT b s = .raised (.timerValueRejected 255#8) s := by
  have hb : b = 255#8 := by by_contra hn; exact h fun e => absurd e hn
  unfold setDT; rw [if_neg h, hb]

theorem setST_raised {b : Byte} {s : State} (h : ¬timerTakes s.par b) :
    setST b s = .raised (.timerValueRejected 255#8) s := by
  have hb : b = 255#8 := by by_contra hn; exact h fun e => absurd e hn
  unfold setST; rw [if_neg h, hb]

/-! ## Draws (R152, R171) -/

/-- A random byte is always answered, and drawing it changes the stream or the counter and nothing else (R223). -/
theorem randByte_cases (s : State) :
    ∃ b rs n, randByte s = .ok b { s with randStream := rs, draws := n } := by
  unfold randByte; split
  · exact ⟨_, _, _, rfl⟩
  · next h => exact ⟨_, s.randStream, _, by rw [h]⟩

/-- A key answer is always given, and drawing it changes the stream or the counter and nothing else (R221). -/
theorem drawKey_cases (s : State) : ∃ p ps n, drawKey s = .ok p { s with keyStream := ps, draws := n } := by
  unfold drawKey; split
  · exact ⟨_, _, _, rfl⟩
  · next h => exact ⟨_, s.keyStream, _, by rw [h]⟩

theorem keyPressed_ok {k : Byte} (h : k.toNat ≤ 15) (s : State) : keyPressed k s = drawKey s := if_neg (by omega)
theorem keyPressed_raised {k : Byte} (h : 15 < k.toNat) (s : State) :
    keyPressed k s = .raised (.invalidRegister k.toNat) s := if_pos h

/-! ## The display (R160, R161, R220) -/

/-- A wrapped offset lies on the display (R161). -/
theorem pixelOffset_lt {par : Config.Params} (hw : 0 < par.displayW) (hh : 0 < par.displayH) (cx cy : Byte) (r b : Nat) :
    pixelOffset par cx cy r b < par.displayW * par.displayH := by
  have h1 := Nat.mod_lt (cy.toNat + r) hh
  have h2 := Nat.mod_lt (cx.toNat + b) hw
  unfold pixelOffset
  calc par.displayW * ((cy.toNat + r) % par.displayH) + (cx.toNat + b) % par.displayW
      < par.displayW * ((cy.toNat + r) % par.displayH) + par.displayW := by omega
    _ = par.displayW * ((cy.toNat + r) % par.displayH + 1) := by ring
    _ ≤ par.displayW * par.displayH := Nat.mul_le_mul_left _ h1

/-- One pixel of a sprite on a display of positive size: the comparison with the old value, and `old XOR bit` written. -/
theorem drawBit_ok {s : State} (hw : 0 < s.par.displayW) (hh : 0 < s.par.displayH) (cx cy row : Byte) (r b : Nat)
    (hit : Bool) :
    drawBit cx cy row r b hit s =
      .ok (hit || fires (spriteBit row b) (s.pixel (pixelOffset s.par cx cy r b)))
        { s with disp := (s.disp.set (pixelOffset s.par cx cy r b)
            (s.pixel (pixelOffset s.par cx cy r b) ^^ spriteBit row b)) } := by
  have hlt := pixelOffset_lt hw hh cx cy r b
  simp [drawBit, dispGet, dispSet, hlt]

/-- A row drawn on a display of positive size completes and changes only the plane, whose length stays. -/
theorem drawBits_cases {s : State} (hw : 0 < s.par.displayW) (hh : 0 < s.par.displayH) (cx cy row : Byte) (r : Nat)
    (bs : List Nat) (hit : Bool) :
    ∃ hit' d, drawBits cx cy row r bs hit s = .ok hit' { s with disp := d } ∧ d.length = s.disp.length := by
  induction bs generalizing hit s with
  | nil => exact ⟨hit, s.disp, rfl, rfl⟩
  | cons b bs ih =>
    rw [drawBits, drawBit_ok hw hh, Res.bind_ok]
    obtain ⟨hit', d, h, hl⟩ := ih (s := { s with disp := (s.disp.set (pixelOffset s.par cx cy r b)
      (s.pixel (pixelOffset s.par cx cy r b) ^^ spriteBit row b)) }) hw hh
      (hit || fires (spriteBit row b) (s.pixel (pixelOffset s.par cx cy r b)))
    exact ⟨hit', d, h, by simpa using hl⟩

/-- Rows drawn on a display of positive size: they complete or raise at a row outside memory, and either way only the plane
changed and its length stays. -/
theorem drawRows_cases {s : State} (hw : 0 < s.par.displayW) (hh : 0 < s.par.displayH) (base : Int) (cx cy : Byte)
    (rs : List Nat) (hit : Bool) :
    (∃ hit' d, drawRows base cx cy rs hit s = .ok hit' { s with disp := d } ∧ d.length = s.disp.length
      ∧ ∀ r ∈ rs, readable (base + r)) ∨
    (∃ r d, r ∈ rs ∧ ¬readable (base + r) ∧
      drawRows base cx cy rs hit s = .raised (.outOfRangeAddress (base + r)) { s with disp := d }
      ∧ d.length = s.disp.length) := by
  induction rs generalizing hit s with
  | nil => exact .inl ⟨hit, s.disp, rfl, rfl, by simp⟩
  | cons r rs ih =>
    by_cases hr : readable (base + r)
    · obtain ⟨hit1, d1, h1, hl1⟩ :=
        drawBits_cases hw hh cx cy (s.byteAt (base + r).toNat) r (List.range 8) hit
      have hstep : drawRows base cx cy (r :: rs) hit s = drawRows base cx cy rs hit1 { s with disp := d1 } := by
        rw [drawRows, memRead_ok hr, Res.bind_ok, h1, Res.bind_ok]
      rcases ih (s := { s with disp := d1 }) hw hh hit1 with ⟨hit2, d2, h2, hl2, hall⟩ | ⟨q, d2, hq, hnr, h2, hl2⟩
      · refine .inl ⟨hit2, d2, by rw [hstep, h2], hl2.trans hl1, ?_⟩
        intro q hq
        rcases List.mem_cons.mp hq with rfl | hq
        · exact hr
        · exact hall q hq
      · exact .inr ⟨q, d2, by simp [hq], hnr, by rw [hstep, h2], hl2.trans hl1⟩
    · exact .inr ⟨r, s.disp, by simp, hr, by rw [drawRows, memRead_raised hr, Res.bind_raised], rfl⟩

/-! ## Loading registers (R182) -/

/-- A run of register loads: it completes, or it raises at an address outside memory, and either way only registers
changed. -/
theorem loadRegs_cases (base : Int) (ks : List Nat) (s : State) :
    (∃ v, loadRegs base ks s = .ok () { s with v := v } ∧ ∀ k ∈ ks, readable (base + k)) ∨
    (∃ k v, k ∈ ks ∧ ¬readable (base + k) ∧
      loadRegs base ks s = .raised (.outOfRangeAddress (base + k)) { s with v := v }) := by
  induction ks generalizing s with
  | nil => exact .inl ⟨s.v, rfl, by simp⟩
  | cons k ks ih =>
    by_cases hk : readable (base + k)
    · have hstep : loadRegs base (k :: ks) s =
          loadRegs base ks (s.setV (BitVec.ofNat 4 k) (s.byteAt (base + k).toNat)) := by
        rw [loadRegs, memRead_ok hk, Res.bind_ok]
      rcases ih (s.setV (BitVec.ofNat 4 k) (s.byteAt (base + k).toNat)) with ⟨v, h, hall⟩ | ⟨q, v, hq, hnr, h⟩
      · refine .inl ⟨v, by rw [hstep, h]; rfl, ?_⟩
        intro q hq
        rcases List.mem_cons.mp hq with rfl | hq
        · exact hk
        · exact hall q hq
      · exact .inr ⟨q, v, by simp [hq], hnr, by rw [hstep, h]; rfl⟩
    · exact .inr ⟨k, s.v, by simp, hk, by rw [loadRegs, memRead_raised hk, Res.bind_raised]⟩

/-! ## Fetch and the phases around the execute phase (R92, R94) -/

/-- From an even program counter the fetch completes, reads the word in memory's byte order and changes nothing (R92, R60). -/
theorem fetch_ok {s : State} (h : s.pc.toNat % 2 = 0) : fetch s = .ok (s.wordAt s.pc.toNat) s := by
  have hlt := s.pc.isLt
  unfold fetch
  rw [memRead_ok (by unfold readable; omega), Res.bind_ok, memRead_ok (by unfold readable; omega), Res.bind_ok]
  congr 2

/-- The final advance from an even program counter (R94, R30). -/
theorem advance_eq (w : Word) {s : State} (h : s.pc.toNat % 2 = 0) :
    advance w s =
      if s.pc = 0xFFE#12 then takeFault (.invalidAddress 0x1000) s
      else { s with pc := s.pc + 2#12, prev := some w } := by
  unfold advance
  rw [advancePC_two h]
  split <;> simp

end Sys2Proof.Machine
end

