-- ==== Sys2Proof/Laws/Exec.lean ====
section
/-!
SUPPORT. Said once for each instruction that can end in more than one way: the states its execute phase can leave; and what a
step can leave, from any state. Frames, invariants and error lists are read off these lemmas.
-/

namespace Sys2Proof.Machine

/-! ## Shared operations -/

/-- The state a run of primitives leaves, completed or not. -/
def Res.left {α : Type} : Res α → State
  | .ok _ s => s
  | .raised _ s => s

/-- A property of the state that the first part leaves and the second keeps is left by the sequence. -/
theorem Res.bind_left {α β : Type} (P : State → Prop) {r : Res α} {k : α → State → Res β} (h : P r.left)
    (hk : ∀ a u, P u → P (k a u).left) : P (r.bind k).left := by
  cases r with
  | ok a s => exact hk a s h
  | raised e s => exact h

/-- `SetPC` moves the program counter or raises (R28). -/
theorem setPC_cases (a : Int) (s : State) :
    (legalPc a ∧ setPC a s = .ok () { s with pc := BitVec.ofInt 12 a }) ∨
    (¬legalPc a ∧ setPC a s = .raised (.invalidAddress a) s) := by
  by_cases h : legalPc a
  · exact .inl ⟨h, setPC_ok h s⟩
  · exact .inr ⟨h, setPC_raised h s⟩

/-- A run of writes completes, or stops at the first address that is not taken (R207). -/
theorem writeCells_cases (base : Int) (cells : List (Nat × Byte)) (s : State) :
    ((∀ c ∈ cells, writable s.par (base + c.1)) ∧ writeCells base cells s = .ok () (putCells base cells s)) ∨
    ∃ pre c post, cells = pre ++ c :: post ∧ (∀ d ∈ pre, writable s.par (base + d.1)) ∧ ¬writable s.par (base + c.1) ∧
      writeCells base cells s = .raised (writeErr (base + c.1)) (putCells base pre s) := by
  have split : (∀ c ∈ cells, writable s.par (base + c.1)) ∨
      ∃ pre c post, cells = pre ++ c :: post ∧ (∀ d ∈ pre, writable s.par (base + d.1)) ∧
        ¬writable s.par (base + c.1) := by
    induction cells with
    | nil => exact .inl (by simp)
    | cons d ds ih =>
      by_cases hd : writable s.par (base + d.1)
      · rcases ih with h | ⟨pre, c, post, rfl, h, hc⟩
        · exact .inl (List.forall_mem_cons.mpr ⟨hd, h⟩)
        · exact .inr ⟨d :: pre, c, post, rfl, List.forall_mem_cons.mpr ⟨hd, h⟩, hc⟩
      · exact .inr ⟨[], d, ds, rfl, by simp, hd⟩
  rcases split with h | ⟨pre, c, post, rfl, h, hc⟩
  · exact .inl ⟨h, writeCells_ok h⟩
  · exact .inr ⟨pre, c, post, rfl, h, hc, writeCells_raised h hc⟩

/-- The state a draw's rows leave differs in the plane alone, on any display. -/
theorem drawRows_left (base : Int) (cx cy : Byte) (rs : List Nat) (hit : Bool) (s : State) :
    ∃ d, (drawRows base cx cy rs hit s).left = { s with disp := d } := by
  have bit : ∀ (row : Byte) (r b : Nat) (hit : Bool) (u : State), (∃ d, u = { s with disp := d }) →
      ∃ d, (drawBit cx cy row r b hit u).left = { s with disp := d } := by
    rintro row r b hit u ⟨d, rfl⟩
    refine Res.bind_left (fun u => ∃ d, u = { s with disp := d }) ?_ fun old u hu =>
      Res.bind_left (fun u => ∃ d, u = { s with disp := d }) ?_ fun _ u hu => hu
    · unfold dispGet; split <;> exact ⟨d, rfl⟩
    · obtain ⟨d', rfl⟩ := hu
      unfold dispSet; split
      · exact ⟨_, rfl⟩
      · exact ⟨d', rfl⟩
  have bits : ∀ (row : Byte) (r : Nat) (bs : List Nat) (hit : Bool) (u : State), (∃ d, u = { s with disp := d }) →
      ∃ d, (drawBits cx cy row r bs hit u).left = { s with disp := d } := by
    intro row r bs
    induction bs with
    | nil => exact fun _ _ hu => hu
    | cons b bs ih =>
      exact fun hit u hu => Res.bind_left (fun u => ∃ d, u = { s with disp := d }) (bit row r b hit u hu) ih
  have rows : ∀ (rs : List Nat) (hit : Bool) (u : State), (∃ d, u = { s with disp := d }) →
      ∃ d, (drawRows base cx cy rs hit u).left = { s with disp := d } := by
    intro rs
    induction rs with
    | nil => exact fun _ _ hu => hu
    | cons r rs ih =>
      intro hit u hu
      refine Res.bind_left (fun u => ∃ d, u = { s with disp := d }) ?_ fun row u hu =>
        Res.bind_left (fun u => ∃ d, u = { s with disp := d }) (bits row r _ hit u hu) ih
      unfold memRead; split <;> exact hu
  exact rows rs hit s ⟨s.disp, rfl⟩

/-! ## Instructions -/

/-- Every execute phase answers a next state (log entry 1). -/
theorem exec_total (i : Instr) (s : State) : ∃ t, exec i s = .next t := by
  cases i <;> exact ⟨_, rfl⟩

/-- RET (R111). -/
theorem execRet_cases {s t : State} (h : exec .ret s = .next t) :
    (s.sp.val = 0 ∧ t = takeFault .stackUnderflow s) ∨
    ∃ (h0 : 0 < s.sp.val) (a : Addr), a = s.stack[s.sp.val - 1]'(by omega) ∧
      ((legalPc (a.toNat : Int) ∧ t = { s with sp := ⟨s.sp.val - 1, by omega⟩, pc := a }) ∨
       (¬legalPc (a.toNat : Int) ∧
        t = takeFault (.invalidAddress a.toNat) { s with sp := ⟨s.sp.val - 1, by omega⟩ })) := by
  simp only [exec, execRet] at h
  by_cases h0 : s.sp.val = 0
  · rw [pop_underflow h0] at h; cases h; exact .inl ⟨h0, rfl⟩
  · refine .inr ⟨by omega, _, rfl, ?_⟩
    rw [pop_ok (by omega), Res.bind_ok] at h
    rcases setPC_cases _ _ with ⟨hl, hs⟩ | ⟨hl, hs⟩ <;> rw [hs] at h <;> cases h
    · exact .inl ⟨hl, by simp⟩
    · exact .inr ⟨hl, rfl⟩

/-- JP (R112). -/
theorem execJp_cases {nnn : Addr} {s t : State} (h : exec (.jp nnn) s = .next t) :
    (legalPc (branchTarget nnn) ∧ t = { s with pc := BitVec.ofInt 12 (branchTarget nnn) }) ∨
    (¬legalPc (branchTarget nnn) ∧ t = takeFault (.invalidAddress (branchTarget nnn)) s) := by
  simp only [exec, execJp] at h
  rcases setPC_cases (branchTarget nnn) s with ⟨hl, hs⟩ | ⟨hl, hs⟩ <;> rw [hs] at h <;> cases h
  · exact .inl ⟨hl, rfl⟩
  · exact .inr ⟨hl, rfl⟩

/-- CALL (R113): the second case is the dead check of R202. -/
theorem execCall_cases {nnn : Addr} {s t : State} (h : exec (.call nnn) s = .next t) :
    (s.sp.val = 16 ∧ t = takeFault .stackOverflow s) ∨
    (¬legalPc (s.pc.toNat : Int) ∧ t = takeFault (.invalidAddress s.pc.toNat) s) ∨
    ∃ (h0 : s.sp.val < 16) (u : State), legalPc (s.pc.toNat : Int) ∧
      u = { s with stack := s.stack.set s.sp.val s.pc, sp := ⟨s.sp.val + 1, by omega⟩ } ∧
      ((legalPc (branchTarget nnn) ∧ t = { u with pc := BitVec.ofInt 12 (branchTarget nnn) }) ∨
       (¬legalPc (branchTarget nnn) ∧ t = takeFault (.invalidAddress (branchTarget nnn)) u)) := by
  simp only [exec, execCall] at h
  by_cases h0 : s.sp.val = 16
  · rw [push_overflow h0] at h; cases h; exact .inl ⟨h0, rfl⟩
  · have h1 : s.sp.val < 16 := by omega
    by_cases hl : legalPc (s.pc.toNat : Int)
    · rw [push_ok h1 hl, Res.bind_ok] at h
      refine .inr (.inr ⟨h1, _, hl, rfl, ?_⟩)
      rcases setPC_cases (branchTarget nnn) _ with ⟨hb, hs⟩ | ⟨hb, hs⟩ <;> rw [hs] at h <;> cases h
      · exact .inl ⟨hb, by simp⟩
      · exact .inr ⟨hb, by simp⟩
    · unfold push at h
      rw [dif_neg h0, if_neg hl] at h
      cases h
      exact .inr (.inl ⟨hl, rfl⟩)

/-- A conditional skip: not taken, taken, or taken at the top of memory (R110). -/
theorem skipIf_cases (c : Bool) (s : State) :
    (c = false ∧ skipIf c s = .ok () s) ∨
    (c = true ∧ legalPc ((s.pc.toNat : Int) + 2) ∧
      skipIf c s = .ok () { s with pc := BitVec.ofInt 12 ((s.pc.toNat : Int) + 2) }) ∨
    (c = true ∧ ¬legalPc ((s.pc.toNat : Int) + 2) ∧
      skipIf c s = .raised (.invalidAddress ((s.pc.toNat : Int) + 2)) s) := by
  cases c with
  | false => exact .inl ⟨rfl, rfl⟩
  | true =>
    rcases setPC_cases ((s.pc.toNat : Int) + 2) s with ⟨hl, hs⟩ | ⟨hl, hs⟩
    · exact .inr (.inl ⟨rfl, hl, hs⟩)
    · exact .inr (.inr ⟨rfl, hl, hs⟩)

/-- SKNP (R170): the key number is rejected, or one answer is drawn and the skip decided by it. -/
theorem execSknp_cases {x : Reg} {s t : State} (h : exec (.sknp x) s = .next t) :
    (15 < (s.getV x).toNat ∧ t = takeFault (.invalidRegister (s.getV x).toNat) s) ∨
    ∃ p ps n, (s.getV x).toNat ≤ 15 ∧ t = (skipIf p { s with keyStream := ps, draws := n }).settle := by
  simp only [exec, execSknp] at h
  by_cases h0 : 15 < (s.getV x).toNat
  · rw [keyPressed_raised h0] at h; cases h; exact .inl ⟨h0, rfl⟩
  · obtain ⟨p, ps, n, hd⟩ := drawKey_cases s
    rw [keyPressed_ok (by omega), hd, Res.bind_ok] at h
    cases h
    exact .inr ⟨!p, ps, n, by omega, rfl⟩

/-- RND (R151). -/
theorem execRnd_cases {x : Reg} {kk : Byte} {s t : State} (h : exec (.rnd x kk) s = .next t) :
    ∃ b rs n, t = ({ s with randStream := rs, draws := n }).setV x (b &&& kk) := by
  simp only [exec, execRnd] at h
  obtain ⟨b, rs, n, hd⟩ := randByte_cases s
  rw [hd, Res.bind_ok] at h
  cases h
  exact ⟨b, rs, n, rfl⟩

/-- DRW (R160, R164): the plane and `VF`, or a free plane and a fault. -/
theorem execDrw_cases {x y : Reg} {n : Nibble} {s t : State} (h : exec (.drw x y n) s = .next t) :
    (∃ hit d, drawRows (indexBase s) (s.getV x) (s.getV y) (List.range n.toNat) false s = .ok hit { s with disp := d } ∧
      t = ({ s with disp := d }).setV regF (flagByte hit)) ∨
    (∃ e d, drawRows (indexBase s) (s.getV x) (s.getV y) (List.range n.toNat) false s = .raised e { s with disp := d } ∧
      t = takeFault e (freePlane s)) := by
  simp only [exec, execDrw, finish_eq] at h
  obtain ⟨d, hd⟩ := drawRows_left (indexBase s) (s.getV x) (s.getV y) (List.range n.toNat) false s
  cases hr : drawRows (indexBase s) (s.getV x) (s.getV y) (List.range n.toNat) false s with
  | ok hit u =>
    rw [hr] at hd h; simp only [Res.left] at hd; subst hd
    cases h
    exact .inl ⟨hit, d, rfl, rfl⟩
  | raised e u =>
    rw [hr] at hd h; simp only [Res.left] at hd; subst hd
    cases h
    exact .inr ⟨e, d, rfl, rfl⟩

/-- LD DT (R176). -/
theorem execLdDtVx_cases {x : Reg} {s t : State} (h : exec (.ldDtVx x) s = .next t) :
    (timerTakes s.par (s.getV x) ∧ t = { s with dt := s.getV x }) ∨
    (¬timerTakes s.par (s.getV x) ∧ t = takeFault (.timerValueRejected 255#8) s) := by
  simp only [exec, execLdDtVx] at h
  by_cases h0 : timerTakes s.par (s.getV x)
  · rw [setDT_ok h0] at h; cases h; exact .inl ⟨h0, rfl⟩
  · rw [setDT_raised h0] at h; cases h; exact .inr ⟨h0, rfl⟩

/-- LD ST (R177). -/
theorem execLdStVx_cases {x : Reg} {s t : State} (h : exec (.ldStVx x) s = .next t) :
    (timerTakes s.par (s.getV x) ∧ t = { s with st := s.getV x }) ∨
    (¬timerTakes s.par (s.getV x) ∧ t = takeFault (.timerValueRejected 255#8) s) := by
  simp only [exec, execLdStVx] at h
  by_cases h0 : timerTakes s.par (s.getV x)
  · rw [setST_ok h0] at h; cases h; exact .inl ⟨h0, rfl⟩
  · rw [setST_raised h0] at h; cases h; exact .inr ⟨h0, rfl⟩

/-- LD B and LD [I] (R180, R181): an execute phase that is a run of writes changes memory, and `FAULT` where it stops. -/
theorem finish_writeCells_cases {base : Int} {cells : List (Nat × Byte)} {s t : State}
    (h : finish (writeCells base cells s) = .next t) :
    ((∀ c ∈ cells, writable s.par (base + c.1)) ∧ t = putCells base cells s) ∨
    ∃ pre c post, cells = pre ++ c :: post ∧ (∀ d ∈ pre, writable s.par (base + d.1)) ∧ ¬writable s.par (base + c.1) ∧
      t = takeFault (writeErr (base + c.1)) (putCells base pre s) := by
  rcases writeCells_cases base cells s with ⟨hw, hs⟩ | ⟨pre, c, post, e, hw, hc, hs⟩ <;> rw [hs] at h <;> cases h
  · exact .inl ⟨hw, rfl⟩
  · exact .inr ⟨pre, c, post, e, hw, hc, rfl⟩

/-- LD Vx, [I] (R182). -/
theorem execLoad_cases {x : Reg} {s t : State} (h : exec (.load x) s = .next t) :
    (∃ v, t = { s with v := v }) ∨
    ∃ (k : Nat) (v : Vector Byte 16), k ≤ x.toNat ∧ ¬readable (indexBase s + k) ∧
      t = takeFault (.outOfRangeAddress (indexBase s + k)) { s with v := v } := by
  simp only [exec, execLoad, finish_eq] at h
  rcases loadRegs_cases (indexBase s) (List.range (x.toNat + 1)) s with ⟨v, hs, -⟩ | ⟨k, v, hk, hn, hs⟩ <;>
    rw [hs] at h <;> cases h
  · exact .inl ⟨v, rfl⟩
  · exact .inr ⟨k, v, by rw [List.mem_range] at hk; omega, hn, rfl⟩

/-- No execute phase touches the calls recorded, the parameters, the Scheduler or PREV (R219, R245, R38). -/
theorem exec_keeps {i : Instr} {s t : State} (h : exec i s = .next t) :
    t.events = s.events ∧ t.par = s.par ∧ t.sched = s.sched ∧ t.prev = s.prev := by
  have skips : ∀ (c : Bool) (u : State), (skipIf c u).settle.events = u.events ∧ (skipIf c u).settle.par = u.par ∧
      (skipIf c u).settle.sched = u.sched ∧ (skipIf c u).settle.prev = u.prev := by
    intro c u
    rcases skipIf_cases c u with ⟨-, e⟩ | ⟨-, -, e⟩ | ⟨-, -, e⟩ <;> rw [e] <;> simp
  cases i with
  | ret => rcases execRet_cases h with ⟨-, rfl⟩ | ⟨_, _, -, ⟨-, rfl⟩ | ⟨-, rfl⟩⟩ <;> simp
  | jp nnn => rcases execJp_cases h with ⟨-, rfl⟩ | ⟨-, rfl⟩ <;> simp
  | call nnn =>
    rcases execCall_cases h with ⟨-, rfl⟩ | ⟨-, rfl⟩ | ⟨_, _, -, rfl, ⟨-, rfl⟩ | ⟨-, rfl⟩⟩ <;> simp
  | seImm x kk => cases h; exact skips _ s
  | sneImm x kk => cases h; exact skips _ s
  | seReg x y => cases h; exact skips _ s
  | sknp x =>
    rcases execSknp_cases h with ⟨-, rfl⟩ | ⟨p, ps, n, -, rfl⟩
    · simp
    · exact skips p _
  | rnd x kk => obtain ⟨_, _, _, rfl⟩ := execRnd_cases h; simp
  | drw x y n => rcases execDrw_cases h with ⟨_, _, -, rfl⟩ | ⟨_, _, -, rfl⟩ <;> simp
  | ldDtVx x => rcases execLdDtVx_cases h with ⟨-, rfl⟩ | ⟨-, rfl⟩ <;> simp
  | ldStVx x => rcases execLdStVx_cases h with ⟨-, rfl⟩ | ⟨-, rfl⟩ <;> simp
  | ldB x => rcases finish_writeCells_cases h with ⟨-, rfl⟩ | ⟨_, _, _, -, -, -, rfl⟩ <;> rw [putCells_frame] <;> simp
  | store x => rcases finish_writeCells_cases h with ⟨-, rfl⟩ | ⟨_, _, _, -, -, -, rfl⟩ <;> rw [putCells_frame] <;> simp
  | load x => rcases execLoad_cases h with ⟨_, rfl⟩ | ⟨_, _, -, -, rfl⟩ <;> simp
  | _ => cases h; simp

/-! ## The step -/

/-- The end of a step: nothing where the execute phase raised, else two further with PREV, or a raise at the top (R94, R207). -/
theorem completeStep_cases (w : Word) (u : State) :
    (u.fault ≠ none ∧ completeStep w u = u) ∨
    (u.fault = none ∧ legalPc ((u.pc.toNat : Int) + 2) ∧
      completeStep w u = { u with pc := BitVec.ofInt 12 ((u.pc.toNat : Int) + 2), prev := some w }) ∨
    (u.fault = none ∧ ¬legalPc ((u.pc.toNat : Int) + 2) ∧
      completeStep w u = takeFault (.invalidAddress ((u.pc.toNat : Int) + 2)) u) := by
  unfold completeStep
  cases hf : u.fault with
  | some e => exact .inl ⟨by simp, rfl⟩
  | none =>
    unfold advance advancePC
    rcases setPC_cases ((u.pc.toNat : Int) + 2) u with ⟨hl, hs⟩ | ⟨hl, hs⟩ <;> rw [hs]
    · exact .inr (.inl ⟨rfl, hl, by simp [hf]⟩)
    · exact .inr (.inr ⟨rfl, hl, rfl⟩)

/-- The fetch changes nothing, wherever the program counter is (R92). -/
theorem fetch_left (s : State) : (fetch s).left = s := by
  refine Res.bind_left (· = s) ?_ fun hi u hu => Res.bind_left (· = s) ?_ fun _ _ hu => hu
  · unfold memRead; split <;> rfl
  · unfold memRead; split <;> exact hu

/-- What a step can leave, from any state: a fault taken before the execute phase, or the end of an execute phase. -/
theorem step_cases {s t : State} (h : step s = .next t) :
    s.fault = none ∧
    ((∃ e, t = takeFault e (timerPhase s)) ∨
     ∃ w i u, decode w = some i ∧ exec i (trace w (timerPhase s)) = .next u ∧ t = completeStep w u) := by
  cases hf : s.fault with
  | some e => unfold step at h; rw [hf] at h; cases h
  | none =>
    refine ⟨rfl, ?_⟩
    unfold step at h
    rw [hf] at h
    have hl := fetch_left (timerPhase s)
    cases hr : fetch (timerPhase s) with
    | raised e u =>
      rw [hr] at h hl; simp only [Res.left] at hl; subst hl
      cases h
      exact .inl ⟨e, rfl⟩
    | ok w u =>
      rw [hr] at h hl; simp only [Res.left] at hl; subst hl
      simp only at h
      cases hd : decode w with
      | none => rw [hd] at h; cases h; exact .inl ⟨_, rfl⟩
      | some i =>
        obtain ⟨v, hv⟩ := exec_total i (trace w (timerPhase s))
        rw [hd] at h; simp only [hv] at h
        cases h
        exact .inr ⟨w, i, v, hd, hv, rfl⟩

/-- A step touches neither the Scheduler nor the parameters, and calls no listener (R219, R245). -/
theorem step_keeps {s t : State} (h : step s = .next t) (id : Nat) :
    t.sched = s.sched ∧ t.par = s.par ∧ t.events.countP (Event.calls id) = s.events.countP (Event.calls id) := by
  have timers : (timerPhase s).events.countP (Event.calls id) = s.events.countP (Event.calls id) := by
    rw [timerPhase_events]; split <;> simp [Event.calls]
  obtain ⟨-, ⟨e, rfl⟩ | ⟨w, i, u, -, hu, rfl⟩⟩ := step_cases h
  · exact ⟨by simp, by simp, timers⟩
  · obtain ⟨he, hp, hs, -⟩ := exec_keeps hu
    have traced : u.events.countP (Event.calls id) = s.events.countP (Event.calls id) := by
      rw [he, trace_events, ← timers]; split <;> simp [Event.calls]
    have hs' : u.sched = s.sched := by simpa using hs
    have hp' : u.par = s.par := by simpa using hp
    rcases completeStep_cases w u with ⟨-, hc⟩ | ⟨-, -, hc⟩ | ⟨-, -, hc⟩ <;> rw [hc] <;> exact ⟨hs', hp', traced⟩

end Sys2Proof.Machine
end

