-- ==== Sys2Proof/Laws/PerInstr.lean ====
section
/-!
SUPPORT. Per instruction: the word the encoder gives matches the instruction's own row of the opcode map (spec/30_encoding.md
R86), and that row is one of the 26.
-/

namespace Sys2Proof.Laws.OwnRow

/-- The instruction's word matches the mask and value of its own row, and the row stands in the map. -/
def Statement (i : Instr) : Prop := (rowOf i).covers (encode i) = true ∧ rowOf i ∈ opcodeRows

theorem covers_of_eq {r : OpRow} {w : Word} (h : w &&& r.mask = r.value) : r.covers w = true := decide_eq_true h

theorem ret : Statement .ret := ⟨rfl, by decide⟩
theorem jp (nnn : Addr) : Statement (.jp nnn) := ⟨covers_of_eq (mask_addr _ _), by simp [rowOf, opcodeRows]⟩
theorem call (nnn : Addr) : Statement (.call nnn) := ⟨covers_of_eq (mask_addr _ _), by simp [rowOf, opcodeRows]⟩
theorem seImm (x : Reg) (kk : Byte) : Statement (.seImm x kk) :=
  ⟨covers_of_eq (mask_family_byte _ _ _), by simp [rowOf, opcodeRows]⟩
theorem sneImm (x : Reg) (kk : Byte) : Statement (.sneImm x kk) :=
  ⟨covers_of_eq (mask_family_byte _ _ _), by simp [rowOf, opcodeRows]⟩
theorem seReg (x y : Reg) : Statement (.seReg x y) :=
  ⟨covers_of_eq (mask_nibbles _ _ _ _), by simp [rowOf, opcodeRows]⟩
theorem ldImm (x : Reg) (kk : Byte) : Statement (.ldImm x kk) :=
  ⟨covers_of_eq (mask_family_byte _ _ _), by simp [rowOf, opcodeRows]⟩
theorem addImm (x : Reg) (kk : Byte) : Statement (.addImm x kk) :=
  ⟨covers_of_eq (mask_family_byte _ _ _), by simp [rowOf, opcodeRows]⟩
theorem ldReg (x y : Reg) : Statement (.ldReg x y) :=
  ⟨covers_of_eq (mask_nibbles _ _ _ _), by simp [rowOf, opcodeRows]⟩
theorem andReg (x y : Reg) : Statement (.andReg x y) :=
  ⟨covers_of_eq (mask_nibbles _ _ _ _), by simp [rowOf, opcodeRows]⟩
theorem addReg (x y : Reg) : Statement (.addReg x y) :=
  ⟨covers_of_eq (mask_nibbles _ _ _ _), by simp [rowOf, opcodeRows]⟩
theorem subReg (x y : Reg) : Statement (.subReg x y) :=
  ⟨covers_of_eq (mask_nibbles _ _ _ _), by simp [rowOf, opcodeRows]⟩
theorem shr (x y : Reg) : Statement (.shr x y) := ⟨covers_of_eq (mask_nibbles _ _ _ _), by simp [rowOf, opcodeRows]⟩
theorem shl (x y : Reg) : Statement (.shl x y) := ⟨covers_of_eq (mask_nibbles _ _ _ _), by simp [rowOf, opcodeRows]⟩
theorem ldI (nnn : Addr) : Statement (.ldI nnn) := ⟨covers_of_eq (mask_addr _ _), by simp [rowOf, opcodeRows]⟩
theorem rnd (x : Reg) (kk : Byte) : Statement (.rnd x kk) :=
  ⟨covers_of_eq (mask_family_byte _ _ _), by simp [rowOf, opcodeRows]⟩
theorem drw (x y : Reg) (n : Nibble) : Statement (.drw x y n) :=
  ⟨covers_of_eq (mask_family_nibbles _ _ _ _), by simp [rowOf, opcodeRows]⟩
theorem sknp (x : Reg) : Statement (.sknp x) :=
  ⟨covers_of_eq (mask_function_byte _ _ _), by simp [rowOf, opcodeRows]⟩
theorem ldVxDt (x : Reg) : Statement (.ldVxDt x) :=
  ⟨covers_of_eq (mask_function_byte _ _ _), by simp [rowOf, opcodeRows]⟩
theorem ldDtVx (x : Reg) : Statement (.ldDtVx x) :=
  ⟨covers_of_eq (mask_function_byte _ _ _), by simp [rowOf, opcodeRows]⟩
theorem ldStVx (x : Reg) : Statement (.ldStVx x) :=
  ⟨covers_of_eq (mask_function_byte _ _ _), by simp [rowOf, opcodeRows]⟩
theorem addI (x : Reg) : Statement (.addI x) :=
  ⟨covers_of_eq (mask_function_byte _ _ _), by simp [rowOf, opcodeRows]⟩
theorem ldF (x : Reg) : Statement (.ldF x) :=
  ⟨covers_of_eq (mask_function_byte _ _ _), by simp [rowOf, opcodeRows]⟩
theorem ldB (x : Reg) : Statement (.ldB x) :=
  ⟨covers_of_eq (mask_function_byte _ _ _), by simp [rowOf, opcodeRows]⟩
theorem store (x : Reg) : Statement (.store x) :=
  ⟨covers_of_eq (mask_function_byte _ _ _), by simp [rowOf, opcodeRows]⟩
theorem load (x : Reg) : Statement (.load x) :=
  ⟨covers_of_eq (mask_function_byte _ _ _), by simp [rowOf, opcodeRows]⟩

end Sys2Proof.Laws.OwnRow
end

