-- ==== Sys2Proof/Laws/Scheduler.lean ====
section
/-!
SUPPORT. For each operation of the Scheduler, what it can do, said once: which listeners it calls, and that it leaves the
Scheduler's own state alone but where an error empties the list.
-/

namespace Sys2Proof.Machine

/-- Telling a list of listeners records one call each, in order, and nothing else (R218). -/
theorem notifyAll_eq (e : TickError) (l : List Subscriber) (s : State) :
    notifyAll e l s = { s with events := (l.map fun q => Event.onError q.id e).reverse ++ s.events } := by
  induction l generalizing s with
  | nil => rfl
  | cons q l ih => rw [notifyAll, ih]; simp [State.record]

/-- A batch of steps leaves the Scheduler alone and calls no listener (R218, R219). -/
theorem runBatch_keeps (id n : Nat) (s : State) :
    (runBatch n s).1.sched = s.sched ∧
      (runBatch n s).1.events.countP (Event.calls id) = s.events.countP (Event.calls id) := by
  induction n generalizing s with
  | zero => exact ⟨rfl, rfl⟩
  | succ n ih =>
    rw [runBatch]
    cases hs : step s with
    | next t =>
      obtain ⟨h1, -, h2⟩ := step_keeps hs id
      cases hf : t.fault with
      | none => simp only [hf]; exact ⟨(ih t).1.trans h1, (ih t).2.trans h2⟩
      | some e => simp only [hf]; exact ⟨h1, h2⟩
    | fault e => cases e; exact ⟨rfl, rfl⟩
    | refused r => exact ⟨rfl, rfl⟩

/-- A listener's `onTick` leaves the Scheduler alone and is no call to another listener (R218). -/
theorem onTick_keeps (raising : List Nat) (sub : Subscriber) (s : State) (id : Nat) :
    (onTick raising sub s).1.sched = s.sched ∧
      (sub.id ≠ id →
        (onTick raising sub s).1.events.countP (Event.calls id) = s.events.countP (Event.calls id)) := by
  have called : sub.id ≠ id →
      (s.record (.onTick sub.id)).events.countP (Event.calls id) = s.events.countP (Event.calls id) := by
    intro h; simp [State.record, Event.calls, h]
  unfold onTick
  split
  · obtain ⟨h1, h2⟩ := runBatch_keeps id s.par.batch (s.record (.onTick sub.id))
    exact ⟨h1, fun h => h2.trans (called h)⟩
  · exact ⟨rfl, called⟩

end Sys2Proof.Machine
end

