-- ==== Sys2Proof/Tests/Slice0.lean ====
section
/-!
SUPPORT. The model's own tests: ill-formed launch data refused, words written out from the rows of R86, single steps with the
expected values of spec/95_test_vectors.md (named in each docstring), and for every obligation with hypotheses a witness that
meets them.
-/

namespace Sys2Proof.Tests

open Sys2Proof Sys2Proof.Machine

/-! ## Helpers -/

/-- The state after one step, where there is one. -/
def after (s : State) : Option State :=
  match step s with
  | .next t => some t
  | .fault _ => none
  | .refused _ => none

/-- The state after an execute phase, where there is one. -/
def afterExec (i : Instr) (s : State) : Option State :=
  match exec i s with
  | .next t => some t
  | .fault _ => none
  | .refused _ => none

/-- One step, or the state itself. -/
def stepped (s : State) : State := (after s).getD s

theorem step_eq_stepped {s : State} (h : (after s).isSome = true) : step s = .next (stepped s) := by
  unfold stepped after at *
  cases hs : step s <;> simp_all

/-- One execute phase, or the state itself. -/
def ran (i : Instr) (s : State) : State := (afterExec i s).getD s

theorem exec_eq_ran {i : Instr} {s : State} (h : (afterExec i s).isSome = true) : exec i s = .next (ran i s) := by
  unfold ran afterExec at *
  cases hs : exec i s <;> simp_all

/-- The state after reset with a word at the program counter: the start of the vectors of spec/95_test_vectors.md. -/
def at200 (w : Nat) : State := State.reset.withFetchWord 16 w

/-- The same state with some registers set, by number. -/
def withV (vs : List (Reg × Byte)) (s : State) : State := vs.foldl (fun s p => s.setV p.1 p.2) s

/-- The same state with some bytes of memory set. -/
def withMem (bs : List (Nat × Byte)) (s : State) : State := bs.foldl (fun s p => s.setByte p.1 p.2) s

/-- A word placed at another even address, with the program counter there. -/
def atPc (a : Addr) (w : Nat) : State := ({ State.reset with pc := a }).withFetchWord 16 w

/-- A state with a display of 8 by 2 pixels. -/
def small : State :=
  { State.reset with par := { defaultParams with displayW := 8, displayH := 2 }, disp := List.replicate 16 false }

/-- A word at 0x200 on the small display. -/
def smallAt (w : Nat) : State := small.withFetchWord 16 w

/-- The offsets of the pixels that are lit, below a bound. -/
def litBelow (n : Nat) (s : State) : List Nat := (List.range n).filter fun o => s.pixel o

/-! ## Well-formedness: every check refuses an ill-formed term (R7, R70, R220) -/

theorem test_wf_program_at_the_limit : programWf (List.replicate 3584 0) = true := by
  rw [programWf, List.length_replicate]; decide
theorem test_wf_program_too_long : programWf (List.replicate 3585 0) = false := by
  rw [programWf, List.length_replicate]; decide
theorem test_wf_default_params : defaultParams.wf = true := by decide
theorem test_wf_no_width : ({ defaultParams with displayW := 0 } : Config.Params).wf = false := by decide
theorem test_wf_no_height : ({ defaultParams with displayH := 0 } : Config.Params).wf = false := by decide
theorem test_wf_short_font : ({ defaultParams with font := List.replicate 79 0 } : Config.Params).wf = false := by decide
theorem test_wf_no_batch : ({ defaultParams with batch := 0 } : Config.Params).wf = false := by decide
theorem test_wf_short_plane : planeWf small.par (List.replicate 15 false) = false := by decide
theorem test_launch_refuses_short_plane :
    (match launch small.par (List.replicate 15 false) [] [] [] with
      | .refused r => some r
      | .next _ => none
      | .fault _ => none) = some .badLaunch := by decide
/-- Cells out of order, a cell outside memory, and a cell that says what an unlisted byte says. -/
theorem test_memory_form_refuses :
    ¬Memory.wf defaultFont [(0x301, 1), (0x300, 1)] ∧ ¬Memory.wf defaultFont [(0x1000, 1)] ∧
    ¬Memory.wf defaultFont [(0x300, 0)] ∧ ¬Memory.wf defaultFont [(0x000, 0xF0)] := by decide

/-! ## Decoding: each row's word, its digits written from the pattern of R86 -/

theorem test_decode_ret : decode 0b0000000011101110#16 = some (.ret) := by decide
theorem test_decode_jp : decode 0b0001001100000000#16 = some (.jp 0x300) := by decide
theorem test_decode_call : decode 0b0010001000010000#16 = some (.call 0x210) := by decide
theorem test_decode_seImm : decode 0b0011000000000101#16 = some (.seImm 0x0 0x05) := by decide
theorem test_decode_sneImm : decode 0b0100000111111110#16 = some (.sneImm 0x1 0xFE) := by decide
theorem test_decode_seReg : decode 0b0101000100100000#16 = some (.seReg 0x1 0x2) := by decide
theorem test_decode_ldImm : decode 0b0110000000000101#16 = some (.ldImm 0x0 0x05) := by decide
theorem test_decode_addImm : decode 0b0111000011111010#16 = some (.addImm 0x0 0xFA) := by decide
theorem test_decode_ldReg : decode 0b1000001000010000#16 = some (.ldReg 0x2 0x1) := by decide
theorem test_decode_andReg : decode 0b1000000000010010#16 = some (.andReg 0x0 0x1) := by decide
theorem test_decode_addReg : decode 0b1000000000010100#16 = some (.addReg 0x0 0x1) := by decide
theorem test_decode_subReg : decode 0b1000001000000101#16 = some (.subReg 0x2 0x0) := by decide
theorem test_decode_shr : decode 0b1000001100000110#16 = some (.shr 0x3 0x0) := by decide
theorem test_decode_shl : decode 0b1000010000011110#16 = some (.shl 0x4 0x1) := by decide
theorem test_decode_ldI : decode 0b1010000100100011#16 = some (.ldI 0x123) := by decide
theorem test_decode_rnd : decode 0b1100000100001111#16 = some (.rnd 0x1 0x0F) := by decide
theorem test_decode_drw : decode 0b1101000000010010#16 = some (.drw 0x0 0x1 0x2) := by decide
theorem test_decode_sknp : decode 0b1110000110100001#16 = some (.sknp 0x1) := by decide
theorem test_decode_ldVxDt : decode 0b1111001100000111#16 = some (.ldVxDt 0x3) := by decide
theorem test_decode_ldDtVx : decode 0b1111000000010101#16 = some (.ldDtVx 0x0) := by decide
theorem test_decode_ldStVx : decode 0b1111000100011000#16 = some (.ldStVx 0x1) := by decide
theorem test_decode_addI : decode 0b1111001000011110#16 = some (.addI 0x2) := by decide
theorem test_decode_ldF : decode 0b1111010000101001#16 = some (.ldF 0x4) := by decide
theorem test_decode_ldB : decode 0b1111000000110011#16 = some (.ldB 0x0) := by decide
theorem test_decode_store : decode 0b1111001001010101#16 = some (.store 0x2) := by decide
theorem test_decode_load : decode 0b1111001001100101#16 = some (.load 0x2) := by decide
/-- The boundary words of spec/95_test_vectors.md. -/
theorem test_decode_boundaries :
    decode 0x1FFF#16 = some (.jp 0xFFF) ∧ decode 0x5FF0#16 = some (.seReg 0xF 0xF) ∧ decode 0x8FFE#16 = some (.shl 0xF 0xF) ∧
    decode 0xDFF0#16 = some (.drw 0xF 0xF 0x0) ∧ decode 0xEFA1#16 = some (.sknp 0xF) ∧
    decode 0xFF65#16 = some (.load 0xF) := by decide
/-- UW1 to UW9 and the nine standard words of R89 that this hardware lacks. -/
theorem test_decode_unsupported :
    [0x0000#16, 0x0123#16, 0x00E0#16, 0x01EE#16, 0x5121#16, 0x8011#16, 0x8013#16, 0x8017#16, 0x9230#16, 0xB200#16,
      0xE19E#16, 0xF00A#16, 0xF0FF#16].all (fun w => decide (decode w = none)) = true := by decide
/-- The host's numbering of a table word, and a truncated list of bytes. -/
theorem test_decode_table_word :
    decodeTableWord 16 0x8014 = some (.addReg 0x0 0x1) ∧ decodeTableWord 16 0x8011 = none ∧
    decodeBytes [0x60#8] = .error .truncated := by decide
theorem test_encode_bytes_big_endian : encodeBytes (.ldImm 0x0 0x05) = [0x60#8, 0x05#8] := by decide

/-! ## One step, vector by vector (spec/95_test_vectors.md) -/

/-- CF14. -/
theorem test_ret_returns_after_the_call :
    (after ({ at200 0x00EE with sp := 1, stack := State.reset.stack.set 0 0x204 })).map (fun t => (t.pc, t.sp, t.fault)) =
      some (0x206#12, 0, none) := by decide
/-- CF13. -/
theorem test_ret_underflow :
    (after (at200 0x00EE)).map (fun t => (t.pc, t.fault)) =
      some (0x200#12, some .stackUnderflow) := by decide
/-- CF8. -/
theorem test_jp :
    (after (at200 0x1300)).map (fun t => (t.pc, t.prev)) =
      some (0x300#12, some 0x1300#16) := by decide
/-- CF9. -/
theorem test_jp_zero :
    (after (at200 0x1000)).map (fun t => (t.pc, t.fault)) =
      some (0x200#12, some (.invalidAddress (-2))) := by decide
/-- CF12. -/
theorem test_call :
    (after (at200 0x2300)).map (fun t => (t.pc, t.sp, t.stack[0])) =
      some (0x300#12, 1, 0x200#12) := by decide
/-- CF17. -/
theorem test_call_odd_target_keeps_the_push :
    (after (at200 0x2301)).map (fun t => (t.pc, t.sp, t.stack[0], t.fault)) =
      some (0x200#12, 1, 0x200#12, some (.invalidAddress 0x2FF)) := by decide
/-- CF1. -/
theorem test_seImm_taken :
    (after (withV [(0x0, 0x05)] (at200 0x3005))).map (fun t => t.pc) =
      some 0x204#12 := by decide
/-- CF19. -/
theorem test_seImm_taken_below_the_top :
    (after (atPc 0xFFC 0x3000)).map (fun t => (t.pc, t.fault)) =
      some (0xFFE#12, some (.invalidAddress 0x1000)) := by decide
/-- CF3. -/
theorem test_sneImm_taken :
    (after (withV [(0x0, 0x04)] (at200 0x4005))).map (fun t => t.pc) =
      some 0x204#12 := by decide
/-- CF4. -/
theorem test_sneImm_not_taken :
    (after (withV [(0x0, 0x05)] (at200 0x4005))).map (fun t => t.pc) =
      some 0x202#12 := by decide
/-- CF5. -/
theorem test_seReg_taken :
    (after (withV [(0x1, 0x09), (0x2, 0x09)] (at200 0x5120))).map (fun t => t.pc) =
      some 0x204#12 := by decide
/-- CF6. -/
theorem test_seReg_not_taken :
    (after (withV [(0x1, 0x09), (0x2, 0x08)] (at200 0x5120))).map (fun t => t.pc) =
      some 0x202#12 := by decide
/-- S3 and AL1. -/
theorem test_ldImm :
    (after (at200 0x6005)).map (fun t => (t.getV 0x0, t.pc, t.prev)) =
      some (0x05#8, 0x202#12, some 0x6005#16) := by decide
/-- AL2. -/
theorem test_addImm_wraps_without_flag :
    (after (withV [(0x0, 0x0A), (0xF, 0x55)] (at200 0x70FA))).map (fun t => (t.getV 0x0, t.getV 0xF)) =
      some (0x04#8, 0x55#8) := by decide
/-- AL4. -/
theorem test_ldReg :
    (after (withV [(0x1, 0x64)] (at200 0x8210))).map (fun t => t.getV 0x2) =
      some 0x64#8 := by decide
/-- AL5. -/
theorem test_andReg :
    (after (withV [(0x0, 0xF0), (0x1, 0x3C), (0xF, 0x42)] (at200 0x8012))).map (fun t => (t.getV 0x0, t.getV 0xF)) =
      some (0x30#8, 0x42#8) := by decide
/-- AL8. -/
theorem test_addReg_carry :
    (after (withV [(0x0, 0xFF), (0x1, 0x01)] (at200 0x8014))).map (fun t => (t.getV 0x0, t.getV 0xF)) =
      some (0x00#8, 0x01#8) := by decide
/-- AL9. -/
theorem test_addReg_into_VF :
    (after (withV [(0x1, 0x20), (0xF, 0xF0)] (at200 0x8F14))).map (fun t => t.getV 0xF) =
      some 0x01#8 := by decide
/-- AL14. -/
theorem test_subReg_borrow :
    (after (withV [(0x0, 0x03), (0x1, 0x05)] (at200 0x8015))).map (fun t => (t.getV 0x0, t.getV 0xF)) =
      some (0xFE#8, 0x00#8) := by decide
/-- AL15. -/
theorem test_subReg_into_VF :
    (after (withV [(0x1, 0x03), (0xF, 0x0A)] (at200 0x8F15))).map (fun t => t.getV 0xF) =
      some 0x07#8 := by decide
/-- AL19. -/
theorem test_shr_shifts_Vy :
    (after (withV [(0x0, 0xAA), (0x1, 0x05)] (at200 0x8016))).map (fun t => (t.getV 0x0, t.getV 0x1, t.getV 0xF)) =
      some (0xAA#8, 0x02#8, 0x01#8) := by decide
/-- AL20. -/
theorem test_shr_of_VF :
    (after (withV [(0xF, 0x03)] (at200 0x80F6))).map (fun t => t.getV 0xF) =
      some 0x01#8 := by decide
/-- AL22. -/
theorem test_shl_shifts_Vy :
    (after (withV [(0x1, 0x64), (0x4, 0x77)] (at200 0x841E))).map (fun t => (t.getV 0x1, t.getV 0x4, t.getV 0xF)) =
      some (0xC8#8, 0x77#8, 0x00#8) := by decide
/-- AL24. -/
theorem test_shl_of_VF :
    (after (withV [(0xF, 0xC1)] (at200 0x80FE))).map (fun t => t.getV 0xF) =
      some 0x82#8 := by decide
/-- IR1. -/
theorem test_ldI :
    (after (at200 0xA123)).map (fun t => t.i) =
      some 0x0123#16 := by decide
/-- IR3. -/
theorem test_rnd_masks_the_draw :
    (after ({ at200 0xC10F with randStream := [0xA7, 0x11] })).map (fun t => (t.getV 0x1, t.randStream)) =
      some (0x07#8, [0x11#8]) := by decide
/-- IR4, with no stream given. -/
theorem test_rnd_mask_zero :
    (after (withV [(0x1, 0x55)] (at200 0xC100))).map (fun t => (t.fault, t.draws)) =
      some (none, 1) := by decide
/-- DW3. -/
theorem test_drw_equality_collision :
    (after ({ withMem [(0x300, 0xF0)] (at200 0xD011) with i := 0x300 })).map (fun t => (litBelow 12 t, t.getV 0xF)) =
      some ([0, 1, 2, 3], 0x01#8) := by decide
/-- DW7; and by hand from R160, two rows at column 3 and row 1 of a display 8 wide and 2 high: offsets 11 and 12, and then, one row
down and wrapped to row 0, columns 3 and (3 + 7) mod 8. -/
theorem test_drw_wraps :
    (after ({ withV [(0x0, 0x3F)] (withMem [(0x300, 0xC0)] (at200 0xD011)) with i := 0x300 })).map (fun t => (litBelow 70 t, t.getV 0xF)) =
      some ([0, 63], 0x01#8) ∧
    (after ({ withV [(0x0, 0x03), (0x1, 0x01)] (withMem [(0x300, 0xC0), (0x301, 0x81)] (smallAt 0xD012)) with i := 0x300 })).map
      (fun t => (litBelow 16 t, t.getV 0xF)) = some ([2, 3, 11, 12], 0x01#8) := by decide
/-- KY2. -/
theorem test_sknp_released :
    (after ({ withV [(0x1, 0x05)] (at200 0xE1A1) with keyStream := [false] })).map (fun t => (t.pc, t.keyStream)) =
      some (0x204#12, []) := by decide
/-- KY3. -/
theorem test_sknp_key_16 :
    (after (withV [(0x1, 0x10)] (at200 0xE1A1))).map (fun t => (t.pc, t.fault)) =
      some (0x200#12, some (.invalidRegister 16)) := by decide
/-- FX1. -/
theorem test_ldVxDt_after_decrement :
    (after ({ at200 0xF307 with dt := 5 })).map (fun t => (t.dt, t.getV 0x3)) =
      some (0x04#8, 0x04#8) := by decide
/-- FX4. -/
theorem test_ldDtVx_254 :
    (after (withV [(0x0, 0xFE)] (at200 0xF015))).map (fun t => (t.dt, t.fault)) =
      some (0xFE#8, none) := by decide
/-- FX5. -/
theorem test_ldDtVx_255 :
    (after ({ withV [(0x0, 0xFF)] (at200 0xF015) with dt := 4 })).map (fun t => (t.dt, t.pc, t.fault)) =
      some (0x03#8, 0x200#12, some (.timerValueRejected 255)) := by decide
/-- FX7. -/
theorem test_ldStVx :
    (after (withV [(0x1, 0x02)] (at200 0xF118))).map (fun t => (t.st, t.beeps)) =
      some (0x02#8, 0) := by decide
/-- FX8. -/
theorem test_ldStVx_255 :
    (after (withV [(0x1, 0xFF)] (at200 0xF118))).map (fun t => (t.st, t.fault)) =
      some (0x00#8, some (.timerValueRejected 255)) := by decide
/-- FX9. -/
theorem test_timer_beeps_once :
    (after ({ at200 0x6000 with st := 1 })).map (fun t => (t.st, t.beeps)) =
      some (0x00#8, 1) := by decide
/-- FX11. -/
theorem test_addI_above_memory :
    (after ({ withV [(0x0, 0x02)] (at200 0xF01E) with i := 0x0FFF })).map (fun t => (t.i, t.fault)) =
      some (0x1001#16, none) := by decide
/-- FX12. -/
theorem test_addI_wraps :
    (after ({ withV [(0x0, 0x02)] (at200 0xF01E) with i := 0xFFFF })).map (fun t => t.i) =
      some 0x0001#16 := by decide
/-- FX15. -/
theorem test_ldF_not_masked :
    (after (withV [(0x0, 0xFF)] (at200 0xF029))).map (fun t => t.i) =
      some 0x04FB#16 := by decide
/-- FX16. -/
theorem test_ldB_table :
    (after ({ withV [(0x0, 0xFE)] (at200 0xF033) with i := 0x300 })).map (fun t => (t.byteAt 0x300, t.byteAt 0x301, t.byteAt 0x302)) =
      some (0x02#8, 0x05#8, 0x04#8) := by decide
/-- FX20. -/
theorem test_ldB_shifted_out_of_range :
    (after ({ withV [(0x0, 0x7B)] (at200 0xF033) with i := 0xFFD, par := { defaultParams with bcdLayout := .shifted } })).map (fun t => (t.byteAt 0xFFE, t.byteAt 0xFFF, t.fault)) =
      some (0x01#8, 0x02#8, some (.outOfRangeAddress 0x1000)) := by decide
/-- FX22. -/
theorem test_store :
    (after ({ withV [(0x0, 0x01), (0x1, 0x02), (0x2, 0x03), (0x3, 0x04)] (at200 0xF255) with i := 0x300 })).map (fun t => (t.byteAt 0x300, t.byteAt 0x302, t.byteAt 0x303, t.i)) =
      some (0x01#8, 0x03#8, 0x00#8, 0x300#16) := by decide
/-- FX24. -/
theorem test_store_into_the_font :
    (after ({ withV [(0x0, 0x01), (0x1, 0x02), (0x2, 0x03)] (at200 0xF255) with i := 0x04E })).map (fun t => (t.byteAt 0x04E, t.fault)) =
      some (0x80#8, some (.fontRegionWrite 0x04E)) := by decide
/-- FX27. -/
theorem test_load_font :
    (after (at200 0xFF65)).map (fun t => (t.getV 0x0, t.getV 0x5, t.getV 0xF)) =
      some (0xF0#8, 0x20#8, 0xF0#8) := by decide
/-- FX28. -/
theorem test_load_out_of_range :
    (after ({ withV [(0x2, 0x33)] (withMem [(0xFFE, 0x07), (0xFFF, 0x08)] (at200 0xF265)) with i := 0xFFE })).map (fun t => (t.getV 0x0, t.getV 0x1, t.getV 0x2, t.fault)) =
      some (0x07#8, 0x08#8, 0x33#8, some (.outOfRangeAddress 0x1000)) := by decide
/-- UW6. -/
theorem test_unsupported_after_the_timers :
    (after ({ withV [(0x0, 0x01)] (at200 0x9230) with dt := 3 })).map (fun t => (t.dt, t.pc, t.getV 0x0, t.fault)) =
      some (0x02#8, 0x200#12, 0x01#8, some (.unsupportedInstruction 0x9230 none)) := by decide
/-- CF24. -/
theorem test_skipped_word_is_not_decoded :
    (after (at200 0x3000)).map (fun t => (t.pc, t.fault)) =
      some (0x204#12, none) := by decide
/-- R224. -/
theorem test_trace_of_the_decoded_word :
    (after ({ at200 0x6005 with par := { defaultParams with traceSink := true } })).map (fun t => t.events) =
      some [.trace 0x6005#16] := by decide
/-- R242: the first step after `Reset` of the empty program. -/
theorem test_first_step_of_the_empty_program :
    (after State.reset).map (fun t => (t.pc, t.fault)) =
      some (0x200#12, some (.unsupportedInstruction 0x0000 none)) := by decide
/-- R209: a faulted state takes no step. -/
theorem test_faulted_state_takes_no_step : after { at200 0x6005 with fault := some .stackOverflow } = none := by decide
/-- R86: a word of every row runs as the first instruction after reset. -/
theorem test_every_row_runs_first :
    [0x00EE, 0x1000, 0x2000, 0x3000, 0x4000, 0x5000, 0x6000, 0x7000, 0x8000, 0x8002, 0x8004, 0x8005, 0x8006, 0x800E,
      0xA000, 0xC000, 0xD000, 0xE0A1, 0xF007, 0xF015, 0xF018, 0xF01E, 0xF029, 0xF033, 0xF055, 0xF065].all
      (fun w => (after (at200 w)).isSome && (decodeTableWord 16 w).isSome) = true := by decide
/-- R217: the drift is forgotten where it exceeds the interval, and shortens the wait otherwise. -/
theorem test_drift : nextDrift 10 0 13 = 3 ∧ nextDrift 10 0 21 = 0 ∧ tickWait 10 3 = 7 ∧ tickWait 10 13 = 0 := by decide
/-- R218: a batch that faults tells every subscriber, in order, and empties the list. -/
theorem test_tick_stops_at_the_error :
    (runTick [] { State.reset with sched := { subs := [⟨7, true⟩, ⟨8, false⟩], drift := 0 } }).sched.subs = [] ∧
    (runTick [] { State.reset with sched := { subs := [⟨7, true⟩, ⟨8, false⟩], drift := 0 } }).events =
      [.onError 8 (.step (.unsupportedInstruction 0 none)), .onError 7 (.step (.unsupportedInstruction 0 none)),
        .onTick 7] := by decide

/-! ## Witnesses: for every obligation with hypotheses, states and operands that meet them, each clause at a boundary -/

/-- The fetch of a word is decidable; a witness is checked by computing it. -/
theorem fetches_of {s : State} {i : Instr} (h : s.fault = none ∧ s.pc.toNat % 2 = 0 ∧ s.wordAt s.pc.toNat = encode i) :
    s.Fetches i := h

/-- The invariant, checked part by part. -/
theorem inv_of {s : State} (h : s.mem.wf s.par.font ∧ s.pc.toNat % 2 = 0 ∧ (∀ j : Fin 16, (s.stack[j]).toNat % 2 = 0) ∧
    s.disp.length = s.par.displayW * s.par.displayH ∧ s.par.wf = true ∧ timerTakes s.par s.dt ∧ timerTakes s.par s.st) :
    s.Inv := ⟨h.1, h.2.1, h.2.2.1, h.2.2.2.1, h.2.2.2.2.1, h.2.2.2.2.2.1, h.2.2.2.2.2.2⟩

/-- A word that decodes. -/
theorem test_witness_EncodeOfDecodeIsTheWord :
    decode 0x6005#16 = some (.ldImm 0x0 0x05) :=
  by decide
/-- A word and a row that matches it. -/
theorem test_witness_NoWordMatchesTwoRows :
    ⟨0xF000#16, 0x1000#16⟩ ∈ opcodeRows ∧ OpRow.covers ⟨0xF000#16, 0x1000#16⟩ 0x1FFF#16 = true :=
  by decide
/-- A state about to fetch an unsupported word. -/
theorem test_witness_UnsupportedWordsAreThoseOffTheMap :
    State.reset.fault = none ∧ State.reset.pc.toNat % 2 = 0 ∧ State.reset.wordAt State.reset.pc.toNat = 0x0000#16 ∧
      decode 0x0000#16 = none :=
  by decide
/-- The same at the top of memory, with both timers running. -/
theorem test_witness_UnsupportedWordChangesNothingAfterTheTimers :
    ∃ s : State, s.st = 1#8 ∧ s.dt = 255#8 ∧ s.fault = none ∧ s.pc.toNat % 2 = 0 ∧ decode (s.wordAt s.pc.toNat) = none :=
  ⟨{ atPc 0xFFE 0xF0FF with st := 1, dt := 255 }, by decide⟩
/-- An execute phase that raises, one that completes, and one that completes at the top of memory. -/
theorem test_witness_StepRunsTheDecodedInstruction :
    ((at200 0x00EE).fault = none ∧ (at200 0x00EE).pc.toNat % 2 = 0 ∧
      decode ((at200 0x00EE).wordAt (at200 0x00EE).pc.toNat) = some .ret ∧
      (ran .ret (at200 0x00EE).begun).fault = some .stackUnderflow) ∧
    (decode ((at200 0x6005).wordAt (at200 0x6005).pc.toNat) = some (.ldImm 0x0 0x05) ∧
      (ran (.ldImm 0x0 0x05) (at200 0x6005).begun).fault = none ∧
      (ran (.ldImm 0x0 0x05) (at200 0x6005).begun).pc.toNat % 2 = 0) ∧
    (decode ((atPc 0xFFE 0x6005).wordAt (atPc 0xFFE 0x6005).pc.toNat) = some (.ldImm 0x0 0x05) ∧
      (ran (.ldImm 0x0 0x05) (atPc 0xFFE 0x6005).begun).pc = 0xFFE#12) :=
  by decide
/-- A state with a fault and one without. -/
theorem test_witness_StepIsEnabledExactlyWithoutFault :
    (∃ s : State, s.fault = some .stackOverflow) ∧ State.reset.fault = none :=
  ⟨⟨{ State.reset with fault := some .stackOverflow }, rfl⟩, rfl⟩
/-- A step with both timers at 1 that writes neither, and one with the sound timer at 0. -/
theorem test_witness_TimersCountDownOncePerStep :
    ∃ s u : State, s.pc.toNat % 2 = 0 ∧ step s = .next (stepped s) ∧ s.dt = 1#8 ∧ s.st = 1#8 ∧
      decode (s.wordAt s.pc.toNat) = some (.ldImm 0x0 0x05) ∧ u.pc.toNat % 2 = 0 ∧ step u = .next (stepped u) ∧ u.st = 0#8 :=
  ⟨{ at200 0x6005 with dt := 1, st := 1 }, at200 0x6005, by decide, step_eq_stepped (by decide), rfl, rfl, by decide, by decide,
    step_eq_stepped (by decide), rfl⟩
/-- A step that raises where it stands, and a skip at 0xFFC that raises in the final advance. -/
theorem test_witness_FaultLeavesPcAtTheInstructionOrTheTop :
    step (at200 0x00EE) = .next (stepped (at200 0x00EE)) ∧ (stepped (at200 0x00EE)).fault = some .stackUnderflow ∧
    step (atPc 0xFFC 0x3000) = .next (stepped (atPc 0xFFC 0x3000)) ∧
    (stepped (atPc 0xFFC 0x3000)).fault = some (.invalidAddress 0x1000) ∧ (stepped (atPc 0xFFC 0x3000)).pc = 0xFFE#12 :=
  ⟨step_eq_stepped (by decide), by decide, step_eq_stepped (by decide), by decide, by decide⟩
/-- A state of the invariant whose step raises on an unsupported word, one that raises in the execute phase, and one that raises
in the final advance. -/
theorem test_witness_OnlyTheListedErrorsAreRaised :
    (smallAt 0x0000).Inv ∧ step (smallAt 0x0000) = .next (stepped (smallAt 0x0000)) ∧
      (stepped (smallAt 0x0000)).fault = some (.unsupportedInstruction 0 none) ∧
    (smallAt 0x00EE).Inv ∧ step (smallAt 0x00EE) = .next (stepped (smallAt 0x00EE)) ∧
      (stepped (smallAt 0x00EE)).fault = some .stackUnderflow ∧
    ∃ s : State, s.Inv ∧ step s = .next (stepped s) ∧ s.pc = 0xFFE#12 ∧
      (stepped s).fault = some (.invalidAddress 0x1000) :=
  ⟨inv_of (by decide), step_eq_stepped (by decide), by decide, inv_of (by decide), step_eq_stepped (by decide), by decide,
    ({ small with pc := 0xFFE } : State).withFetchWord 16 0x6005, inv_of (by decide), step_eq_stepped (by decide), by decide,
    by decide⟩
/-- A load and a register it may not write. -/
theorem test_witness_RegistersChangeOnlyByTheirWriters :
    exec (.load 0x2) (at200 0xF265) = .next (ran (.load 0x2) (at200 0xF265)) ∧ ¬mayWriteV (.load 0x2) 0x3 :=
  ⟨exec_eq_ran (by decide), by simp [mayWriteV]⟩
/-- An instruction that writes none of them, and a skip below the top of memory that raises nothing. -/
theorem test_witness_OtherStateChangesOnlyByItsWriters :
    (exec (.ldImm 0x0 0x05) (at200 0x6005) = .next (ran (.ldImm 0x0 0x05) (at200 0x6005)) ∧
      ¬mayWriteI (.ldImm 0x0 0x05) ∧ ¬mayMovePc (.ldImm 0x0 0x05) ∧ ¬mayWriteMem (.ldImm 0x0 0x05) ∧
      ¬mayDraw (.ldImm 0x0 0x05) ∧ ∀ e, ¬mayRaise (.ldImm 0x0 0x05) (at200 0x6005) e) ∧
    exec (.seImm 0x0 0x00) (atPc 0xFFC 0x3000) = .next (ran (.seImm 0x0 0x00) (atPc 0xFFC 0x3000)) ∧
      (atPc 0xFFC 0x3000).pc.toNat % 2 = 0 ∧ ∀ e, ¬mayRaise (.seImm 0x0 0x00) (atPc 0xFFC 0x3000) e :=
  ⟨⟨exec_eq_ran (by decide), id, id, id, id, fun _ => id⟩, exec_eq_ran (by decide), by decide,
    fun _ h => absurd h.2 (by decide)⟩
/-- A step that raises with PREV in its payload, and one that completes. -/
theorem test_witness_PrevNeverInfluencesAStep :
    (step State.reset = .next (stepped State.reset) ∧ (stepped State.reset).fault = some (.unsupportedInstruction 0 none)) ∧
    step (at200 0x6005) = .next (stepped (at200 0x6005)) ∧ (stepped (at200 0x6005)).fault = none :=
  ⟨⟨step_eq_stepped (by decide), by decide⟩, step_eq_stepped (by decide), by decide⟩
/-- A state of the invariant that steps. -/
theorem test_witness_StepKeepsTheInvariant :
    (smallAt 0x6005).Inv ∧ step (smallAt 0x6005) = .next (stepped (smallAt 0x6005)) :=
  ⟨inv_of (by decide), step_eq_stepped (by decide)⟩
/-- A store that begins at the last but one byte of the font. -/
theorem test_witness_StepKeepsTheFont :
    ∃ s : State, s.par.fontPolicy = .fault ∧ step s = .next (stepped s) ∧ s.i = 0x04E#16 ∧ (0x04F < 0x50) :=
  ⟨{ at200 0xF255 with i := 0x04E }, rfl, step_eq_stepped (by decide), rfl, by decide⟩
/-- The empty program and one of 3584 bytes. -/
theorem test_witness_ResetProgramSetsTheStateStore :
    ([] : List Byte).length ≤ 3584 ∧ (List.replicate 3584 (0 : Byte)).length ≤ 3584 :=
  ⟨by decide, Nat.le_of_eq List.length_replicate⟩
/-- A program that is loaded. -/
theorem test_witness_ResetIsIdempotentAndReadsBack :
    ∃ t, resetProgram [0x60, 0x05] State.reset = .next t :=
  ⟨_, rfl⟩
/-- Programs of 3584 and of 3585 bytes, a launch that is admissible, one without a display and one with a plane too small, and a
state without PREV. -/
theorem test_witness_OverlongProgramIsRefusedAndEmptyProgramFaults :
    (small.par.wf = true ∧ planeWf small.par small.disp = true) ∧ Config.Params.wf { small.par with displayW := 0 } = false ∧
    planeWf small.par [] = false ∧
    (List.replicate 3584 (0 : Byte)).length ≤ 3584 ∧ 3584 < (List.replicate 3585 (0 : Byte)).length ∧ State.reset.prev = none :=
  ⟨by decide, by decide, by decide, Nat.le_of_eq List.length_replicate, Nat.lt_of_lt_of_eq (by decide) List.length_replicate.symm, rfl⟩
/-- A word 01EE, an empty stack, and a stack whose top is 0x204 and one whose top is 0xFFE. -/
theorem test_witness_RetReturnsAfterTheCall :
    (nibble0 0x01EE#16 = 0x0#4 ∧ nibble1 0x01EE#16 ≠ 0x0#4) ∧ State.reset.sp.val = 0 ∧
    ∃ s u : State, s.Fetches .ret ∧ u.Fetches .ret ∧ s.sp.val = 1 ∧ s.stack[0] = 0x204#12 ∧ u.sp.val = 16 ∧ u.stack[15] = 0xFFE#12 :=
  ⟨by decide, rfl, { at200 0x00EE with sp := 1, stack := State.reset.stack.set 0 0x204 },
    { at200 0x00EE with sp := 16, stack := State.reset.stack.set 15 0xFFE }, fetches_of (by decide), fetches_of (by decide), by decide⟩
/-- The targets 0x002 and 0xFFE, and the rejected 0x000 and 0xFFF. -/
theorem test_witness_JumpReachesItsTargetOrRaises :
    ((0x002#12).toNat % 2 = 0 ∧ 0x002#12 ≠ 0 ∧ (at200 0x1002).Fetches (.jp 0x002)) ∧
    ((0xFFE#12).toNat % 2 = 0 ∧ 0xFFE#12 ≠ 0 ∧ (at200 0x1FFE).Fetches (.jp 0xFFE)) ∧
    (at200 0x1000).Fetches (.jp 0x000) ∧ ((0xFFF#12).toNat % 2 = 1 ∧ (at200 0x1FFF).Fetches (.jp 0xFFF)) :=
  ⟨⟨by decide, by decide, fetches_of (by decide)⟩, ⟨by decide, by decide, fetches_of (by decide)⟩, fetches_of (by decide), by decide,
    fetches_of (by decide)⟩
/-- A full stack, and calls at depths 0 and 15 to a legal target and to an odd one. -/
theorem test_witness_CallPushesItsAddressAndJumps :
    (∃ s : State, s.pc.toNat % 2 = 0 ∧ s.sp.val = 16) ∧
    ((at200 0x2FFE).pc.toNat % 2 = 0 ∧ (at200 0x2FFE).sp.val < 16 ∧ (0xFFE#12).toNat % 2 = 0 ∧ 0xFFE#12 ≠ 0 ∧
      (at200 0x2FFE).Fetches (.call 0xFFE)) ∧
    ∃ s : State, s.pc.toNat % 2 = 0 ∧ s.sp.val = 15 ∧ (0x301#12).toNat % 2 = 1 :=
  ⟨⟨{ State.reset with sp := 16 }, by decide⟩, ⟨by decide, by decide, by decide, by decide, fetches_of (by decide)⟩,
    { State.reset with sp := 15 }, by decide⟩
/-- A skip taken and one not taken, below the top of memory, at 0xFFC and at 0xFFE. -/
theorem test_witness_SkipIfEqualImmediate :
    (∀ p ∈ [0x200#12, 0xFFC#12, 0xFFE#12], (atPc p.toNat 0x3000).getV 0x0 = 0x00#8 ∧ (atPc p.toNat 0x3000).Fetches (.seImm 0x0 0x00)) ∧
    ∀ p ∈ [0x200#12, 0xFFC#12, 0xFFE#12], ¬(atPc p.toNat 0x3001).getV 0x0 = 0x01#8 ∧ (atPc p.toNat 0x3001).Fetches (.seImm 0x0 0x01) := by
  unfold State.Fetches; decide
/-- A skip taken and one not taken, below the top of memory, at 0xFFC and at 0xFFE. -/
theorem test_witness_SkipIfNotEqualImmediate :
    (∀ p ∈ [0x200#12, 0xFFC#12, 0xFFE#12], (atPc p.toNat 0x4001).getV 0x0 ≠ 0x01#8 ∧ (atPc p.toNat 0x4001).Fetches (.sneImm 0x0 0x01)) ∧
    ∀ p ∈ [0x200#12, 0xFFC#12, 0xFFE#12], ¬(atPc p.toNat 0x4000).getV 0x0 ≠ 0x00#8 ∧ (atPc p.toNat 0x4000).Fetches (.sneImm 0x0 0x00) := by
  unfold State.Fetches; decide
/-- A word 5121, and a skip taken and one not taken, below the top of memory, at 0xFFC and at 0xFFE. -/
theorem test_witness_SkipIfEqualRegisters :
    (nibble0 0x5121#16 = 0x5#4 ∧ nibble3 0x5121#16 ≠ 0x0#4) ∧
    (∀ p ∈ [0x200#12, 0xFFC#12, 0xFFE#12], (atPc p.toNat 0x5010).getV 0x0 = (atPc p.toNat 0x5010).getV 0x1 ∧
      (atPc p.toNat 0x5010).Fetches (.seReg 0x0 0x1)) ∧
    ∀ p ∈ [0x200#12, 0xFFC#12, 0xFFE#12],
      (withV [(0x1, 0x01)] (atPc p.toNat 0x5010)).getV 0x0 ≠ (withV [(0x1, 0x01)] (atPc p.toNat 0x5010)).getV 0x1 ∧
      (withV [(0x1, 0x01)] (atPc p.toNat 0x5010)).Fetches (.seReg 0x0 0x1) := by
  unfold State.Fetches; decide
/-- No push, and sixteen pushes. -/
theorem test_witness_StackIsLastInFirstOut :
    State.reset.sp.val = 0 ∧ ([] : List Addr).length ≤ 16 ∧ (List.replicate 16 0xFFE#12).length ≤ 16 ∧
    ∀ a ∈ List.replicate 16 0xFFE#12, a.toNat % 2 = 0 :=
  ⟨rfl, by decide, by decide, fun a h => by rw [List.eq_of_mem_replicate h]; rfl⟩
/-- A call at depth 15 of a routine that is one RET. -/
theorem test_witness_CallThenReturnComesBack :
    ∃ s : State, s.Fetches (.call 0x300) ∧ s.pc ≠ 0xFFE#12 ∧ s.sp.val = 15 ∧ step s = .next (stepped s) ∧
      (stepped s).Fetches .ret ∧ step (stepped s) = .next (stepped (stepped s)) :=
  ⟨{ withMem [(0x300, 0x00), (0x301, 0xEE)] (at200 0x2300) with sp := 15 }, fetches_of (by decide), by decide, rfl,
    step_eq_stepped (by decide), fetches_of (by decide), step_eq_stepped (by decide)⟩
/-- A state with a stream and one without. -/
theorem test_witness_RandomByteIsDrawnOnceAndMasked :
    (∃ s : State, s.randStream = 0xA7#8 :: []) ∧ State.reset.randStream = [] :=
  ⟨⟨{ State.reset with randStream := [0xA7] }, rfl⟩, rfl⟩
/-- No row, rows up to the last byte of memory, and rows past it. -/
theorem test_witness_DrawFollowsThePixelLoop :
    0 < State.reset.par.displayW ∧ 0 < State.reset.par.displayH ∧ ((0x0#4) = 0) ∧
    ∃ s u : State, 0 < s.par.displayW ∧ 0 < s.par.displayH ∧ s.i.toNat + (0xF#4).toNat = 0x1000 ∧
      0 < u.par.displayW ∧ 0 < u.par.displayH ∧ (0xF#4) ≠ 0 ∧ u.i.toNat + (0xF#4).toNat = 0x1001 :=
  ⟨by decide, by decide, rfl, { State.reset with i := 0xFF1 }, { State.reset with i := 0xFF2 }, by decide⟩
/-- A draw of one row just past memory, and the largest I. -/
theorem test_witness_FaultedDrawLeavesAFreePlane :
    ∃ s u : State, 0 < s.par.displayW ∧ 0 < s.par.displayH ∧ (0x1#4) ≠ 0 ∧ s.i.toNat + (0x1#4).toNat = 0x1001 ∧
      s.Fetches (.drw 0x0 0x1 0x1) ∧ u.i = 0xFFFF#16 ∧ 0x1000 < u.i.toNat + (0x1#4).toNat :=
  ⟨{ at200 0xD011 with i := 0x1000 }, { at200 0xD011 with i := 0xFFFF }, by decide, by decide, by decide, by decide,
    fetches_of (by decide), by decide, by decide⟩
/-- A display exactly 8 wide and 2 high, and a sprite of 2 rows that ends at the last byte of memory. -/
theorem test_witness_DrawMatchesASnapshotOfThePlane :
    ∃ s : State, s.par.displayW = 8 ∧ 0 < s.par.displayH ∧ (0x2#4).toNat = s.par.displayH ∧
      s.disp.length = s.par.displayW * s.par.displayH ∧ s.i.toNat + (0x2#4).toNat = 0x1000 :=
  ⟨{ small with i := 0xFFE }, by decide⟩
/-- Two draws of the same sprite on that display. -/
theorem test_witness_DrawTwiceRestoresThePlane :
    ∃ s : State, (0x0#4) ≠ 0xF#4 ∧ (0x1#4) ≠ 0xF#4 ∧ 8 ≤ s.par.displayW ∧ 0 < s.par.displayH ∧ (0x2#4).toNat ≤ s.par.displayH ∧
      s.disp.length = s.par.displayW * s.par.displayH ∧ s.i.toNat + (0x2#4).toNat ≤ 0x1000 ∧
      exec (.drw 0x0 0x1 0x2) s = .next (ran (.drw 0x0 0x1 0x2) s) ∧
      exec (.drw 0x0 0x1 0x2) (ran (.drw 0x0 0x1 0x2) s) =
        .next (ran (.drw 0x0 0x1 0x2) (ran (.drw 0x0 0x1 0x2) s)) :=
  ⟨small, by decide, by decide, by decide, by decide, by decide, by decide, by decide, exec_eq_ran (by decide), exec_eq_ran (by decide)⟩
/-- The key numbers 16 and 15, with an answer given and with none. -/
theorem test_witness_SkipIfKeyNotPressed :
    ∃ s t u : State, s.pc.toNat % 2 = 0 ∧ (s.getV 0x1).toNat = 16 ∧
      t.Fetches (.sknp 0x1) ∧ (t.getV 0x1).toNat = 15 ∧ t.keyStream = true :: [] ∧
      u.Fetches (.sknp 0x1) ∧ (u.getV 0x1).toNat = 15 ∧ u.keyStream = [] :=
  ⟨withV [(0x1, 0x10)] (at200 0xE1A1), { withV [(0x1, 0x0F)] (at200 0xE1A1) with keyStream := [true] },
    withV [(0x1, 0x0F)] (at200 0xE1A1), by decide, by decide, fetches_of (by decide), by decide, by decide,
    fetches_of (by decide), by decide, by decide⟩
/-- A read of the delay timer at 0xFFC. -/
theorem test_witness_ReadDelayTimerAfterItsDecrement :
    (atPc 0xFFC 0xF307).Fetches (.ldVxDt 0x3) ∧ (atPc 0xFFC 0xF307).pc ≠ 0xFFE#12 :=
  ⟨fetches_of (by decide), by decide⟩
/-- The values 254 and 255, and 255 where the parameter accepts it. -/
theorem test_witness_WriteDelayTimerRejecting255 :
    ∃ s t u : State, s.getV 0x0 = 254#8 ∧ s.Fetches (.ldDtVx 0x0) ∧ s.pc ≠ 0xFFE#12 ∧
      t.getV 0x0 = 255#8 ∧ t.par.timerAccepts255 = false ∧ t.Fetches (.ldDtVx 0x0) ∧
      u.getV 0x0 = 255#8 ∧ u.par.timerAccepts255 = true :=
  ⟨withV [(0x0, 0xFE)] (at200 0xF015), withV [(0x0, 0xFF)] (at200 0xF015),
    { withV [(0x0, 0xFF)] (at200 0xF015) with par := { defaultParams with timerAccepts255 := true } },
    by decide, fetches_of (by decide), by decide, by decide, by decide, fetches_of (by decide), by decide, by decide⟩
/-- The values 254 and 255, and 255 where the parameter accepts it. -/
theorem test_witness_WriteSoundTimerRejecting255 :
    ∃ s t u : State, s.getV 0x0 = 254#8 ∧ s.Fetches (.ldStVx 0x0) ∧ s.pc ≠ 0xFFE#12 ∧
      t.getV 0x0 = 255#8 ∧ t.par.timerAccepts255 = false ∧ t.Fetches (.ldStVx 0x0) ∧
      u.getV 0x0 = 255#8 ∧ u.par.timerAccepts255 = true :=
  ⟨withV [(0x0, 0xFE)] (at200 0xF018), withV [(0x0, 0xFF)] (at200 0xF018),
    { withV [(0x0, 0xFF)] (at200 0xF018) with par := { defaultParams with timerAccepts255 := true } },
    by decide, fetches_of (by decide), by decide, by decide, by decide, fetches_of (by decide), by decide, by decide⟩
/-- A write of 254 and the read after it. -/
theorem test_witness_DelayTimerHasAOneStepLatency :
    ∃ s : State, s.Fetches (.ldDtVx 0x0) ∧ s.pc ≠ 0xFFE#12 ∧ s.getV 0x0 = 254#8 ∧ step s = .next (stepped s) ∧
      (stepped s).Fetches (.ldVxDt 0x3) ∧ (stepped s).pc ≠ 0xFFE#12 :=
  ⟨withV [(0x0, 0xFE)] (withMem [(0x202, 0xF3), (0x203, 0x07)] (at200 0xF015)), fetches_of (by decide), by decide, by decide,
    step_eq_stepped (by decide), fetches_of (by decide), by decide⟩
/-- Each layout at the highest I it takes; a raise after two digits, past memory; and a raise at the first, in the font. -/
theorem test_witness_BcdStoresItsDigitsOrRaises :
    ∃ s t u v w : State, s.mem.wf s.par.font ∧ s.par.bcdLayout = .table ∧ s.i = 0xFFD#16 ∧
      (∀ c ∈ bcdCells s.par.bcdLayout (s.getV 0x0), writable s.par (indexBase s + c.1)) ∧
      t.mem.wf t.par.font ∧ t.par.bcdLayout = .shifted ∧ t.i = 0xFFC#16 ∧
      (∀ c ∈ bcdCells t.par.bcdLayout (t.getV 0x0), writable t.par (indexBase t + c.1)) ∧
      u.mem.wf u.par.font ∧ u.par.bcdLayout = .collapsed ∧ u.i = 0xFFE#16 ∧
      (∀ c ∈ bcdCells u.par.bcdLayout (u.getV 0x0), writable u.par (indexBase u + c.1)) ∧
      v.mem.wf v.par.font ∧ bcdCells v.par.bcdLayout (v.getV 0x0) = [(0, 1), (1, 2)] ++ (2, 3) :: [] ∧
      (∀ d ∈ [((0 : Nat), (1 : Byte)), (1, 2)], writable v.par (indexBase v + d.1)) ∧ ¬writable v.par (indexBase v + (2 : Nat)) ∧
      w.mem.wf w.par.font ∧ bcdCells w.par.bcdLayout (w.getV 0x0) = [] ++ (0, 1) :: [(1, 2), (2, 3)] ∧
      ¬writable w.par (indexBase w + (0 : Nat)) :=
  ⟨{ withV [(0x0, 0x7B)] State.reset with i := 0xFFD, par := { defaultParams with bcdLayout := .table } },
    { withV [(0x0, 0x7B)] State.reset with i := 0xFFC, par := { defaultParams with bcdLayout := .shifted } },
    { withV [(0x0, 0x7B)] State.reset with i := 0xFFE, par := { defaultParams with bcdLayout := .collapsed } },
    { withV [(0x0, 0x7B)] State.reset with i := 0xFFE, par := { defaultParams with bcdLayout := .table } },
    { withV [(0x0, 0x7B)] State.reset with i := 0x04F, par := { defaultParams with bcdLayout := .table } },
    by repeat' apply And.intro
       all_goals decide⟩
/-- All sixteen registers up to the last byte of memory, from just above the font; a raise at the last offset; a raise at the first. -/
theorem test_witness_StoreRegistersWritesV0ToVxOrRaises :
    ∃ s t u v : State, s.mem.wf s.par.font ∧ s.i.toNat + (0xF#4).toNat = 0xFFF ∧ (s.par.fontPolicy = .fault → 0x50 ≤ s.i.toNat) ∧
      t.i.toNat = 0x50 ∧ (t.par.fontPolicy = .fault → 0x50 ≤ t.i.toNat) ∧
      (∀ j < 15, writable u.par (indexBase u + (j : Nat))) ∧ ¬writable u.par (indexBase u + (15 : Nat)) ∧
      u.mem.wf u.par.font ∧ v.mem.wf v.par.font ∧ ¬writable v.par (indexBase v + (0 : Nat)) ∧ v.i = 0x04F#16 :=
  ⟨{ State.reset with i := 0xFF0 }, { State.reset with i := 0x50 }, { State.reset with i := 0xFF1 },
    { State.reset with i := 0x04F },
    by repeat' apply And.intro
       all_goals decide⟩
/-- A load up to the last byte of memory, and one a byte further. -/
theorem test_witness_LoadRegistersReadsV0ToVx :
    ∃ s t : State, s.i.toNat + (0xF#4).toNat = 0xFFF ∧ t.i.toNat + (0xF#4).toNat = 0x1000 :=
  ⟨{ State.reset with i := 0xFF0 }, { State.reset with i := 0xFF1 }, by decide⟩
/-- A store that completes. -/
theorem test_witness_StoreThenLoadRestoresTheRegisters :
    ∃ s : State, s.mem.wf s.par.font ∧ s.fault = none ∧ exec (.store 0xF) s = .next (ran (.store 0xF) s) ∧
      (ran (.store 0xF) s).fault = none :=
  ⟨{ State.reset with i := 0xFF0 }, by decide, rfl, exec_eq_ran (by decide), by decide⟩
/-- A jump to itself at 0x200 and one at 0x002, with the timers at 0 and PREV the jump. -/
theorem test_witness_IdleStateOnlyCountsDown :
    (at200 0x1200).IdleAt 0x200 ∧ ∃ s : State, s.IdleAt 0x002 ∧ (0x002#12).toNat % 2 = 0 ∧ s.dt = 0#8 ∧ s.st = 0#8 ∧
      s.par.traceSink = false ∧ s.prev = some (0x1#4 ++ 0x002#12) :=
  ⟨by unfold State.IdleAt; decide, { atPc 0x002 0x1002 with prev := some 0x1002 }, by unfold State.IdleAt; decide, by decide⟩
/-- A host listener that does not raise, one that raises, and the core's. -/
theorem test_witness_ErrorStopsTheTickForEverySubscriber :
    (∃ t, onTick [] ⟨8, false⟩ State.reset = (t, none)) ∧
    (∃ t, onTick [8] ⟨8, false⟩ State.reset = (t, some (.listener 8))) ∧ (⟨7, true⟩ : Subscriber).runsCore = true ∧
    (⟨8, false⟩ : Subscriber).runsCore = false :=
  ⟨⟨_, rfl⟩, ⟨_, rfl⟩, rfl, rfl⟩
/-- A batch that completes and one that an error stops. -/
theorem test_witness_BatchIsStepAppliedRepeatedly :
    (runBatch 1 (smallAt 0x6005) = ((runBatch 1 (smallAt 0x6005)).1, none) ∧ (smallAt 0x6005).fault = none) ∧
    runBatch 2 (smallAt 0x6005) = ((runBatch 2 (smallAt 0x6005)).1, some (.unsupportedInstruction 0x0000 (some 0x6005))) :=
  by decide

/-- A listener whose number no subscription has, and one that is removed between two others. -/
theorem test_witness_UnsubscribingRemovesThatListener :
    ∃ s : State, (∀ l ∈ s.sched.subs, l.id ≠ (⟨9, true⟩ : Subscriber).id) ∧
      (unsubscribe 7 s).sched.subs = [⟨6, true⟩, ⟨8, false⟩] ∧ s.sched.subs = [⟨6, true⟩, ⟨7, false⟩, ⟨8, false⟩] :=
  ⟨{ State.reset with sched := { subs := [⟨6, true⟩, ⟨7, false⟩, ⟨8, false⟩], drift := 3 } }, by decide⟩
/-- A drift of exactly the interval and one above it, before a wait and after one, and a list with and without a subscriber. -/
theorem test_witness_TickLoopWaitsAndCorrectsItsDrift :
    ((10 : Int) ≤ (10 : Nat) ∧ ((10 : Nat) : Int) < 11) ∧
    ((20 : Int) - (0 + (10 : Nat)) ≤ (10 : Nat) ∧ ((10 : Nat) : Int) < 21 - (0 + (10 : Nat))) ∧
    State.reset.sched.subs = [] ∧ (subscribe ⟨7, true⟩ State.reset).sched.subs ≠ [] := by decide

end Sys2Proof.Tests
end

/-!
PROOFS. The statements of spec/10_state.md: the invariant of every step, what the execute phases leave alone, that PREV is
never read, and the stack as last in, first out.
-/

namespace Sys2Proof.Machine

/-! ## The invariant, part by part (O15, O16) -/

/-- The invariant speaks of memory, PC, the stack's entries, the plane, the parameters and the timers alone. -/
theorem State.Inv.unmentioned {s : State} {v : Vector Byte 16} {i : Word} {sp : Fin 17} {prev : Option Word}
    {fault : Option Err} {events : List Event} {rs : List Byte} {ks : List Bool} {draws : Nat} {sched : Sched}
    (h : s.Inv) :
    State.Inv { s with
      v := v, i := i, sp := sp, prev := prev, fault := fault, events := events, randStream := rs, keyStream := ks,
      draws := draws, sched := sched } :=
  ⟨h.mem, h.pc, h.stack, h.plane, h.par, h.dt, h.st⟩

theorem State.Inv.withFault {s : State} (h : s.Inv) (e : Err) : (takeFault e s).Inv := h.unmentioned

/-- A legal program counter is even when held in 12 bits (R28). -/
theorem ofInt_legalPc_even {a : Int} (ha : legalPc a) : (BitVec.ofInt 12 a).toNat % 2 = 0 := by
  rw [toNat_ofInt_legalPc ha]
  obtain ⟨heven, h0, -⟩ := ha
  omega

theorem State.Inv.withPc {s : State} (h : s.Inv) {a : Addr} (ha : a.toNat % 2 = 0) : State.Inv { s with pc := a } :=
  ⟨h.mem, ha, h.stack, h.plane, h.par, h.dt, h.st⟩

theorem State.Inv.withStackEntry {s : State} (h : s.Inv) {a : Addr} (ha : a.toNat % 2 = 0) {k : Nat} (hk : k < 16) :
    State.Inv { s with stack := s.stack.set k a } := by
  refine ⟨h.mem, h.pc, fun j => ?_, h.plane, h.par, h.dt, h.st⟩
  have hj := h.stack j
  simp only [Fin.getElem_fin, Vector.getElem_set] at hj ⊢
  split
  · exact ha
  · exact hj

theorem State.Inv.withMem {s : State} (h : s.Inv) {m : Memory} (hm : m.wf s.par.font) :
    State.Inv { s with mem := m } :=
  ⟨hm, h.pc, h.stack, h.plane, h.par, h.dt, h.st⟩

theorem State.Inv.withPlane {s : State} (h : s.Inv) {d : List Bool} (hd : d.length = s.par.displayW * s.par.displayH) :
    State.Inv { s with disp := d } :=
  ⟨h.mem, h.pc, h.stack, hd, h.par, h.dt, h.st⟩

theorem State.Inv.withTimers {s : State} (h : s.Inv) {d e : Byte} (hd : timerTakes s.par d) (he : timerTakes s.par e) :
    State.Inv { s with dt := d, st := e } :=
  ⟨h.mem, h.pc, h.stack, h.plane, h.par, hd, he⟩

/-- Under the invariant the display has a positive size. -/
theorem State.Inv.display_pos {s : State} (h : s.Inv) : 0 < s.par.displayW ∧ 0 < s.par.displayH := by
  have hp := h.par
  simp only [Config.Params.wf, Bool.and_eq_true, decide_eq_true_eq] at hp
  tauto

/-! ## The phases of a step keep the invariant (O15) -/

/-- A timer that counted down is never at 255, so it is taken under any parameters (R37). -/
theorem timerTakes_countDown (par : Config.Params) (b : Byte) : timerTakes par (countDown b) := by
  have hne : countDown b ≠ 255#8 := by revert b; decide
  exact fun h => absurd h hne

theorem timerPhase_keeps_inv {s : State} (h : s.Inv) : (timerPhase s).Inv where
  mem := by simpa using h.mem
  pc := by simpa using h.pc
  stack := by simpa using h.stack
  plane := by simpa using h.plane
  par := by simpa using h.par
  dt := by
    rw [timerPhase_dt]
    exact timerTakes_countDown _ _
  st := by
    rw [timerPhase_st]
    exact timerTakes_countDown _ _

theorem trace_keeps_inv (w : Word) {s : State} (h : s.Inv) : (trace w s).Inv := by
  unfold trace
  split
  · exact h.unmentioned
  · exact h

theorem skipIf_keeps_inv (c : Bool) {s : State} (h : s.Inv) : (skipIf c s).settle.Inv := by
  rcases skipIf_cases c s with ⟨-, e⟩ | ⟨-, hl, e⟩ | ⟨-, -, e⟩ <;> rw [e]
  · exact h
  · exact h.withPc (ofInt_legalPc_even hl)
  · exact h.withFault _

/-- A run of writes, completed or stopped, keeps the invariant (R52, R207). -/
theorem finish_writeCells_keeps_inv {base : Int} {cells : List (Nat × Byte)} {s t : State} (h : s.Inv)
    (ht : finish (writeCells base cells s) = .next t) : t.Inv := by
  have put : ∀ cs : List (Nat × Byte), (∀ c ∈ cs, writable s.par (base + c.1)) → (putCells base cs s).Inv := by
    intro cs hcs
    rw [putCells_frame]
    exact h.withMem (putCells_mem_wf h.mem hcs)
  rcases finish_writeCells_cases ht with ⟨hw, rfl⟩ | ⟨pre, c, post, -, hw, -, rfl⟩
  · exact put cells hw
  · exact (put pre hw).withFault _

/-- The execute phase of every instruction keeps the invariant. -/
theorem exec_keeps_inv {i : Instr} {s t : State} (h : s.Inv) (ht : exec i s = .next t) : t.Inv := by
  cases i with
  | ret =>
    rcases execRet_cases ht with ⟨-, rfl⟩ | ⟨_, a, -, ⟨⟨ha, -⟩, rfl⟩ | ⟨-, rfl⟩⟩
    · exact h.withFault _
    · exact (h.withPc (a := a) (by omega)).unmentioned
    · exact h.unmentioned
  | jp nnn =>
    rcases execJp_cases ht with ⟨hl, rfl⟩ | ⟨-, rfl⟩
    · exact h.withPc (ofInt_legalPc_even hl)
    · exact h.withFault _
  | call nnn =>
    rcases execCall_cases ht with ⟨-, rfl⟩ | ⟨-, rfl⟩ | ⟨hsp, u, -, rfl, hu⟩
    · exact h.withFault _
    · exact h.withFault _
    · have pushed := h.withStackEntry h.pc hsp
      rcases hu with ⟨hb, rfl⟩ | ⟨-, rfl⟩
      · exact (pushed.withPc (ofInt_legalPc_even hb)).unmentioned
      · exact pushed.unmentioned
  | seImm x kk => cases ht; exact skipIf_keeps_inv _ h
  | sneImm x kk => cases ht; exact skipIf_keeps_inv _ h
  | seReg x y => cases ht; exact skipIf_keeps_inv _ h
  | sknp x =>
    rcases execSknp_cases ht with ⟨-, rfl⟩ | ⟨p, ks, n, -, rfl⟩
    · exact h.withFault _
    · exact skipIf_keeps_inv p h.unmentioned
  | rnd x kk => obtain ⟨_, _, _, rfl⟩ := execRnd_cases ht; exact h.unmentioned
  | drw x y n =>
    obtain ⟨hw, hh⟩ := h.display_pos
    rcases execDrw_cases ht with ⟨hit, d, hd, rfl⟩ | ⟨e, d, -, rfl⟩
    · rcases drawRows_cases hw hh (indexBase s) (s.getV x) (s.getV y) (List.range n.toNat) false with
        ⟨hit', d', hok, hlen, -⟩ | ⟨_, _, -, -, hraised, -⟩
      · rw [hd] at hok
        cases hok
        exact (h.withPlane (hlen.trans h.plane)).unmentioned
      · rw [hd] at hraised
        cases hraised
    · exact (h.withPlane (freePlane_length s)).unmentioned
  | ldDtVx x =>
    rcases execLdDtVx_cases ht with ⟨hv, rfl⟩ | ⟨-, rfl⟩
    · exact h.withTimers hv h.st
    · exact h.withFault _
  | ldStVx x =>
    rcases execLdStVx_cases ht with ⟨hv, rfl⟩ | ⟨-, rfl⟩
    · exact h.withTimers h.dt hv
    · exact h.withFault _
  | ldB x => exact finish_writeCells_keeps_inv h ht
  | store x => exact finish_writeCells_keeps_inv h ht
  | load x => rcases execLoad_cases ht with ⟨_, rfl⟩ | ⟨_, _, -, -, rfl⟩ <;> exact h.unmentioned
  | _ => cases ht; exact h.unmentioned

theorem completeStep_keeps_inv (w : Word) {s : State} (h : s.Inv) : (completeStep w s).Inv := by
  rcases completeStep_cases w s with ⟨-, e⟩ | ⟨-, hl, e⟩ | ⟨-, -, e⟩ <;> rw [e]
  · exact h
  · exact (h.withPc (ofInt_legalPc_even hl)).unmentioned
  · exact h.withFault _

/-- Settles O15: the timers, the trace, the execute phase and the final advance each keep the invariant. -/
theorem stepKeepsTheInvariant : Obligations.StepKeepsTheInvariant := by
  intro s t h ht
  have timers := timerPhase_keeps_inv h
  obtain ⟨-, ⟨e, rfl⟩ | ⟨w, i, u, -, hu, rfl⟩⟩ := step_cases ht
  · exact timers.withFault e
  · exact completeStep_keeps_inv w (exec_keeps_inv (trace_keeps_inv w timers) hu)

/-! ## The state right after reset (O16, O18) -/

/-- Settles O16. -/
theorem resetMeetsTheInvariant : Obligations.ResetMeetsTheInvariant where
  mem := State.reset_mem_wf
  pc := by decide
  stack := by decide
  plane := by simp [State.reset, defaultPlane]
  par := by decide
  dt := by decide
  st := by decide

/-- Memory right after reset lists nothing, so every byte reads as the font or as zero (R53). -/
theorem byteAt_reset (a : Nat) :
    State.reset.byteAt a = if a < 80 then State.reset.par.font.getD a 0 else 0#8 := by
  simp [State.byteAt, State.reset, Memory.read, Memory.unlisted, Config.fontBase, Config.fontSize]

/-- Settles O18: the registers, the stack and memory read at every index, the rest field by field. -/
theorem resetLeavesTheListedValues : Obligations.ResetLeavesTheListedValues := by
  have registers : ∀ r, State.reset.getV r = 0#8 := by simp [State.getV, State.reset]
  have entries : ∀ j : Fin 16, State.reset.stack[j] = 0#12 := by simp [State.reset]
  exact ⟨registers, rfl, rfl, rfl, entries, rfl, rfl, rfl, byteAt_reset⟩

end Sys2Proof.Machine

namespace Sys2Proof.Machine

/-! ## What the execute phase of each instruction leaves alone (O12, O13) -/

/-- `s` with the fields that instruction `i` names as written (R23 to R35, R56) taken from `t`. -/
def State.takeWritten (i : Instr) (s t : State) : State :=
  match i with
  | .ret => { s with pc := t.pc, sp := t.sp, fault := t.fault }
  | .call _ => { s with pc := t.pc, stack := t.stack, sp := t.sp, fault := t.fault }
  | .jp _ | .seImm _ _ | .sneImm _ _ | .seReg _ _ => { s with pc := t.pc, fault := t.fault }
  | .ldImm _ _ | .addImm _ _ | .ldReg _ _ | .andReg _ _ | .addReg _ _ | .subReg _ _ | .shr _ _ | .shl _ _
  | .ldVxDt _ => { s with v := t.v }
  | .ldI _ | .addI _ | .ldF _ => { s with i := t.i }
  | .rnd _ _ => { s with v := t.v, randStream := t.randStream, draws := t.draws }
  | .drw _ _ _ => { s with v := t.v, disp := t.disp, draws := t.draws, fault := t.fault }
  | .sknp _ => { s with pc := t.pc, keyStream := t.keyStream, draws := t.draws, fault := t.fault }
  | .ldDtVx _ => { s with dt := t.dt, fault := t.fault }
  | .ldStVx _ => { s with st := t.st, fault := t.fault }
  | .ldB _ | .store _ => { s with mem := t.mem, fault := t.fault }
  | .load _ => { s with v := t.v, fault := t.fault }

/-- A conditional skip writes PC, and FAULT where it raises (R110). -/
theorem skipIf_frame (c : Bool) (s : State) :
    (skipIf c s).settle = { s with pc := (skipIf c s).settle.pc, fault := (skipIf c s).settle.fault } := by
  rcases skipIf_cases c s with ⟨-, e⟩ | ⟨-, -, e⟩ | ⟨-, -, e⟩ <;> (rw [e]; rfl)

/-- A run of writes, completed or stopped, writes memory, and FAULT where it stops (R56, R207). -/
theorem finish_writeCells_frame {base : Int} {cells : List (Nat × Byte)} {s t : State}
    (h : finish (writeCells base cells s) = .next t) : t = { s with mem := t.mem, fault := t.fault } := by
  rcases finish_writeCells_cases h with ⟨-, rfl⟩ | ⟨pre, c, post, -, -, -, rfl⟩
  · rw [putCells_frame]
  · rw [putCells_frame]; rfl

/-- The execute phase of an instruction changes no field but those `State.takeWritten` lists for it. -/
theorem exec_frame {i : Instr} {s t : State} (h : exec i s = .next t) : t = s.takeWritten i t := by
  cases i with
  | ret => rcases execRet_cases h with ⟨-, rfl⟩ | ⟨_, _, -, ⟨-, rfl⟩ | ⟨-, rfl⟩⟩ <;> rfl
  | jp nnn => rcases execJp_cases h with ⟨-, rfl⟩ | ⟨-, rfl⟩ <;> rfl
  | call nnn =>
    rcases execCall_cases h with ⟨-, rfl⟩ | ⟨-, rfl⟩ | ⟨_, _, -, rfl, ⟨-, rfl⟩ | ⟨-, rfl⟩⟩ <;> rfl
  | seImm x kk => cases h; exact skipIf_frame _ s
  | sneImm x kk => cases h; exact skipIf_frame _ s
  | seReg x y => cases h; exact skipIf_frame _ s
  | sknp x =>
    rcases execSknp_cases h with ⟨-, rfl⟩ | ⟨p, ks, n, -, rfl⟩
    · rfl
    · rw [skipIf_frame]; rfl
  | rnd x kk => obtain ⟨_, _, _, rfl⟩ := execRnd_cases h; rfl
  | drw x y n => rcases execDrw_cases h with ⟨_, _, -, rfl⟩ | ⟨_, _, -, rfl⟩ <;> rfl
  | ldDtVx x => rcases execLdDtVx_cases h with ⟨-, rfl⟩ | ⟨-, rfl⟩ <;> rfl
  | ldStVx x => rcases execLdStVx_cases h with ⟨-, rfl⟩ | ⟨-, rfl⟩ <;> rfl
  | ldB x => exact finish_writeCells_frame h
  | store x => exact finish_writeCells_frame h
  | load x => rcases execLoad_cases h with ⟨_, rfl⟩ | ⟨_, _, -, -, rfl⟩ <;> rfl
  | _ => cases h; rfl

/-! ## General registers (O12) -/

/-- A register that a run of loads does not number reads as before, wherever the run ends (R182, R207). -/
theorem loadRegs_getV_other {base : Int} {ks : List Nat} {s : State} {r : Reg}
    (h : ∀ k ∈ ks, r ≠ BitVec.ofNat 4 k) : (loadRegs base ks s).settle.getV r = s.getV r := by
  induction ks generalizing s with
  | nil => rfl
  | cons k ks ih =>
    rw [List.forall_mem_cons] at h
    rw [loadRegs]
    by_cases hk : readable (base + k)
    · rw [memRead_ok hk, Res.bind_ok, ih h.2, State.getV_setV_of_ne s _ h.1]
    · rw [memRead_raised hk, Res.bind_raised, Res.settle_raised, State.getV_takeFault]

/-- LD Vx, [I] leaves the registers above `x` (R182). -/
theorem execLoad_getV_above {x r : Reg} {s t : State} (h : exec (.load x) s = .next t) (hr : x.toNat < r.toNat) :
    t.getV r = s.getV r := by
  cases h
  refine loadRegs_getV_other fun k hk hrk => ?_
  have hkr : k = r.toNat := by
    have := r.isLt
    rw [List.mem_range] at hk
    rw [hrk, BitVec.toNat_ofNat]
    omega
  rw [List.mem_range] at hk
  omega

/-- Two registers written in turn leave every other one. -/
theorem State.getV_setV_setV_of_ne (s : State) {x y r : Reg} (b c : Byte) (hx : r ≠ x) (hy : r ≠ y) :
    ((s.setV x b).setV y c).getV r = s.getV r := by
  rw [State.getV_setV_of_ne _ _ hy, State.getV_setV_of_ne _ _ hx]

/-- Settles O12: the writers by the writes they make, every other instruction by its frame. -/
theorem registersChangeOnlyByTheirWriters : Obligations.RegistersChangeOnlyByTheirWriters := by
  intro i s t h r hr
  cases i with
  | ldImm x kk => cases h; exact State.getV_setV_of_ne s _ hr
  | addImm x kk => cases h; exact State.getV_setV_of_ne s _ hr
  | ldReg x y => cases h; exact State.getV_setV_of_ne s _ hr
  | andReg x y => cases h; exact State.getV_setV_of_ne s _ hr
  | ldVxDt x => cases h; exact State.getV_setV_of_ne s _ hr
  | rnd x kk =>
    obtain ⟨b, rs, n, rfl⟩ := execRnd_cases h
    exact State.getV_setV_of_ne _ _ hr
  | addReg x y => cases h; exact State.getV_setV_setV_of_ne s _ _ (mt .inl hr) (mt .inr hr)
  | subReg x y => cases h; exact State.getV_setV_setV_of_ne s _ _ (mt .inr hr) (mt .inl hr)
  | shr x y => cases h; exact State.getV_setV_setV_of_ne s _ _ (mt .inr hr) (mt .inl hr)
  | shl x y => cases h; exact State.getV_setV_setV_of_ne s _ _ (mt .inr hr) (mt .inl hr)
  | drw x y n =>
    rcases execDrw_cases h with ⟨hit, d, -, rfl⟩ | ⟨e, d, -, rfl⟩
    · exact State.getV_setV_of_ne _ _ hr
    · rfl
  | load x => exact execLoad_getV_above h (Nat.lt_of_not_le hr)
  | _ => rw [exec_frame h]; rfl

/-! ## The fields a frame keeps (O13) -/

section
variable {i : Instr} (s t : State)

theorem State.takeWritten_i (h : ¬mayWriteI i) : (s.takeWritten i t).i = s.i := by
  cases i with
  | ldI _ | addI _ | ldF _ => exact absurd trivial h
  | _ => rfl

theorem State.takeWritten_pc (h : ¬mayMovePc i) : (s.takeWritten i t).pc = s.pc := by
  cases i with
  | ret | jp _ | call _ | seImm _ _ | sneImm _ _ | seReg _ _ | sknp _ => exact absurd trivial h
  | _ => rfl

theorem State.takeWritten_mem (h : ¬mayWriteMem i) : (s.takeWritten i t).mem = s.mem := by
  cases i with
  | ldB _ | store _ => exact absurd trivial h
  | _ => rfl

theorem State.takeWritten_stack (h : ∀ nnn, i ≠ .call nnn) : (s.takeWritten i t).stack = s.stack := by
  cases i with
  | call nnn => exact absurd rfl (h nnn)
  | _ => rfl

theorem State.takeWritten_sp (h : ∀ nnn, i ≠ .call nnn) (h' : i ≠ .ret) : (s.takeWritten i t).sp = s.sp := by
  cases i with
  | call nnn => exact absurd rfl (h nnn)
  | ret => exact absurd rfl h'
  | _ => rfl

theorem State.takeWritten_dt (h : ∀ x, i ≠ .ldDtVx x) : (s.takeWritten i t).dt = s.dt := by
  cases i with
  | ldDtVx x => exact absurd rfl (h x)
  | _ => rfl

theorem State.takeWritten_st (h : ∀ x, i ≠ .ldStVx x) : (s.takeWritten i t).st = s.st := by
  cases i with
  | ldStVx x => exact absurd rfl (h x)
  | _ => rfl

theorem State.takeWritten_disp (h : ∀ x y n, i ≠ .drw x y n) : (s.takeWritten i t).disp = s.disp := by
  cases i with
  | drw x y n => exact absurd rfl (h x y n)
  | _ => rfl

theorem State.takeWritten_randStream (h : ∀ x kk, i ≠ .rnd x kk) : (s.takeWritten i t).randStream = s.randStream := by
  cases i with
  | rnd x kk => exact absurd rfl (h x kk)
  | _ => rfl

theorem State.takeWritten_keyStream (h : ∀ x, i ≠ .sknp x) : (s.takeWritten i t).keyStream = s.keyStream := by
  cases i with
  | sknp x => exact absurd rfl (h x)
  | _ => rfl

theorem State.takeWritten_draws (h : ¬mayDraw i) : (s.takeWritten i t).draws = s.draws := by
  cases i with
  | rnd _ _ | sknp _ | drw _ _ _ => exact absurd trivial h
  | _ => rfl

end

/-! ## FAULT (O13) -/

/-- A branch target that is no legal program counter is that of an odd `nnn` or of 0 (R112, R117). -/
theorem odd_or_zero_of_not_legalPc_branchTarget {nnn : Addr} (h : ¬legalPc (branchTarget nnn)) :
    nnn.toNat % 2 = 1 ∨ nnn = 0 := by
  have hlt := nnn.isLt
  by_contra hn
  rw [not_or] at hn
  have hpos : nnn.toNat ≠ 0 := fun e => hn.2 (BitVec.eq_of_toNat_eq e)
  exact h (by unfold branchTarget legalPc; omega)

/-- A skip raises only at the top of memory, where the program counter is even (R110). -/
theorem skipIf_fault_of_ne_top {c : Bool} {s : State} (hpc : s.pc.toNat % 2 = 0) (htop : s.pc ≠ 0xFFE#12) :
    (skipIf c s).settle.fault = s.fault := by
  rcases skipIf_cases c s with ⟨-, e⟩ | ⟨-, -, e⟩ | ⟨-, hl, -⟩
  · rw [e]; rfl
  · rw [e]; rfl
  · have hlt := s.pc.isLt
    have hne : s.pc.toNat ≠ 4094 := fun e => htop (BitVec.eq_of_toNat_eq e)
    exact absurd (by unfold legalPc; omega) hl

/-- An instruction that can raise none of the errors listed for it leaves FAULT as it is (R201). -/
theorem exec_fault_of_not_mayRaise {i : Instr} {s t : State} (h : exec i s = .next t) (hpc : s.pc.toNat % 2 = 0)
    (hr : ∀ e, ¬mayRaise i s e) : t.fault = s.fault := by
  have below : ∀ e, (s.pc = 0xFFE#12 → mayRaise i s e) → s.pc ≠ 0xFFE#12 := fun e he htop => hr e (he htop)
  cases i with
  | ret => exact absurd rfl (hr .stackUnderflow)
  | jp nnn =>
    rcases execJp_cases h with ⟨-, rfl⟩ | ⟨hb, -⟩
    · rfl
    · exact absurd ⟨rfl, odd_or_zero_of_not_legalPc_branchTarget hb⟩ (hr _)
  | call nnn => exact absurd (.inl rfl) (hr .stackOverflow)
  | seImm x kk => cases h; exact skipIf_fault_of_ne_top hpc (below _ fun htop => ⟨rfl, htop⟩)
  | sneImm x kk => cases h; exact skipIf_fault_of_ne_top hpc (below _ fun htop => ⟨rfl, htop⟩)
  | seReg x y => cases h; exact skipIf_fault_of_ne_top hpc (below _ fun htop => ⟨rfl, htop⟩)
  | sknp x =>
    rcases execSknp_cases h with ⟨hk, -⟩ | ⟨p, ks, n, -, rfl⟩
    · exact absurd (.inl ⟨rfl, hk⟩) (hr _)
    · exact skipIf_fault_of_ne_top (s := { s with keyStream := ks, draws := n }) hpc
        (below _ fun htop => .inr ⟨rfl, htop⟩)
  | drw x y n =>
    have hn : n.toNat = 0 := by
      by_contra hn
      exact hr _ ⟨0, by omega, rfl⟩
    cases h
    rw [hn]
    rfl
  | ldDtVx x => exact absurd rfl (hr (.timerValueRejected 255#8))
  | ldStVx x => exact absurd rfl (hr (.timerValueRejected 255#8))
  | ldB x => exact absurd ⟨0, by omega, .inl rfl⟩ (hr _)
  | store x => exact absurd ⟨0, by omega, .inl rfl⟩ (hr _)
  | load x => exact absurd ⟨0, by omega, rfl⟩ (hr _)
  | rnd x kk => rw [exec_frame h]; rfl
  | _ => cases h; rfl

/-- Settles O13: the frame gives the fields that some instructions write, `exec_keeps` those that none does. -/
theorem otherStateChangesOnlyByItsWriters : Obligations.OtherStateChangesOnlyByItsWriters := by
  intro i s t h
  obtain ⟨hevents, hpar, hsched, hprev⟩ := exec_keeps h
  have hfault := exec_fault_of_not_mayRaise h
  have hframe := exec_frame h
  refine ⟨?i, ?pc, ?mem, ?stack, ?dt, ?st, ?disp, ?rand, ?key, ?draws, hfault, hprev, hevents, hpar, hsched⟩
  all_goals rw [hframe]
  case stack => exact fun hi => ⟨State.takeWritten_stack s t hi, State.takeWritten_sp s t hi⟩
  case i => exact State.takeWritten_i s t
  case pc => exact State.takeWritten_pc s t
  case mem => exact State.takeWritten_mem s t
  case dt => exact State.takeWritten_dt s t
  case st => exact State.takeWritten_st s t
  case disp => exact State.takeWritten_disp s t
  case rand => exact State.takeWritten_randStream s t
  case key => exact State.takeWritten_keyStream s t
  case draws => exact State.takeWritten_draws s t

end Sys2Proof.Machine

namespace Sys2Proof.Machine

/-! ## The stack, last in first out (O28) -/

/-- The stack holds the addresses of a list from an index up, the first at that index. -/
def State.Holds (s : State) (base : Nat) (as : List Addr) : Prop :=
  ∀ k, k < as.length → s.stack[base + k]? = as[k]?

/-- An even 12-bit address is legal for the stack (R32). -/
theorem legalPc_of_even {a : Addr} (ha : a.toNat % 2 = 0) : legalPc (a.toNat : Int) := by
  have := a.isLt
  unfold legalPc
  omega

/-- Pushes that fit complete: they leave the entries below the depth they start from, and hold the list above it (R32). -/
theorem pushAll_ok {as : List Addr} {s : State} (hfit : s.sp.val + as.length ≤ 16)
    (heven : ∀ a ∈ as, a.toNat % 2 = 0) :
    ∃ t, pushAll as s = .ok () t ∧ t.sp.val = s.sp.val + as.length ∧ t.Holds s.sp.val as ∧
      ∀ j, j < s.sp.val → t.stack[j]? = s.stack[j]? := by
  induction as generalizing s with
  | nil => exact ⟨s, rfl, rfl, fun k hk => absurd hk (by simp), fun _ _ => rfl⟩
  | cons a as ih =>
    rw [List.forall_mem_cons] at heven
    rw [List.length_cons] at hfit
    obtain ⟨t, ht, hsp, hholds, hbelow⟩ := ih (s := { s with
      stack := s.stack.set s.sp.val a, sp := ⟨s.sp.val + 1, by omega⟩ }) (by simp; omega) heven.2
    refine ⟨t, ?_, by simp at hsp ⊢; omega, fun k hk => ?_, fun j hj => ?_⟩
    · rw [pushAll, push_ok (by omega) (legalPc_of_even heven.1), Res.bind_ok]
      simpa using ht
    · cases k with
      | zero =>
        have := hbelow s.sp.val (by simp)
        simpa using this
      | succ k =>
        have := hholds k (by simpa using hk)
        rw [Nat.add_assoc, Nat.add_comm 1] at this
        simpa using this
    · have := hbelow j (by simp; omega)
      rw [this]
      simp [hj.ne']

/-- Pops give back the entries the stack holds up to its depth, the highest first, and leave all but the depth (R33). -/
theorem popAll_ok {as : List Addr} {s : State} {base : Fin 17} (hsp : s.sp.val = base.val + as.length)
    (hholds : s.Holds base.val as) : popAll as.length s = .ok as.reverse { s with sp := base } := by
  induction as using List.reverseRecOn generalizing s with
  | nil =>
    have : s.sp = base := Fin.ext (by simpa using hsp)
    simp [popAll, ← this]
  | append_singleton as a ih =>
    rw [List.length_append, List.length_singleton] at hsp ⊢
    have htop : s.stack[s.sp.val - 1]'(by omega) = a := by
      have := hholds as.length (by simp)
      rw [show base.val + as.length = s.sp.val - 1 by omega, List.getElem?_concat_length] at this
      exact (Vector.getElem?_eq_some_iff.mp this).2
    have hrest : s.Holds base.val as := by
      intro k hk
      have := hholds k (by simp; omega)
      rwa [List.getElem?_append_left hk] at this
    have hpops := ih (s := { s with sp := ⟨s.sp.val - 1, by omega⟩ }) (by simp; omega) hrest
    rw [popAll, pop_ok (by omega), Res.bind_ok, htop, hpops, Res.bind_ok, List.reverse_append, List.reverse_singleton,
      List.singleton_append]

/-- Settles O28: from depth 0 the pushes hold the list from index 0 up, and as many pops come back to depth 0. -/
theorem stackIsLastInFirstOut : Obligations.StackIsLastInFirstOut := by
  intro as s hsp hlen heven
  obtain ⟨t, hpush, htsp, hholds, -⟩ := pushAll_ok (s := s) (by omega) heven
  rw [hsp] at htsp hholds
  exact ⟨t, { t with sp := 0 }, hpush, popAll_ok (base := 0) htsp hholds, pop_underflow rfl⟩

end Sys2Proof.Machine

namespace Sys2Proof.Machine

/-! ## PREV is never read but by the payload of `UnsupportedInstruction` (O14) -/

/-- The state with another PREV. -/
def State.withPrev (p : Option Word) (s : State) : State := { s with prev := p }

/-- The same end, in a state with another PREV. -/
def Res.withPrev {α : Type} (p : Option Word) : Res α → Res α
  | .ok a s => .ok a (s.withPrev p)
  | .raised e s => .raised e (s.withPrev p)

/-- A run of primitives ignores PREV: a state with another PREV ends in the same way, with that PREV. -/
def IgnoresPrev {α : Type} (f : State → Res α) : Prop := ∀ p s, f (s.withPrev p) = (f s).withPrev p

theorem Res.settle_withPrev (p : Option Word) (r : Res Unit) : (r.withPrev p).settle = r.settle.withPrev p := by
  cases r <;> rfl

theorem IgnoresPrev.ok {α : Type} (a : α) : IgnoresPrev fun s => .ok a s := fun _ _ => rfl

theorem IgnoresPrev.bind {α β : Type} {f : State → Res α} {k : α → State → Res β} (hf : IgnoresPrev f)
    (hk : ∀ a, IgnoresPrev (k a)) : IgnoresPrev fun s => (f s).bind k := by
  intro p s
  show (f (s.withPrev p)).bind k = ((f s).bind k).withPrev p
  rw [hf p s]
  cases f s with
  | ok a u => exact hk a p u
  | raised e u => rfl

/-! ### The primitives -/

theorem memRead_ignoresPrev (a : Int) : IgnoresPrev (memRead a) := by
  intro p s; unfold memRead; split <;> rfl

theorem memWrite_ignoresPrev (a : Int) (b : Byte) : IgnoresPrev (memWrite a b) := by
  intro p s
  by_cases h : writable s.par a
  · rw [memWrite_ok h, memWrite_ok (s := s.withPrev p) h]; rfl
  · rw [memWrite_raised h, memWrite_raised (s := s.withPrev p) h]; rfl

theorem setPC_ignoresPrev (a : Int) : IgnoresPrev (setPC a) := by
  intro p s; unfold setPC; split <;> rfl

theorem skipIf_ignoresPrev (c : Bool) : IgnoresPrev (skipIf c) := by
  intro p s
  cases c with
  | false => rfl
  | true => exact setPC_ignoresPrev _ p s

theorem push_ignoresPrev (a : Int) : IgnoresPrev (push a) := by
  intro p s
  unfold push
  by_cases h : s.sp.val = 16
  · rw [dif_pos h, dif_pos (by exact h)]; rfl
  · rw [dif_neg h, dif_neg (by exact h)]; split <;> rfl

theorem pop_ignoresPrev : IgnoresPrev pop := by
  intro p s
  by_cases h : s.sp.val = 0
  · rw [pop_underflow h, pop_underflow (s := s.withPrev p) h]; rfl
  · have hpos : 0 < s.sp.val := Nat.pos_of_ne_zero h
    rw [pop_ok hpos, pop_ok (s := s.withPrev p) hpos]; rfl

theorem dispGet_ignoresPrev (off : Nat) : IgnoresPrev (dispGet off) := by
  intro p s; unfold dispGet State.withPrev; split <;> rfl

theorem dispSet_ignoresPrev (off : Nat) (b : Bool) : IgnoresPrev (dispSet off b) := by
  intro p s; unfold dispSet State.withPrev; split <;> rfl

theorem randByte_ignoresPrev : IgnoresPrev randByte := by
  intro p s
  unfold randByte State.withPrev
  cases s.randStream <;> rfl

theorem keyPressed_ignoresPrev (k : Byte) : IgnoresPrev (keyPressed k) := by
  intro p s
  unfold keyPressed
  split
  · rfl
  · unfold drawKey State.withPrev
    cases s.keyStream <;> rfl

theorem setDT_ignoresPrev (b : Byte) : IgnoresPrev (setDT b) := by
  intro p s; unfold setDT State.withPrev; split <;> rfl

theorem setST_ignoresPrev (b : Byte) : IgnoresPrev (setST b) := by
  intro p s; unfold setST State.withPrev; split <;> rfl

/-! ### Runs of primitives -/

theorem writeCells_ignoresPrev (base : Int) (cells : List (Nat × Byte)) : IgnoresPrev (writeCells base cells) := by
  induction cells with
  | nil => exact .ok ()
  | cons c cells ih => exact (memWrite_ignoresPrev _ _).bind fun _ => ih

theorem loadRegs_ignoresPrev (base : Int) (ks : List Nat) : IgnoresPrev (loadRegs base ks) := by
  induction ks with
  | nil => exact .ok ()
  | cons k ks ih => exact (memRead_ignoresPrev _).bind fun b p s => ih p (s.setV _ b)

theorem drawBit_ignoresPrev (cx cy row : Byte) (r b : Nat) (hit : Bool) :
    IgnoresPrev (drawBit cx cy row r b hit) := by
  refine IgnoresPrev.bind ?get fun old => IgnoresPrev.bind ?set fun _ => .ok _
  case get => exact fun p s => dispGet_ignoresPrev (pixelOffset s.par cx cy r b) p s
  case set => exact fun p s => dispSet_ignoresPrev (pixelOffset s.par cx cy r b) _ p s

theorem drawBits_ignoresPrev (cx cy row : Byte) (r : Nat) (bs : List Nat) (hit : Bool) :
    IgnoresPrev (drawBits cx cy row r bs hit) := by
  induction bs generalizing hit with
  | nil => exact .ok hit
  | cons b bs ih => exact (drawBit_ignoresPrev cx cy row r b hit).bind ih

theorem drawRows_ignoresPrev (base : Int) (cx cy : Byte) (rs : List Nat) (hit : Bool) :
    IgnoresPrev (drawRows base cx cy rs hit) := by
  induction rs generalizing hit with
  | nil => exact .ok hit
  | cons r rs ih =>
    exact (memRead_ignoresPrev _).bind fun row => (drawBits_ignoresPrev cx cy row r (List.range 8) hit).bind ih

theorem IgnoresPrev.finishDraw {f : State → Res Bool} (hf : IgnoresPrev f) :
    IgnoresPrev fun s => finishDraw (f s) := by
  intro p s
  simp only [hf p s]
  cases f s <;> rfl

theorem fetch_ignoresPrev : IgnoresPrev fetch := by
  refine IgnoresPrev.bind ?hi fun hi => IgnoresPrev.bind ?lo fun lo => .ok _
  case hi => exact fun p s => memRead_ignoresPrev (s.pc.toNat : Int) p s
  case lo => exact fun p s => memRead_ignoresPrev ((s.pc.toNat : Int) + 1) p s

/-! ### The phases of a step -/

/-- An execute phase that ignores PREV ends in the same state, but for PREV, from a state with another PREV. -/
theorem IgnoresPrev.finish {f : State → Res Unit} (hf : IgnoresPrev f) {p : Option Word} {s t : State}
    (h : finish (f s) = .next t) : finish (f (s.withPrev p)) = .next (t.withPrev p) := by
  cases h
  rw [hf p s, finish_eq, Res.settle_withPrev]

/-- No instruction's execute phase reads or writes PREV. -/
theorem exec_withPrev {i : Instr} {s t : State} (p : Option Word) (h : exec i s = .next t) :
    exec i (s.withPrev p) = .next (t.withPrev p) := by
  cases i with
  | ret => exact (pop_ignoresPrev.bind fun a => setPC_ignoresPrev (a.toNat : Int)).finish h
  | jp nnn => exact (setPC_ignoresPrev _).finish h
  | call nnn => exact ((push_ignoresPrev (s.pc.toNat : Int)).bind fun _ => setPC_ignoresPrev _).finish h
  | seImm x kk => exact (skipIf_ignoresPrev _).finish h
  | sneImm x kk => exact (skipIf_ignoresPrev _).finish h
  | seReg x y => exact (skipIf_ignoresPrev _).finish h
  | sknp x => exact ((keyPressed_ignoresPrev (s.getV x)).bind fun q => skipIf_ignoresPrev (!q)).finish h
  | rnd x kk =>
    exact (randByte_ignoresPrev.bind (k := fun r s => .ok () (s.setV x (r &&& kk))) fun _ _ _ => rfl).finish h
  | drw x y n =>
    exact (drawRows_ignoresPrev (indexBase s) (s.getV x) (s.getV y) (List.range n.toNat) false).finishDraw.finish h
  | ldDtVx x => exact (setDT_ignoresPrev (s.getV x)).finish h
  | ldStVx x => exact (setST_ignoresPrev (s.getV x)).finish h
  | ldB x => exact (writeCells_ignoresPrev (indexBase s) (bcdCells s.par.bcdLayout (s.getV x))).finish h
  | store x => exact (writeCells_ignoresPrev (indexBase s) (regCells s x)).finish h
  | load x => exact (loadRegs_ignoresPrev (indexBase s) _).finish h
  | _ => cases h; rfl

theorem tickDelay_withPrev (p : Option Word) (s : State) : tickDelay (s.withPrev p) = (tickDelay s).withPrev p := by
  unfold tickDelay State.withPrev; split <;> rfl

theorem tickSound_withPrev (p : Option Word) (s : State) : tickSound (s.withPrev p) = (tickSound s).withPrev p := by
  unfold tickSound State.withPrev; split <;> rfl

theorem timerPhase_withPrev (p : Option Word) (s : State) : timerPhase (s.withPrev p) = (timerPhase s).withPrev p := by
  rw [timerPhase, tickDelay_withPrev, tickSound_withPrev, timerPhase]

theorem trace_withPrev (p : Option Word) (w : Word) (s : State) : trace w (s.withPrev p) = (trace w s).withPrev p := by
  unfold trace State.withPrev; split <;> rfl

/-! ### The step -/

/-- Two ends of a step that PREV alone tells apart: the same state where the step completes; else PREV and FAULT may differ,
and FAULT only in the PREV that `UnsupportedInstruction` carries (R205). -/
structure AgreeButForPrev (t t' : State) : Prop where
  completed : t.fault = none → t' = t
  others : t' = { t with prev := t'.prev, fault := t'.fault }
  errors : t'.fault.map Err.withoutPrev = t.fault.map Err.withoutPrev

theorem agreeButForPrev_takeFault {e e' : Err} (he : e'.withoutPrev = e.withoutPrev) (p : Option Word) (s : State) :
    AgreeButForPrev (takeFault e s) (takeFault e' (s.withPrev p)) where
  completed := nofun
  others := rfl
  errors := congrArg some he

/-- The end of a step as one equation (R94, R207). -/
theorem completeStep_eq (w : Word) (u : State) :
    completeStep w u =
      if u.fault ≠ none then u
      else if legalPc ((u.pc.toNat : Int) + 2) then
        { u with pc := BitVec.ofInt 12 ((u.pc.toNat : Int) + 2), prev := some w }
      else takeFault (.invalidAddress ((u.pc.toNat : Int) + 2)) u := by
  rcases completeStep_cases w u with ⟨hf, e⟩ | ⟨hf, hl, e⟩ | ⟨hf, hl, e⟩
  · rw [e, if_pos hf]
  · rw [e, if_neg (not_not_intro hf), if_pos hl]
  · rw [e, if_neg (not_not_intro hf), if_neg hl]

/-- The end of a step writes PREV and does not read it (R94). -/
theorem completeStep_agreeButForPrev (w : Word) (p : Option Word) (u : State) :
    AgreeButForPrev (completeStep w u) (completeStep w (u.withPrev p)) := by
  have hfault : (u.withPrev p).fault = u.fault := rfl
  have hpc : (u.withPrev p).pc = u.pc := rfl
  rw [completeStep_eq, completeStep_eq, hfault, hpc]
  split_ifs with hf hl
  · exact ⟨fun h => absurd h hf, rfl, rfl⟩
  · exact ⟨fun _ => rfl, rfl, rfl⟩
  · exact agreeButForPrev_takeFault rfl p u

/-- Settles O14: phase by phase, a state with another PREV goes the same way. -/
theorem prevNeverInfluencesAStep : Obligations.PrevNeverInfluencesAStep := by
  intro s t p h
  suffices hstep : ∃ t', step (s.withPrev p) = .next t' ∧ AgreeButForPrev t t' by
    obtain ⟨t', ht', hcompleted, hothers, herrors⟩ := hstep
    exact ⟨t', ht', hcompleted, hothers, herrors⟩
  obtain ⟨hf, -⟩ := step_cases h
  have hf' : (s.withPrev p).fault = none := hf
  have hfetch : fetch (timerPhase (s.withPrev p)) = (fetch (timerPhase s)).withPrev p := by
    rw [timerPhase_withPrev, fetch_ignoresPrev]
  unfold step at h ⊢
  rw [hf] at h
  rw [hf', hfetch]
  cases hr : fetch (timerPhase s) with
  | raised e u =>
    rw [hr] at h
    cases h
    exact ⟨_, rfl, agreeButForPrev_takeFault rfl p u⟩
  | ok w u =>
    rw [hr] at h
    simp only [Res.withPrev] at h ⊢
    cases hd : decode w with
    | none =>
      rw [hd] at h
      cases h
      exact ⟨_, rfl, agreeButForPrev_takeFault (e := .unsupportedInstruction w u.prev)
        (e' := .unsupportedInstruction w p) rfl p u⟩
    | some i =>
      obtain ⟨v, hv⟩ := exec_total i (trace w u)
      rw [hd] at h
      simp only [hv, trace_withPrev, exec_withPrev p hv] at h ⊢
      cases h
      exact ⟨_, rfl, completeStep_agreeButForPrev w p v⟩

end Sys2Proof.Machine

/-!
PROOFS. The statements of spec/20_memory.md: the step as the spec composes it from the byte order of the fetch, the timers, the
trace, the execute phase and the advance; and that no step changes the font.
-/

namespace Sys2Proof.Machine

/-! ## Byte order and the state before the execute phase (O7) -/

/-- The first byte of a word is the more significant one (R58). -/
theorem toNat_wordOfBytes (hi lo : Byte) : (wordOfBytes hi lo).toNat = 256 * hi.toNat + lo.toNat := by
  rw [wordOfBytes, BitVec.toNat_append, ← Nat.shiftLeft_add_eq_or_of_lt lo.isLt, Nat.shiftLeft_eq, Nat.mul_comm]

/-- Phase 1 writes the timers and records calls (R91). -/
theorem timerPhase_frame (s : State) :
    timerPhase s =
      { s with dt := (timerPhase s).dt, st := (timerPhase s).st, events := (timerPhase s).events } := by
  unfold timerPhase tickSound tickDelay; split <;> split <;> rfl

/-- The trace records a call (R224). -/
theorem trace_frame (w : Word) (s : State) : trace w s = { s with events := (trace w s).events } := by
  unfold trace; split <;> rfl

/-- The state the execute phase starts from: the timers counted down and the calls recorded (R91, R222, R224). -/
theorem State.begun_eq (s : State) :
    s.begun = { s with
      dt := countDown s.dt
      st := countDown s.st
      events := (if s.par.traceSink then [.trace (s.wordAt s.pc.toNat)] else []) ++
        (if s.st = 0#8 then [] else [.beep]) ++ s.events } := by
  have frame : s.begun = { s with dt := s.begun.dt, st := s.begun.st, events := s.begun.events } := by
    unfold State.begun
    rw [trace_frame, timerPhase_frame]
  rw [frame, State.begun_dt, State.begun_st, State.begun_events]

/-! ## The step from a state that fetches an instruction (O7) -/

/-- The timers do not touch memory, so the word fetched after them is the one before them. -/
@[simp] theorem timerPhase_wordAt (s : State) (a : Nat) : (timerPhase s).wordAt a = s.wordAt a := by
  simp [State.wordAt]

/-- A step whose word decodes is the execute phase from `State.begun`, then the final advance (R90). -/
theorem step_of_decode {s u : State} {i : Instr} (hf : s.fault = none) (hpc : s.pc.toNat % 2 = 0)
    (hd : decode (s.wordAt s.pc.toNat) = some i) (hu : exec i s.begun = .next u) :
    step s = .next (completeStep (s.wordAt s.pc.toNat) u) := by
  have hfetch : fetch (timerPhase s) = .ok (s.wordAt s.pc.toNat) (timerPhase s) := by
    simpa using fetch_ok (s := timerPhase s) (by simpa using hpc)
  have hexec : exec i (trace (s.wordAt s.pc.toNat) (timerPhase s)) = .next u := hu
  simp [step, hf, hfetch, hd, hexec, finishStep]

/-- A raise in the execute phase ends the step there (R207). -/
theorem completeStep_of_fault {w : Word} {u : State} {e : Err} (h : u.fault = some e) : completeStep w u = u := by
  simp [completeStep, h]

/-- An execute phase that did not raise is followed by the advance (R94). -/
theorem completeStep_of_no_fault {w : Word} {u : State} (h : u.fault = none) : completeStep w u = advance w u := by
  simp [completeStep, h]

/-- Settles O7: the byte order, the state before the execute phase, and the two ends of a step. -/
theorem stepRunsTheDecodedInstruction : Obligations.StepRunsTheDecodedInstruction := by
  refine fun s => ⟨fun a => toNat_wordOfBytes _ _, s.begun_eq, fun i hf hpc hd => ?_⟩
  obtain ⟨u, hu⟩ := exec_total i s.begun
  have hstep := step_of_decode hf hpc hd hu
  refine ⟨u, hu, fun e he => ?_, fun hnone heven => ?_⟩
  · rw [hstep, completeStep_of_fault he]
  · rw [hstep, completeStep_of_no_fault hnone, advance_eq _ heven]
    rfl

/-! ## The font (O17) -/

/-- What a byte reads as depends on memory and the parameters alone (R50, R64). -/
theorem State.byteAt_congr {s t : State} (hmem : t.mem = s.mem) (hpar : t.par = s.par) (a : Nat) :
    t.byteAt a = s.byteAt a := by
  rw [State.byteAt, State.byteAt, hmem, hpar]

/-- Under the policy `fault` no address that `MemWrite` takes lies in the font, so a run of writes, completed or stopped,
leaves the font as it is (R52, R207). -/
theorem finish_writeCells_keeps_font {base : Int} {cells : List (Nat × Byte)} {s t : State}
    (hp : s.par.fontPolicy = .fault) (h : finish (writeCells base cells s) = .next t) {a : Nat} (ha : a < 0x50) :
    t.byteAt a = s.byteAt a := by
  have put : ∀ cs : List (Nat × Byte), (∀ c ∈ cs, writable s.par (base + c.1)) →
      (putCells base cs s).byteAt a = s.byteAt a := by
    intro cs hcs
    refine byteAt_putCells_other (fun c hc => ?_) s
    have habove : 0x04F < base + c.1 := (hcs c hc).2 hp
    omega
  rcases finish_writeCells_cases h with ⟨hw, rfl⟩ | ⟨pre, c, post, -, hw, -, rfl⟩
  · exact put cells hw
  · exact put pre hw

/-- The execute phase of every instruction leaves the font as it is: LD B and LD [I] write through the policy, and no other
instruction writes memory (R56). -/
theorem exec_keeps_font {i : Instr} {s t : State} (hp : s.par.fontPolicy = .fault) (h : exec i s = .next t) {a : Nat}
    (ha : a < 0x50) : t.byteAt a = s.byteAt a := by
  by_cases hw : mayWriteMem i
  · cases i with
    | ldB x => exact finish_writeCells_keeps_font hp h ha
    | store x => exact finish_writeCells_keeps_font hp h ha
    | _ => exact hw.elim
  · have hmem : t.mem = s.mem := by rw [exec_frame h, State.takeWritten_mem _ _ hw]
    obtain ⟨-, hpar, -, -⟩ := exec_keeps h
    exact State.byteAt_congr hmem hpar a

/-- The end of a step writes no memory (R94). -/
@[simp] theorem completeStep_byteAt (w : Word) (u : State) (a : Nat) : (completeStep w u).byteAt a = u.byteAt a := by
  rcases completeStep_cases w u with ⟨-, e⟩ | ⟨-, -, e⟩ | ⟨-, -, e⟩ <;> rw [e] <;> rfl

/-- Settles O17: only the execute phase can write memory, and it leaves the font as it is. -/
theorem stepKeepsTheFont : Obligations.StepKeepsTheFont := by
  intro s t hp h a ha
  obtain ⟨-, ⟨e, rfl⟩ | ⟨w, i, u, -, hu, rfl⟩⟩ := step_cases h
  · simp
  · have hfont := exec_keeps_font (by simpa using hp) hu ha
    simpa using hfont

end Sys2Proof.Machine

/-!
PROOFS. The statements of spec/30_encoding.md: the decoder and the encoder are inverse, the rows of the opcode map do not
overlap, the unsupported words are those off the map, and what the timers and an unsupported word leave in a step.
-/

namespace Sys2Proof

/-! ## Decode after encode (O2) -/

/-- Settles O2: the fields of an encoded instruction are its operands, so the dispatch takes its own branch. -/
theorem decodeOfEncodeIsTheInstruction : Obligations.DecodeOfEncodeIsTheInstruction := by
  intro i
  cases i with
  | ret => rfl
  | seReg _ _ => simp [encode, decode, decodeFamily5]
  | ldReg _ _ | andReg _ _ | addReg _ _ | subReg _ _ | shr _ _ | shl _ _ => simp [encode, decode, decodeFamily8]
  | sknp _ => simp [encode, decode, decodeFamilyE]
  | ldVxDt _ | ldDtVx _ | ldStVx _ | addI _ | ldF _ | ldB _ | store _ | load _ =>
    simp [encode, decode, decodeFamilyF]
  | jp _ | call _ | seImm _ _ | sneImm _ _ | ldImm _ _ | addImm _ _ | ldI _ | rnd _ _ | drw _ _ _ =>
    simp [encode, decode]

/-! ## The families that look at more than the first digit (R85) -/

section
variable {w : Word}

theorem decode_of_family5 (hf : nibble0 w = 0x5#4) : decode w = decodeFamily5 w := by simp [decode, hf]
theorem decode_of_family8 (hf : nibble0 w = 0x8#4) : decode w = decodeFamily8 w := by simp [decode, hf]
theorem decode_of_familyE (hf : nibble0 w = 0xE#4) : decode w = decodeFamilyE w := by simp [decode, hf]
theorem decode_of_familyF (hf : nibble0 w = 0xF#4) : decode w = decodeFamilyF w := by simp [decode, hf]

end

/-! ## Encode after decode (O3) -/

section
variable {w : Word} {f : Nibble}

/-! A word is the concatenation of its family and its other fields (R81, R82). -/

theorem append_address_of_family (hf : nibble0 w = f) : f ++ address w = w := by
  rw [← hf, nibble0_append_address]

theorem append_nibble1_append_byte1_of_family (hf : nibble0 w = f) : f ++ nibble1 w ++ byte1 w = w := by
  rw [← hf, nibble0_append_nibble1_append_byte1]

theorem append_nibbles_of_family (hf : nibble0 w = f) : f ++ nibble1 w ++ nibble2 w ++ nibble3 w = w := by
  rw [← hf, nibble0_append_nibble1_append_nibble2_append_nibble3]

end

theorem encode_of_decodeFamily0 {w : Word} {i : Instr} (hf : nibble0 w = 0x0#4) (h : decodeFamily0 w = some i) :
    encode i = w := by
  have hw := append_nibble1_append_byte1_of_family hf
  unfold decodeFamily0 at h
  split at h
  next hfixed =>
    obtain ⟨hx, hk⟩ := hfixed
    cases h
    rw [← hw, hx, hk]
    rfl
  next => cases h

theorem encode_of_decodeFamily5 {w : Word} {i : Instr} (hf : nibble0 w = 0x5#4) (h : decodeFamily5 w = some i) :
    encode i = w := by
  have hw := append_nibbles_of_family hf
  unfold decodeFamily5 at h
  split at h
  next hn => cases h; rwa [hn] at hw
  next => cases h

theorem encode_of_decodeFamily8 {w : Word} {i : Instr} (hf : nibble0 w = 0x8#4) (h : decodeFamily8 w = some i) :
    encode i = w := by
  have hw := append_nibbles_of_family hf
  unfold decodeFamily8 at h
  split at h
  case h_7 => cases h
  all_goals
    next hn => cases h; rwa [hn] at hw

theorem encode_of_decodeFamilyE {w : Word} {i : Instr} (hf : nibble0 w = 0xE#4) (h : decodeFamilyE w = some i) :
    encode i = w := by
  have hw := append_nibble1_append_byte1_of_family hf
  unfold decodeFamilyE at h
  split at h
  next hk => cases h; rwa [hk] at hw
  next => cases h

theorem encode_of_decodeFamilyF {w : Word} {i : Instr} (hf : nibble0 w = 0xF#4) (h : decodeFamilyF w = some i) :
    encode i = w := by
  have hw := append_nibble1_append_byte1_of_family hf
  unfold decodeFamilyF at h
  split at h
  case h_9 => cases h
  all_goals
    next hk => cases h; rwa [hk] at hw

/-- Settles O3: each branch of the dispatch has checked every fixed digit that the encoder writes. -/
theorem encodeOfDecodeIsTheWord : Obligations.EncodeOfDecodeIsTheWord := by
  intro w i h
  unfold decode at h
  split at h
  next hf => exact encode_of_decodeFamily0 hf h
  next hf => cases h; exact append_address_of_family hf
  next hf => cases h; exact append_address_of_family hf
  next hf => cases h; exact append_nibble1_append_byte1_of_family hf
  next hf => cases h; exact append_nibble1_append_byte1_of_family hf
  next hf => exact encode_of_decodeFamily5 hf h
  next hf => cases h; exact append_nibble1_append_byte1_of_family hf
  next hf => cases h; exact append_nibble1_append_byte1_of_family hf
  next hf => exact encode_of_decodeFamily8 hf h
  next hf => cases h; exact append_address_of_family hf
  next hf => cases h; exact append_nibble1_append_byte1_of_family hf
  next hf => cases h; exact append_nibbles_of_family hf
  next hf => exact encode_of_decodeFamilyE hf h
  next hf => exact encode_of_decodeFamilyF hf h
  next => cases h

/-- A word decodes to an instruction exactly where it is the instruction's encoding. -/
theorem decode_eq_some_iff {w : Word} {i : Instr} : decode w = some i ↔ encode i = w :=
  ⟨encodeOfDecodeIsTheWord w i, fun h => h ▸ decodeOfEncodeIsTheInstruction i⟩

/-- A word is unsupported exactly where it encodes no instruction. -/
theorem decode_eq_none_iff {w : Word} : decode w = none ↔ ∀ i, encode i ≠ w := by
  simp [Option.eq_none_iff_forall_ne_some, decode_eq_some_iff]

/-- Settles O1: fourteen closed words, each decoded by computation. -/
theorem sampleWordsDecodeAsTheirRows : Obligations.SampleWordsDecodeAsTheirRows := by
  unfold Obligations.SampleWordsDecodeAsTheirRows
  decide

/-! ## The rows of the opcode map do not overlap (O4) -/

theorem OpRow.covers_iff {r : OpRow} {w : Word} : r.covers w = true ↔ w &&& r.mask = r.value :=
  decide_eq_true_iff

/-- Two rows that match one word agree on the digits that both fix. -/
theorem OpRow.value_and_mask_of_covers {w : Word} {r r' : OpRow} (h : r.covers w = true) (h' : r'.covers w = true) :
    r.value &&& r'.mask = r'.value &&& r.mask := by
  rw [OpRow.covers_iff] at h h'
  rw [← h, ← h', BitVec.and_assoc, BitVec.and_comm r.mask, ← BitVec.and_assoc]

/-- No two rows of the map agree on the digits that both fix. -/
theorem opcodeRows_differ_in_fixed_digits :
    ∀ r ∈ opcodeRows, ∀ r' ∈ opcodeRows, r.value &&& r'.mask = r'.value &&& r.mask → r = r' := by
  decide

/-- Settles O4: a word that two rows match would make them agree where both are fixed, and no two rows do. -/
theorem noWordMatchesTwoRows : Obligations.NoWordMatchesTwoRows := by
  intro w r r' hr hr' h h'
  exact opcodeRows_differ_in_fixed_digits r hr r' hr' (OpRow.value_and_mask_of_covers h h')

/-! ## A word decodes exactly where a row matches it (O5) -/

/-- Every instruction's own row stands in the map and matches its word (R86). -/
theorem rowOf_covers_encode (i : Instr) : (rowOf i).covers (encode i) = true ∧ rowOf i ∈ opcodeRows := by
  cases i with
  | ret => exact Laws.OwnRow.ret
  | jp nnn => exact Laws.OwnRow.jp nnn
  | call nnn => exact Laws.OwnRow.call nnn
  | seImm x kk => exact Laws.OwnRow.seImm x kk
  | sneImm x kk => exact Laws.OwnRow.sneImm x kk
  | seReg x y => exact Laws.OwnRow.seReg x y
  | ldImm x kk => exact Laws.OwnRow.ldImm x kk
  | addImm x kk => exact Laws.OwnRow.addImm x kk
  | ldReg x y => exact Laws.OwnRow.ldReg x y
  | andReg x y => exact Laws.OwnRow.andReg x y
  | addReg x y => exact Laws.OwnRow.addReg x y
  | subReg x y => exact Laws.OwnRow.subReg x y
  | shr x y => exact Laws.OwnRow.shr x y
  | shl x y => exact Laws.OwnRow.shl x y
  | ldI nnn => exact Laws.OwnRow.ldI nnn
  | rnd x kk => exact Laws.OwnRow.rnd x kk
  | drw x y n => exact Laws.OwnRow.drw x y n
  | sknp x => exact Laws.OwnRow.sknp x
  | ldVxDt x => exact Laws.OwnRow.ldVxDt x
  | ldDtVx x => exact Laws.OwnRow.ldDtVx x
  | ldStVx x => exact Laws.OwnRow.ldStVx x
  | addI x => exact Laws.OwnRow.addI x
  | ldF x => exact Laws.OwnRow.ldF x
  | ldB x => exact Laws.OwnRow.ldB x
  | store x => exact Laws.OwnRow.store x
  | load x => exact Laws.OwnRow.load x

/-- One instruction of each row, in the map's order. -/
def instrOfEachRow : List Instr :=
  [.ret, .jp 0, .call 0, .seImm 0 0, .sneImm 0 0, .seReg 0 0, .ldImm 0 0, .addImm 0 0, .ldReg 0 0, .andReg 0 0, .addReg 0 0,
   .subReg 0 0, .shr 0 0, .shl 0 0, .ldI 0, .rnd 0 0, .drw 0 0 0, .sknp 0, .ldVxDt 0, .ldDtVx 0, .ldStVx 0, .addI 0, .ldF 0,
   .ldB 0, .store 0, .load 0]

theorem map_rowOf_instrOfEachRow : instrOfEachRow.map rowOf = opcodeRows := rfl

/-- Every row of the map is the row of some instruction. -/
theorem exists_rowOf_eq {r : OpRow} (hr : r ∈ opcodeRows) : ∃ i, rowOf i = r := by
  rw [← map_rowOf_instrOfEachRow] at hr
  obtain ⟨i, -, hi⟩ := List.mem_map.mp hr
  exact ⟨i, hi⟩

section
variable {r : OpRow} {w : Word}

/-! A field that a row's mask covers whole is that of the row's value, in every word the row matches. -/

theorem OpRow.nibble0_of_covers (h : r.covers w = true) (hm : nibble0 r.mask = 0xF#4) : nibble0 w = nibble0 r.value := by
  rw [← OpRow.covers_iff.mp h, nibble0, nibble0, BitVec.extractLsb'_and, ← nibble0, ← nibble0, hm, and_all4]

theorem OpRow.nibble3_of_covers (h : r.covers w = true) (hm : nibble3 r.mask = 0xF#4) : nibble3 w = nibble3 r.value := by
  rw [← OpRow.covers_iff.mp h, nibble3, nibble3, BitVec.extractLsb'_and, ← nibble3, ← nibble3, hm, and_all4]

theorem OpRow.byte1_of_covers (h : r.covers w = true) (hm : byte1 r.mask = 0xFF#8) : byte1 w = byte1 r.value := by
  rw [← OpRow.covers_iff.mp h, byte1, byte1, BitVec.extractLsb'_and, ← byte1, ← byte1, hm, and_all8]

end

/-- A word that an instruction's row matches decodes: the row fixes the fields that the dispatch looks at. -/
theorem decode_ne_none_of_rowOf_covers {i : Instr} {w : Word} (h : (rowOf i).covers w = true) : decode w ≠ none := by
  cases i <;> simp only [rowOf] at h
  case ret =>
    have hw : w &&& BitVec.allOnes 16 = 0x00EE#16 := OpRow.covers_iff.mp h
    rw [BitVec.and_allOnes] at hw
    subst hw
    decide
  case jp _ | call _ | seImm _ _ | sneImm _ _ | ldImm _ _ | addImm _ _ | ldI _ | rnd _ _ | drw _ _ _ =>
    rw [decode, OpRow.nibble0_of_covers h rfl]
    exact Option.some_ne_none _
  case seReg _ _ =>
    rw [decode_of_family5 (OpRow.nibble0_of_covers h rfl), decodeFamily5, OpRow.nibble3_of_covers h rfl]
    exact Option.some_ne_none _
  case ldReg _ _ | andReg _ _ | addReg _ _ | subReg _ _ | shr _ _ | shl _ _ =>
    rw [decode_of_family8 (OpRow.nibble0_of_covers h rfl), decodeFamily8, OpRow.nibble3_of_covers h rfl]
    exact Option.some_ne_none _
  case sknp _ =>
    rw [decode_of_familyE (OpRow.nibble0_of_covers h rfl), decodeFamilyE, OpRow.byte1_of_covers h rfl]
    exact Option.some_ne_none _
  case ldVxDt _ | ldDtVx _ | ldStVx _ | addI _ | ldF _ | ldB _ | store _ | load _ =>
    rw [decode_of_familyF (OpRow.nibble0_of_covers h rfl), decodeFamilyF, OpRow.byte1_of_covers h rfl]
    exact Option.some_ne_none _

/-- A word is unsupported exactly where no row of the map matches it (R86, R87). -/
theorem decode_eq_none_iff_no_row_covers {w : Word} :
    decode w = none ↔ ∀ r ∈ opcodeRows, r.covers w = false := by
  constructor
  · intro hnone r hr
    obtain ⟨i, rfl⟩ := exists_rowOf_eq hr
    by_contra hcovers
    exact decode_ne_none_of_rowOf_covers (eq_true_of_ne_false hcovers) hnone
  · intro huncovered
    rw [decode_eq_none_iff]
    rintro i rfl
    obtain ⟨hcovers, hrow⟩ := rowOf_covers_encode i
    simp [huncovered _ hrow] at hcovers

/-! ## The unsupported words, family by family (O5) -/

section
variable {w : Word}

theorem decodeFamily0_eq_none_iff (hf : nibble0 w = 0x0#4) : decodeFamily0 w = none ↔ w ≠ 0x00EE#16 := by
  have hret : nibble1 w = 0x0#4 ∧ byte1 w = 0xEE#8 ↔ w = 0x00EE#16 := by
    constructor
    · rintro ⟨hx, hk⟩
      rw [← append_nibble1_append_byte1_of_family hf, hx, hk]
      rfl
    · rintro rfl
      decide
  simp [decodeFamily0, hret]

theorem decodeFamily5_eq_none_iff : decodeFamily5 w = none ↔ nibble3 w ≠ 0x0#4 := by
  simp [decodeFamily5]

theorem decodeFamily8_eq_none_iff :
    decodeFamily8 w = none ↔ nibble3 w ∈ [0x1#4, 0x3#4, 0x7#4, 0x8#4, 0x9#4, 0xA#4, 0xB#4, 0xC#4, 0xD#4, 0xF#4] := by
  have others : ∀ n : Nibble, n ∈ [0x1#4, 0x3#4, 0x7#4, 0x8#4, 0x9#4, 0xA#4, 0xB#4, 0xC#4, 0xD#4, 0xF#4] ↔
      n ∉ [0x0#4, 0x2#4, 0x4#4, 0x5#4, 0x6#4, 0xE#4] := by decide
  rw [others, decodeFamily8]
  split <;> simp_all

theorem decodeFamilyE_eq_none_iff : decodeFamilyE w = none ↔ byte1 w ≠ 0xA1#8 := by
  simp [decodeFamilyE]

theorem decodeFamilyF_eq_none_iff :
    decodeFamilyF w = none ↔ byte1 w ∉ [0x07#8, 0x15#8, 0x18#8, 0x1E#8, 0x29#8, 0x33#8, 0x55#8, 0x65#8] := by
  unfold decodeFamilyF
  split <;> simp_all

end

/-- The words that R87 lists, family by family. -/
def UnsupportedByFamily (w : Word) : Prop :=
  nibble0 w = 0x0#4 ∧ w ≠ 0x00EE#16 ∨
  nibble0 w = 0x5#4 ∧ nibble3 w ≠ 0x0#4 ∨
  nibble0 w = 0x8#4 ∧ nibble3 w ∈ [0x1#4, 0x3#4, 0x7#4, 0x8#4, 0x9#4, 0xA#4, 0xB#4, 0xC#4, 0xD#4, 0xF#4] ∨
  nibble0 w = 0x9#4 ∨
  nibble0 w = 0xB#4 ∨
  nibble0 w = 0xE#4 ∧ byte1 w ≠ 0xA1#8 ∨
  nibble0 w = 0xF#4 ∧ byte1 w ∉ [0x07#8, 0x15#8, 0x18#8, 0x1E#8, 0x29#8, 0x33#8, 0x55#8, 0x65#8]

/-- A word is unsupported exactly where R87 lists it. -/
theorem decode_eq_none_iff_unsupportedByFamily {w : Word} : decode w = none ↔ UnsupportedByFamily w := by
  unfold UnsupportedByFamily decode
  split
  case h_1 hf => simp [hf, decodeFamily0_eq_none_iff hf]
  case h_6 hf => simp [hf, decodeFamily5_eq_none_iff]
  case h_9 hf => simp [hf, decodeFamily8_eq_none_iff]
  case h_13 hf => simp [hf, decodeFamilyE_eq_none_iff]
  case h_14 hf => simp [hf, decodeFamilyF_eq_none_iff]
  case h_15 =>
    have families : ∀ f : Nibble, f = 0x9#4 ∨ f = 0xB#4 ∨
        f ∈ [0x0#4, 0x1#4, 0x2#4, 0x3#4, 0x4#4, 0x5#4, 0x6#4, 0x7#4, 0x8#4, 0xA#4, 0xC#4, 0xD#4, 0xE#4, 0xF#4] := by
      decide
    rcases families (nibble0 w) with hf | hf | hf
    · simp [hf]
    · simp [hf]
    · simp_all
  all_goals
    next hf => simp [hf]

end Sys2Proof

namespace Sys2Proof.Machine

/-! ## A step that fetches an unsupported word (O5, O6) -/

/-- Phase 1 as one update: both timers counted down, and a beep where the sound timer was running (R91, R222). -/
theorem timerPhase_eq (s : State) :
    timerPhase s = { s with
      dt := countDown s.dt
      st := countDown s.st
      events := if s.st = 0#8 then s.events else .beep :: s.events } := by
  rw [timerPhase_frame, timerPhase_dt, timerPhase_st, timerPhase_events, countDown, countDown]

/-- A step whose word is unsupported is phase 1, then the raise (R95, R205). -/
theorem step_of_decode_none {s : State} (hf : s.fault = none) (hpc : s.pc.toNat % 2 = 0)
    (hd : decode (s.wordAt s.pc.toNat) = none) :
    step s = .next (takeFault (.unsupportedInstruction (s.wordAt s.pc.toNat) s.prev) (timerPhase s)) := by
  have hfetch : fetch (timerPhase s) = .ok (s.wordAt s.pc.toNat) (timerPhase s) := by
    simpa using fetch_ok (s := timerPhase s) (by simpa using hpc)
  simp [step, hf, hfetch, hd, unsupported]

/-- Settles O5: the rows by the encoder and its inverse, the families by the dispatch, the raise by the step. -/
theorem unsupportedWordsAreThoseOffTheMap : Obligations.UnsupportedWordsAreThoseOffTheMap := by
  refine fun w => ⟨decode_eq_none_iff_no_row_covers, decode_eq_none_iff_unsupportedByFamily, ?_⟩
  rintro s hf hpc rfl hd
  exact ⟨_, step_of_decode_none hf hpc hd, takeFault_fault _ _⟩

/-- Settles O6: the step is phase 1 and the raise, each a known update of the state. -/
theorem unsupportedWordChangesNothingAfterTheTimers : Obligations.UnsupportedWordChangesNothingAfterTheTimers := by
  intro s hf hpc hd
  refine ⟨_, step_of_decode_none hf hpc hd, ?_⟩
  rw [timerPhase_eq]
  rfl

/-! ## The timers and the beeps of a step (O9) -/

/-- The calls recorded alone say how many beeps there were. -/
theorem State.beeps_congr {s t : State} (h : t.events = s.events) : t.beeps = s.beeps := by
  rw [State.beeps, State.beeps, h]

theorem timerPhase_beeps (s : State) : (timerPhase s).beeps = s.beeps + if s.st = 0#8 then 0 else 1 := by
  rw [State.beeps, timerPhase_events]
  split <;> simp [State.beeps]

/-- A call of the sink is no beep (R224). -/
theorem trace_beeps (w : Word) (s : State) : (trace w s).beeps = s.beeps := by
  rw [State.beeps, trace_events]
  split <;> simp [State.beeps]

/-- The end of a step writes no timer and calls no one (R94). -/
theorem completeStep_keeps_timers (w : Word) (u : State) :
    (completeStep w u).dt = u.dt ∧ (completeStep w u).st = u.st ∧ (completeStep w u).events = u.events := by
  rcases completeStep_cases w u with ⟨-, e⟩ | ⟨-, -, e⟩ | ⟨-, -, e⟩ <;> rw [e] <;> exact ⟨rfl, rfl, rfl⟩

/-- Settles O9: phase 1 counts down and beeps, and after it only LD DT and LD ST write a timer and nothing beeps. -/
theorem timersCountDownOncePerStep : Obligations.TimersCountDownOncePerStep := by
  intro s t hpc ht
  obtain ⟨hf, -⟩ := step_cases ht
  cases hd : decode (s.wordAt s.pc.toNat) with
  | none =>
    rw [step_of_decode_none hf hpc hd] at ht
    cases ht
    exact ⟨fun _ => timerPhase_dt s, fun _ => timerPhase_st s, timerPhase_beeps s⟩
  | some i =>
    obtain ⟨u, hu⟩ := exec_total i s.begun
    rw [step_of_decode hf hpc hd hu] at ht
    cases ht
    obtain ⟨hdt, hst, hevents⟩ := completeStep_keeps_timers (s.wordAt s.pc.toNat) u
    obtain ⟨hu_events, -, -, -⟩ := exec_keeps hu
    have hframe := exec_frame hu
    refine ⟨fun hi => ?_, fun hi => ?_, ?_⟩
    · have hi' : ∀ x, i ≠ .ldDtVx x := fun x e => hi x (e ▸ rfl)
      rw [hdt, hframe, State.takeWritten_dt _ _ hi', State.begun_dt]
    · have hi' : ∀ x, i ≠ .ldStVx x := fun x e => hi x (e ▸ rfl)
      rw [hst, hframe, State.takeWritten_st _ _ hi', State.begun_st]
    · rw [State.beeps_congr (hevents.trans hu_events), State.begun, trace_beeps, timerPhase_beeps]

end Sys2Proof.Machine

/-!
PROOFS. The statements of spec/40_control_flow.md: the return, the jump, the call and the three skips, each as its execute phase
and its whole step.
-/

namespace Sys2Proof.Machine

/-! ## The step from a state that fetches an instruction -/

section
variable {s u : State} {i : Instr} (h : s.Fetches i)
include h

theorem State.Fetches.fault : s.fault = none := h.1
theorem State.Fetches.pc_even : s.pc.toNat % 2 = 0 := h.2.1
theorem State.Fetches.wordAt : s.wordAt s.pc.toNat = encode i := h.2.2
theorem State.Fetches.decode : decode (s.wordAt s.pc.toNat) = some i := decode_eq_some_iff.mpr h.wordAt.symm

/-- The step of a fetched instruction is its execute phase, then the end of the step with its own word (R90). -/
theorem step_of_fetches (hu : exec i s.begun = .next u) : step s = .next (completeStep (encode i) u) := by
  rw [step_of_decode h.fault h.pc_even h.decode hu, h.wordAt]

/-- Where the execute phase of a fetched instruction raises, the step ends there (R207). -/
theorem step_of_fetches_raised {e : Err} (hu : exec i s.begun = .next (takeFault e u)) :
    step s = .next (takeFault e u) := by
  rw [step_of_fetches h hu, completeStep_of_fault (takeFault_fault u e)]

/-- Where the execute phase of a fetched instruction completes, the advance ends the step (R94). -/
theorem step_of_fetches_completed (hu : exec i s.begun = .next u) (hnone : u.fault = none) :
    step s = .next (advance (encode i) u) := by
  rw [step_of_fetches h hu, completeStep_of_no_fault hnone]

end

/-! ## RET (O22) -/

theorem exec_ret_empty {s : State} (hs : s.sp.val = 0) : exec .ret s = .next (takeFault .stackUnderflow s) := by
  simp [exec, execRet, pop_underflow hs]

/-- RET on a stack whose top entry is even pops it into PC (R111). -/
theorem exec_ret_top {s : State} (hs : 0 < s.sp.val) {a : Addr} (htop : s.stack[s.sp.val - 1]'(by omega) = a)
    (heven : a.toNat % 2 = 0) : exec .ret s = .next { s with sp := ⟨s.sp.val - 1, by omega⟩, pc := a } := by
  simp [exec, execRet, pop_ok hs, htop, setPC_ok (legalPc_of_even heven)]

/-- The step of a RET lands two after the address it pops, or raises there at the top of memory (R111). -/
theorem step_ret_top {s : State} (hs : 0 < s.sp.val) {a : Addr} (htop : s.stack[s.sp.val - 1]'(by omega) = a)
    (heven : a.toNat % 2 = 0) (hfetch : s.Fetches .ret) :
    step s = .next
      (if a = 0xFFE#12 then
        takeFault (.invalidAddress 0x1000) { s.begun with sp := ⟨s.sp.val - 1, by omega⟩, pc := a }
       else { s.begun with sp := ⟨s.sp.val - 1, by omega⟩, pc := a + 2#12, prev := some 0x00EE#16 }) := by
  have hexec : exec .ret s.begun = .next { s.begun with sp := ⟨s.sp.val - 1, by omega⟩, pc := a } := by
    simpa using exec_ret_top (s := s.begun) (by simpa using hs) (by simpa using htop) heven
  rw [step_of_fetches_completed hfetch hexec (by simpa using hfetch.fault), advance_eq _ heven]
  rfl

/-- Settles O22: RET as the pop, the jump to the entry popped and the advance from there. -/
theorem retReturnsAfterTheCall : Obligations.RetReturnsAfterTheCall := by
  refine ⟨rfl, fun w hfamily hx => ?_, fun s => ⟨exec_ret_empty, fun hs a htop heven =>
    ⟨exec_ret_top hs htop heven, step_ret_top hs htop heven⟩⟩⟩
  refine decode_eq_none_iff_unsupportedByFamily.mpr (.inl ⟨hfamily, ?_⟩)
  rintro rfl
  exact hx rfl

/-! ## Branch targets (R117) -/

/-- The target of an even `nnn` other than 0 is a legal program counter. -/
theorem legalPc_branchTarget {nnn : Addr} (heven : nnn.toNat % 2 = 0) (hne : nnn ≠ 0) : legalPc (branchTarget nnn) := by
  by_contra h
  rcases odd_or_zero_of_not_legalPc_branchTarget h with hodd | hzero
  · omega
  · exact hne hzero

/-- The target of an odd `nnn` or of 0 is none. -/
theorem not_legalPc_branchTarget {nnn : Addr} (h : nnn.toNat % 2 = 1 ∨ nnn = 0) : ¬legalPc (branchTarget nnn) := by
  unfold branchTarget legalPc
  rcases h with hodd | rfl
  · omega
  · decide

theorem ofInt_branchTarget (nnn : Addr) : BitVec.ofInt 12 (branchTarget nnn) = nnn - 2#12 := by
  simp [branchTarget, Int.sub_eq_add_neg, BitVec.ofInt_add, BitVec.sub_eq_add_neg]

/-- The advance after a branch lands on `nnn` (R112, R113). -/
theorem advance_from_branchTarget (w : Word) {nnn : Addr} (heven : nnn.toNat % 2 = 0) (hne : nnn ≠ 0) {s : State}
    (hpc : s.pc = nnn - 2#12) : advance w s = { s with pc := nnn, prev := some w } := by
  have heven' : s.pc.toNat % 2 = 0 := by
    rw [hpc, ← ofInt_branchTarget]
    exact ofInt_legalPc_even (legalPc_branchTarget heven hne)
  have hlow : s.pc ≠ 0xFFE#12 := by
    rw [hpc]
    exact fun e => hne (by simpa using congrArg (· + 2#12) e)
  rw [advance_eq w heven', if_neg hlow, hpc, BitVec.sub_add_cancel]

/-! ## JP (O23) -/

theorem exec_jp_ok {nnn : Addr} (heven : nnn.toNat % 2 = 0) (hne : nnn ≠ 0) (s : State) :
    exec (.jp nnn) s = .next { s with pc := nnn - 2#12 } := by
  simp [exec, execJp, setPC_ok (legalPc_branchTarget heven hne), ofInt_branchTarget]

theorem exec_jp_raised {nnn : Addr} (h : nnn.toNat % 2 = 1 ∨ nnn = 0) (s : State) :
    exec (.jp nnn) s = .next (takeFault (.invalidAddress (branchTarget nnn)) s) := by
  simp [exec, execJp, setPC_raised (not_legalPc_branchTarget h)]

/-- Settles O23: an execute phase that reaches `nnn - 2` and the advance from there, or a raise that ends the step. -/
theorem jumpReachesItsTargetOrRaises : Obligations.JumpReachesItsTargetOrRaises := by
  refine fun nnn s => ⟨decodeOfEncodeIsTheInstruction (.jp nnn),
    fun heven hne => ⟨exec_jp_ok heven hne s, fun hfetch => ?_⟩,
    fun h => ⟨exec_jp_raised h s, fun hfetch => step_of_fetches_raised hfetch (exec_jp_raised h s.begun)⟩⟩
  rw [step_of_fetches_completed hfetch (exec_jp_ok heven hne s.begun) (by simpa using hfetch.fault),
    advance_from_branchTarget _ heven hne rfl]
  rfl

/-! ## CALL (O24) -/

/-- The state after a push of its own PC, where the stack has room (R113). -/
def State.pushedPc (s : State) (hs : s.sp.val < 16) : State :=
  { s with stack := s.stack.set s.sp.val s.pc, sp := ⟨s.sp.val + 1, by omega⟩ }

theorem push_pc {s : State} (hpc : s.pc.toNat % 2 = 0) (hs : s.sp.val < 16) :
    push (s.pc.toNat : Int) s = .ok () (s.pushedPc hs) := by
  simp [push_ok hs (legalPc_of_even hpc), State.pushedPc]

theorem exec_call_overflow {s : State} (hs : s.sp.val = 16) (nnn : Addr) :
    exec (.call nnn) s = .next (takeFault .stackOverflow s) := by
  simp [exec, execCall, push_overflow hs]

theorem exec_call_ok {nnn : Addr} (heven : nnn.toNat % 2 = 0) (hne : nnn ≠ 0) {s : State} (hpc : s.pc.toNat % 2 = 0)
    (hs : s.sp.val < 16) : exec (.call nnn) s = .next { s.pushedPc hs with pc := nnn - 2#12 } := by
  simp [exec, execCall, push_pc hpc hs, setPC_ok (legalPc_branchTarget heven hne), ofInt_branchTarget]

theorem exec_call_raised {nnn : Addr} (h : nnn.toNat % 2 = 1 ∨ nnn = 0) {s : State} (hpc : s.pc.toNat % 2 = 0)
    (hs : s.sp.val < 16) :
    exec (.call nnn) s = .next (takeFault (.invalidAddress (branchTarget nnn)) (s.pushedPc hs)) := by
  simp [exec, execCall, push_pc hpc hs, setPC_raised (not_legalPc_branchTarget h)]

/-- The step of a CALL with room on the stack pushes the call's address and lands on its target (R113). -/
theorem step_call {nnn : Addr} (heven : nnn.toNat % 2 = 0) (hne : nnn ≠ 0) {s : State} (hs : s.sp.val < 16)
    (hfetch : s.Fetches (.call nnn)) :
    step s = .next { s.begun with
      stack := s.stack.set s.sp.val s.pc, sp := ⟨s.sp.val + 1, by omega⟩, pc := nnn, prev := some (0x2#4 ++ nnn) } := by
  have hexec := exec_call_ok heven hne (s := s.begun) (by simpa using hfetch.pc_even) (by simpa using hs)
  rw [step_of_fetches_completed hfetch hexec (by simpa [State.pushedPc] using hfetch.fault),
    advance_from_branchTarget _ heven hne rfl]
  simp [State.pushedPc, encode]

/-- Settles O24: the overflow before the push, the jump after it, and the raise after it. -/
theorem callPushesItsAddressAndJumps : Obligations.CallPushesItsAddressAndJumps := fun nnn _ hpc =>
  ⟨decodeOfEncodeIsTheInstruction (.call nnn), fun hfull => exec_call_overflow hfull nnn, fun hs =>
    ⟨fun heven hne => ⟨exec_call_ok heven hne hpc hs, step_call heven hne hs⟩, fun h => exec_call_raised h hpc hs⟩⟩

/-! ## Skips (O25 to O27) -/

/-- A conditional skip leaves what R110 says. -/
theorem skipIf_settle (c : Bool) {s : State} (hpc : s.pc.toNat % 2 = 0) : (skipIf c s).settle = skipLeaves c s := by
  cases c with
  | false => rfl
  | true =>
    simp only [skipIf, skip, skipLeaves, if_true, advancePC_two hpc]
    split <;> rfl

/-- The end of a step after a skip: the advance from where the skip left PC, unless the skip raised (R110, R114). -/
theorem completeStep_skipLeaves (w : Word) (c : Bool) {s : State} (hf : s.fault = none) (hpc : s.pc.toNat % 2 = 0) :
    completeStep w (skipLeaves c s) = skipStepLeaves w c s := by
  cases c with
  | false => exact (completeStep_of_no_fault hf).trans (advance_eq w hpc)
  | true =>
    unfold skipLeaves skipStepLeaves
    by_cases htop : s.pc = 0xFFE#12
    · simp [htop, completeStep_of_fault]
    · have heven : (s.pc + 2#12).toNat % 2 = 0 := by
        rw [BitVec.toNat_add, BitVec.toNat_ofNat]
        omega
      have hlast : s.pc + 2#12 = 0xFFE#12 ↔ s.pc = 0xFFC#12 :=
        ⟨fun h => by simpa using congrArg (· - 2#12) h, fun h => h ▸ rfl⟩
      have hend := (completeStep_of_no_fault (w := w) (u := { s with pc := s.pc + 2#12 }) hf).trans (advance_eq w heven)
      rw [if_pos rfl, if_pos rfl, if_neg htop, if_neg htop, hend]
      simp only [hlast, BitVec.add_assoc]
      split
      · next h => rw [h]; rfl
      · rfl

/-- An instruction that is one conditional skip, from a state with an even PC and from that state with the timers counted down:
what its execute phase and its whole step leave (R110). -/
theorem exec_and_step_of_skipIf {i : Instr} {c : Bool} {s : State} (hpc : s.pc.toNat % 2 = 0)
    (hexec : exec i s = finish (skipIf c s)) (hbegun : exec i s.begun = finish (skipIf c s.begun)) :
    exec i s = .next (skipLeaves c s) ∧ (s.Fetches i → step s = .next (skipStepLeaves (encode i) c s.begun)) := by
  have hpc' : s.begun.pc.toNat % 2 = 0 := by simpa using hpc
  rw [finish_eq, skipIf_settle c hpc] at hexec
  rw [finish_eq, skipIf_settle c hpc'] at hbegun
  refine ⟨hexec, fun hfetch => ?_⟩
  rw [step_of_fetches hfetch hbegun, completeStep_skipLeaves _ c (by simpa using hfetch.fault) hpc']

/-- Settles O25: one conditional skip, on a register that the timers leave alone. -/
theorem skipIfEqualImmediate : Obligations.SkipIfEqualImmediate := fun x kk s hpc =>
  ⟨decodeOfEncodeIsTheInstruction (.seImm x kk), exec_and_step_of_skipIf hpc rfl (by rw [← s.begun_getV x]; rfl)⟩

/-- Settles O26: as O25, on the negated comparison. -/
theorem skipIfNotEqualImmediate : Obligations.SkipIfNotEqualImmediate := by
  refine fun x kk s hpc => ⟨decodeOfEncodeIsTheInstruction (.sneImm x kk), ?_⟩
  have hexec : ∀ u : State, exec (.sneImm x kk) u = finish (skipIf (decide (u.getV x ≠ kk)) u) := by
    intro u
    rw [decide_not]
    rfl
  exact exec_and_step_of_skipIf hpc (hexec s) (by rw [← s.begun_getV x, hexec])

/-- Settles O27: as O25, on two registers; a word of family 5 with another last digit is unsupported. -/
theorem skipIfEqualRegisters : Obligations.SkipIfEqualRegisters := by
  refine ⟨fun w hfamily hn => ?_, fun x y s hpc => ⟨decodeOfEncodeIsTheInstruction (.seReg x y), ?_⟩⟩
  · rw [decode_of_family5 hfamily, decodeFamily5_eq_none_iff]
    exact hn
  · exact exec_and_step_of_skipIf hpc rfl (by rw [← s.begun_getV x, ← s.begun_getV y]; rfl)

/-! ## A call and its return (O29) -/

/-- Settles O29: the return pops the address the call pushed, which is not at the top of memory, at the depth before the call. -/
theorem callThenReturnComesBack : Obligations.CallThenReturnComesBack := by
  intro nnn s t u hcall htop hs heven hne ht hret hu
  rw [step_call heven hne hs hcall] at ht
  cases ht
  rw [step_ret_top (a := s.pc) (by simp) (by simp) hcall.pc_even hret, if_neg htop] at hu
  cases hu
  exact ⟨by simpa using hret.fault, rfl, rfl, by simp, by simp, by simp⟩

end Sys2Proof.Machine

/-!
PROOFS. The statements of spec/41_alu.md: the loads, the sums, the conjunction, the difference and the shifts, each as its
decoding, its frame and what every register reads after its execute phase.
-/

namespace Sys2Proof.Machine

/-! ## The register writes of each execute phase (R131 to R138) -/

section
variable (x y : Reg) (kk : Byte) (s : State)

theorem exec_ldImm : exec (.ldImm x kk) s = .next (s.setV x kk) := rfl
theorem exec_addImm : exec (.addImm x kk) s = .next (s.setV x (s.getV x + kk)) := rfl
theorem exec_ldReg : exec (.ldReg x y) s = .next (s.setV x (s.getV y)) := rfl
theorem exec_andReg : exec (.andReg x y) s = .next (s.setV x (s.getV x &&& s.getV y)) := rfl

/-! The two operands and the flag are read from `s`, before either write; the outer write is the second one (R13, D3). -/

theorem exec_addReg : exec (.addReg x y) s =
    .next ((s.setV x (s.getV x + s.getV y)).setV 0xF#4 (carryFlag (s.getV x) (s.getV y))) := rfl
theorem exec_subReg : exec (.subReg x y) s =
    .next ((s.setV 0xF#4 (greaterFlag (s.getV x) (s.getV y))).setV x (s.getV x - s.getV y)) := rfl
theorem exec_shr : exec (.shr x y) s =
    .next ((s.setV 0xF#4 (lowBitFlag (s.getV y))).setV y (s.getV y >>> 1)) := rfl
theorem exec_shl : exec (.shl x y) s =
    .next ((s.setV 0xF#4 (highBitFlag (s.getV y))).setV y (s.getV y <<< 1)) := rfl

end

/-- What a register reads, as a number, after two writes: the second one wins where both name it (R22). -/
theorem State.toNat_getV_setV_setV (s : State) (p q r : Reg) (b c : Byte) :
    (((s.setV p b).setV q c).getV r).toNat =
      if r = q then c.toNat else if r = p then b.toNat else (s.getV r).toNat := by
  rw [State.getV_setV, State.getV_setV, apply_ite BitVec.toNat, apply_ite BitVec.toNat]

/-! ## The flags and the difference as numbers (R130) -/

theorem flagByte_toNat (c : Bool) : (flagByte c).toNat = if c then 1 else 0 := by
  cases c <;> rfl

theorem carryFlag_toNat (a b : Byte) : (carryFlag a b).toNat = if 255 < a.toNat + b.toNat then 1 else 0 := by
  simp [carryFlag, flagByte_toNat]

theorem greaterFlag_toNat (a b : Byte) : (greaterFlag a b).toNat = if b.toNat < a.toNat then 1 else 0 := by
  simp [greaterFlag, flagByte_toNat]

/-- The bit a right shift moves out is the remainder of the halving (R137). -/
theorem lowBitFlag_toNat (b : Byte) : (lowBitFlag b).toNat = b.toNat % 2 := by
  rw [lowBitFlag, flagByte_toNat, ← BitVec.testBit_toNat, Nat.testBit_eq_decide_div_mod_eq]
  simp only [decide_eq_true_eq]
  split <;> omega

/-- The bit a left shift moves out is the quotient by 128, at most 1 as the byte is below 256 (R138). -/
theorem highBitFlag_toNat (b : Byte) : (highBitFlag b).toNat = b.toNat / 128 := by
  have hb := b.isLt
  rw [highBitFlag, flagByte_toNat, ← BitVec.testBit_toNat, Nat.testBit_eq_decide_div_mod_eq]
  simp only [decide_eq_true_eq]
  split <;> omega

/-- The byte difference is the residue of the integer difference, a negative one included (R136). -/
theorem toNat_byte_sub (a b : Byte) : ((a - b).toNat : Int) = ((a.toNat : Int) - b.toNat) % 256 := by
  have ha := a.isLt
  have hb := b.isLt
  rw [BitVec.toNat_sub]
  omega

/-! ## One write (O30 to O33) -/

/-- Settles O30: the one write, and what every register reads after it. -/
theorem loadImmediateWritesVx : Obligations.LoadImmediateWritesVx := fun x kk s =>
  ⟨decodeOfEncodeIsTheInstruction (.ldImm x kk), _, exec_ldImm x kk s, rfl, fun r => s.getV_setV x r kk⟩

/-- Settles O31: as O30, and the byte sum is the sum mod 256. -/
theorem addImmediateWrapsWithoutFlag : Obligations.AddImmediateWrapsWithoutFlag := by
  refine fun x kk s => ⟨decodeOfEncodeIsTheInstruction (.addImm x kk), _, exec_addImm x kk s, rfl, fun r => ?_⟩
  rw [State.getV_setV, apply_ite BitVec.toNat, BitVec.toNat_add]

/-- Settles O32: as O30, with the other register's byte. -/
theorem loadRegisterCopiesVy : Obligations.LoadRegisterCopiesVy := fun x y s =>
  ⟨decodeOfEncodeIsTheInstruction (.ldReg x y), _, exec_ldReg x y s, rfl, fun r => s.getV_setV x r (s.getV y)⟩

/-- Settles O33: as O30, the conjunction taken bit by bit. -/
theorem andCombinesEachBitWithoutFlag : Obligations.AndCombinesEachBitWithoutFlag := by
  refine fun x y s => ⟨decodeOfEncodeIsTheInstruction (.andReg x y), _, exec_andReg x y s, rfl, fun k => ?_,
    fun r hr => s.getV_setV_of_ne _ hr⟩
  rw [State.getV_setV_same, BitVec.getLsbD_and]

/-! ## Two writes (O34 to O37) -/

/-- Settles O34: the carry is the second write, so it wins where `x` is F. -/
theorem addWritesSumThenCarry : Obligations.AddWritesSumThenCarry := by
  refine fun x y s => ⟨decodeOfEncodeIsTheInstruction (.addReg x y), _, exec_addReg x y s, rfl, fun r => ?_⟩
  rw [State.toNat_getV_setV_setV, carryFlag_toNat, BitVec.toNat_add]

/-- Settles O35: the difference is the second write, so it wins where `x` is F. -/
theorem subWritesFlagThenDifference : Obligations.SubWritesFlagThenDifference := by
  refine fun x y s => ⟨decodeOfEncodeIsTheInstruction (.subReg x y), _, exec_subReg x y s, rfl, fun r => ?_⟩
  rw [State.toNat_getV_setV_setV, greaterFlag_toNat, Nat.cast_ite, toNat_byte_sub]
  norm_cast

/-- Settles O36: the shifted byte is the second write, so it wins where `y` is F. -/
theorem shiftRightShiftsVy : Obligations.ShiftRightShiftsVy := by
  refine fun x y s => ⟨decodeOfEncodeIsTheInstruction (.shr x y), _, exec_shr x y s, rfl, fun r => ?_⟩
  rw [State.toNat_getV_setV_setV, lowBitFlag_toNat, BitVec.toNat_ushiftRight, Nat.shiftRight_one]

/-- Settles O37: the shifted byte is the second write, so it wins where `y` is F. -/
theorem shiftLeftShiftsVy : Obligations.ShiftLeftShiftsVy := by
  refine fun x y s => ⟨decodeOfEncodeIsTheInstruction (.shl x y), _, exec_shl x y s, rfl, fun r => ?_⟩
  rw [State.toNat_getV_setV_setV, highBitFlag_toNat, BitVec.toNat_shiftLeft, Nat.shiftLeft_eq, pow_one, mul_comm]

end Sys2Proof.Machine

/-!
PROOFS. The statements of spec/42_index_random.md: the load of I, and the random byte drawn once and masked.
-/

namespace Sys2Proof.Machine

/-! ## The load of I (O38) -/

theorem exec_ldI (nnn : Addr) (s : State) : exec (.ldI nnn) s = .next (s.setI nnn.toNat) := rfl

/-- I is wider than an address, so it holds every `nnn` unreduced (R150, R25). -/
theorem State.toNat_setI_addr (s : State) (nnn : Addr) : (s.setI nnn.toNat).i.toNat = nnn.toNat := by
  have hnnn := nnn.isLt
  rw [State.setI_i, BitVec.toNat_ofNat, Nat.mod_eq_of_lt (by omega)]

/-- Settles O38: the one write to I, whose width holds every address. -/
theorem loadIndexWritesTheAddress : Obligations.LoadIndexWritesTheAddress := fun nnn s =>
  ⟨decodeOfEncodeIsTheInstruction (.ldI nnn), _, exec_ldI nnn s, rfl, s.toNat_setI_addr nnn⟩

/-! ## The random byte (O39) -/

/-- A draw where the launch's stream has a byte left (R152). -/
theorem randByte_of_stream {s : State} {b : Byte} {bs : List Byte} (hs : s.randStream = b :: bs) :
    randByte s = .ok b { s with randStream := bs } := by
  simp only [randByte, hs]

/-- A draw where the launch's stream is used up (R152; log entry 8). -/
theorem randByte_of_no_stream {s : State} (hs : s.randStream = []) :
    randByte s = .ok (Config.randByte s.draws) { s with draws := s.draws + 1 } := by
  simp only [randByte, hs]

/-- RND is the draw and one write of the masked byte to the state that the draw leaves (R151). -/
theorem exec_rnd_of_draw {s u : State} {r : Byte} (hr : randByte s = .ok r u) (x : Reg) (kk : Byte) :
    exec (.rnd x kk) s = .next (u.setV x (r &&& kk)) := by
  rw [exec, execRnd, hr, Res.bind_ok, finish, Res.settle_ok]

/-- What the registers read after the write of a masked byte: no bit outside the mask is set, whatever the byte (R151). -/
theorem State.getV_setV_masked (u : State) (x : Reg) (r kk : Byte) :
    (u.setV x (r &&& kk)).getV x = r &&& kk ∧ (u.setV x (r &&& kk)).getV x &&& ~~~kk = 0#8 ∧
      ∀ q, q ≠ x → (u.setV x (r &&& kk)).getV q = u.getV q := by
  refine ⟨u.getV_setV_same x _, ?_, fun q hq => u.getV_setV_of_ne _ hq⟩
  rw [State.getV_setV_same, BitVec.and_assoc, BitVec.and_not_self]
  exact BitVec.and_zero

/-- Settles O39: by where the draw comes from; a draw writes no register, so the masked write alone says what they read. -/
theorem randomByteIsDrawnOnceAndMasked : Obligations.RandomByteIsDrawnOnceAndMasked := by
  refine fun x kk s => ⟨decodeOfEncodeIsTheInstruction (.rnd x kk), ?_⟩
  cases hs : s.randStream with
  | cons b bs =>
    refine ⟨b, _, exec_rnd_of_draw (randByte_of_stream hs) x kk, fun b' bs' h => ?_, nofun,
      State.getV_setV_masked _ x b kk⟩
    cases h
    exact ⟨rfl, rfl⟩
  | nil =>
    refine ⟨_, _, exec_rnd_of_draw (randByte_of_no_stream hs) x kk, nofun, fun _ => ?_, State.getV_setV_masked _ x _ kk⟩
    rw [← hs]
    rfl

end Sys2Proof.Machine

/-!
PROOFS. The statements of spec/43_draw.md: the sprite draw as the pixel loop of its pseudocode, the draw that faults, and the
plane and the flag on a display where no pixel is touched twice.
-/

namespace Sys2Proof.Machine

/-! ## The pixel loop of R160 on the plane and the flag -/

section
variable {par : Config.Params} {cx cy : Byte} {row : Nat → Byte}

theorem foldl_blit_length (ps : List (Nat × Nat)) (acc : List Bool × Bool) :
    (ps.foldl (blit par cx cy row) acc).1.length = acc.1.length := by
  induction ps generalizing acc with
  | nil => rfl
  | cons p ps ih => rw [List.foldl_cons, ih, blit, List.length_set]

/-- The pixel an update is for, on the plane, becomes `old XOR bit` (R160). -/
theorem blit_getD_same {acc : List Bool × Bool} {p : Nat × Nat} (hlt : pixelOffset par cx cy p.1 p.2 < acc.1.length) :
    (blit par cx cy row acc p).1.getD (pixelOffset par cx cy p.1 p.2) false =
      (acc.1.getD (pixelOffset par cx cy p.1 p.2) false ^^ spriteBit (row p.1) p.2) := by
  rw [blit, List.getD_eq_getElem?_getD, List.getElem?_set_self hlt, Option.getD_some]

/-- Every other pixel is as before. -/
theorem blit_getD_of_ne (acc : List Bool × Bool) {p : Nat × Nat} {o : Nat} (hne : pixelOffset par cx cy p.1 p.2 ≠ o) :
    (blit par cx cy row acc p).1.getD o false = acc.1.getD o false := by
  rw [blit, List.getD_eq_getElem?_getD, List.getElem?_set_ne hne, List.getD_eq_getElem?_getD]

/-- A pixel that no update is for is as before the loop. -/
theorem foldl_blit_getD_of_forall_ne {ps : List (Nat × Nat)} {o : Nat}
    (hne : ∀ p ∈ ps, pixelOffset par cx cy p.1 p.2 ≠ o) (acc : List Bool × Bool) :
    (ps.foldl (blit par cx cy row) acc).1.getD o false = acc.1.getD o false := by
  induction ps generalizing acc with
  | nil => rfl
  | cons p ps ih =>
    obtain ⟨hp, hps⟩ := List.forall_mem_cons.mp hne
    rw [List.foldl_cons, ih hps, blit_getD_of_ne acc hp]

/-- Where no two updates are for one pixel, each pixel updated is its value before the loop XOR its bit (R160). -/
theorem foldl_blit_getD_of_mem {ps : List (Nat × Nat)} (hnodup : (ps.map fun p => pixelOffset par cx cy p.1 p.2).Nodup)
    {p : Nat × Nat} (hp : p ∈ ps) {acc : List Bool × Bool} (hlt : pixelOffset par cx cy p.1 p.2 < acc.1.length) :
    (ps.foldl (blit par cx cy row) acc).1.getD (pixelOffset par cx cy p.1 p.2) false =
      (acc.1.getD (pixelOffset par cx cy p.1 p.2) false ^^ spriteBit (row p.1) p.2) := by
  induction ps generalizing acc with
  | nil => simp at hp
  | cons q ps ih =>
    obtain ⟨hq, hps⟩ := List.nodup_cons.mp hnodup
    have hfresh : ∀ p' ∈ ps, pixelOffset par cx cy p'.1 p'.2 ≠ pixelOffset par cx cy q.1 q.2 := fun p' hp' e =>
      hq (List.mem_map.mpr ⟨p', hp', e⟩)
    rw [List.foldl_cons]
    rcases List.mem_cons.mp hp with rfl | hp
    · rw [foldl_blit_getD_of_forall_ne hfresh, blit_getD_same hlt]
    · rw [ih hps hp (by simpa [blit] using hlt), blit_getD_of_ne acc (hfresh p hp).symm]

/-- There the flag says whether some bit equals its pixel's value before the loop (R162). -/
theorem foldl_blit_hit {ps : List (Nat × Nat)} (hnodup : (ps.map fun p => pixelOffset par cx cy p.1 p.2).Nodup)
    (acc : List Bool × Bool) :
    (ps.foldl (blit par cx cy row) acc).2 = true ↔ acc.2 = true ∨
      ∃ p ∈ ps, spriteBit (row p.1) p.2 = acc.1.getD (pixelOffset par cx cy p.1 p.2) false := by
  induction ps generalizing acc with
  | nil => simp
  | cons q ps ih =>
    obtain ⟨hq, hps⟩ := List.nodup_cons.mp hnodup
    have hkept : ∀ p ∈ ps, (blit par cx cy row acc q).1.getD (pixelOffset par cx cy p.1 p.2) false =
        acc.1.getD (pixelOffset par cx cy p.1 p.2) false := fun p hp =>
      blit_getD_of_ne acc fun e => hq (List.mem_map.mpr ⟨p, hp, e.symm⟩)
    have hhead : (blit par cx cy row acc q).2 = true ↔ acc.2 = true ∨
        spriteBit (row q.1) q.2 = acc.1.getD (pixelOffset par cx cy q.1 q.2) false := by simp [blit]
    have htail : (∃ p ∈ ps, spriteBit (row p.1) p.2 =
          (blit par cx cy row acc q).1.getD (pixelOffset par cx cy p.1 p.2) false) ↔
        ∃ p ∈ ps, spriteBit (row p.1) p.2 = acc.1.getD (pixelOffset par cx cy p.1 p.2) false :=
      exists_congr fun p => and_congr_right fun hp => by rw [hkept p hp]
    rw [List.foldl_cons, ih hps, hhead, htail, List.exists_mem_cons_iff, or_assoc]

end

/-! ## Where no pixel is touched twice (R162) -/

theorem mem_spritePairs {n : Nat} {p : Nat × Nat} : p ∈ spritePairs n ↔ p.1 < n ∧ p.2 < 8 := by
  simp [spritePairs, Prod.ext_iff, eq_comm]

/-- On a display at least 8 wide and `n` high the pixels of a sprite are distinct, wrapped or not. -/
theorem pixelOffset_inj {par : Config.Params} {n : Nat} (hw : 8 ≤ par.displayW) (hn : n ≤ par.displayH) {cx cy : Byte}
    {p q : Nat × Nat} (hp : p.1 < n ∧ p.2 < 8) (hq : q.1 < n ∧ q.2 < 8)
    (h : pixelOffset par cx cy p.1 p.2 = pixelOffset par cx cy q.1 q.2) : p = q := by
  have hpos : 0 < par.displayW := by omega
  have hcol : (cx.toNat + p.2) % par.displayW = (cx.toNat + q.2) % par.displayW := by
    simpa [pixelOffset] using congrArg (· % par.displayW) h
  have hrow : (cy.toNat + p.1) % par.displayH = (cy.toNat + q.1) % par.displayH := by
    rw [pixelOffset, pixelOffset, hcol] at h
    exact Nat.eq_of_mul_eq_mul_left hpos (Nat.add_right_cancel h)
  exact Prod.ext (Nat.ModEq.eq_of_lt_of_lt (Nat.ModEq.add_left_cancel' _ hrow) (by omega) (by omega))
    (Nat.ModEq.eq_of_lt_of_lt (Nat.ModEq.add_left_cancel' _ hcol) (by omega) (by omega))

theorem nodup_spritePairs (n : Nat) : (spritePairs n).Nodup :=
  List.Nodup.product List.nodup_range List.nodup_range

theorem nodup_pixelOffsets {par : Config.Params} {n : Nat} (hw : 8 ≤ par.displayW) (hn : n ≤ par.displayH) (cx cy : Byte) :
    ((spritePairs n).map fun p => pixelOffset par cx cy p.1 p.2).Nodup :=
  (nodup_spritePairs n).map_on fun _ hp _ hq h => pixelOffset_inj hw hn (mem_spritePairs.mp hp) (mem_spritePairs.mp hq) h

/-! ## The model's loop is that loop (R160, R161) -/

section
variable {s : State} (hw : 0 < s.par.displayW) (hh : 0 < s.par.displayH) (cx cy : Byte)
include hw hh

/-- The pixels of a row, from any plane and flag, are the loop over them in order. -/
theorem drawBits_eq (row : Nat → Byte) (r : Nat) (bs : List Nat) (acc : List Bool × Bool) :
    drawBits cx cy (row r) r bs acc.2 { s with disp := acc.1 } =
      .ok ((bs.map (r, ·)).foldl (blit s.par cx cy row) acc).2
        { s with disp := ((bs.map (r, ·)).foldl (blit s.par cx cy row) acc).1 } := by
  induction bs generalizing acc with
  | nil => rfl
  | cons b bs ih =>
    rw [drawBits, drawBit_ok (s := { s with disp := acc.1 }) hw hh, Res.bind_ok]
    exact ih (blit s.par cx cy row acc (r, b))

/-- Rows that all lie in memory are drawn as the loop over their pixels in order. -/
theorem drawRows_eq {base : Int} {rs : List Nat} (hread : ∀ r ∈ rs, readable (base + r)) (acc : List Bool × Bool) :
    drawRows base cx cy rs acc.2 { s with disp := acc.1 } =
      .ok ((rs.flatMap fun r => (List.range 8).map (r, ·)).foldl
          (blit s.par cx cy fun r => s.byteAt (base + r).toNat) acc).2
        { s with disp := ((rs.flatMap fun r => (List.range 8).map (r, ·)).foldl
          (blit s.par cx cy fun r => s.byteAt (base + r).toNat) acc).1 } := by
  induction rs generalizing acc with
  | nil => rfl
  | cons r rs ih =>
    obtain ⟨hr, hrs⟩ := List.forall_mem_cons.mp hread
    have hrow := drawBits_eq hw hh cx cy (fun r => s.byteAt (base + r).toNat) r (List.range 8) acc
    rw [drawRows, memRead_ok hr, Res.bind_ok, List.flatMap_cons, List.foldl_append, ← ih hrs]
    exact congrArg (Res.bind · _) hrow

/-- Rows stop at the first one outside memory (R164). -/
theorem drawRows_raised {base : Int} {pre post : List Nat} {r : Nat} (hpre : ∀ q ∈ pre, readable (base + q))
    (hr : ¬readable (base + r)) (acc : List Bool × Bool) :
    ∃ d, drawRows base cx cy (pre ++ r :: post) acc.2 { s with disp := acc.1 } =
      .raised (.outOfRangeAddress (base + r)) { s with disp := d } := by
  induction pre generalizing acc with
  | nil => exact ⟨acc.1, by rw [List.nil_append, drawRows, memRead_raised hr, Res.bind_raised]⟩
  | cons q pre ih =>
    obtain ⟨hq, hpre⟩ := List.forall_mem_cons.mp hpre
    obtain ⟨hit, d, hrow, -⟩ :=
      drawBits_cases (s := { s with disp := acc.1 }) hw hh cx cy (s.byteAt (base + q).toNat) q (List.range 8) acc.2
    obtain ⟨d', hraised⟩ := ih hpre (d, hit)
    refine ⟨d', ?_⟩
    rw [List.cons_append, drawRows, memRead_ok hq, Res.bind_ok, ← hraised]
    exact congrArg (Res.bind · _) hrow

end

/-- The rows before row `r` of a sprite, and the rows from it on. -/
theorem range_eq_append_cons {r n : Nat} (h : r < n) : ∃ post, List.range n = List.range r ++ r :: post := by
  obtain ⟨k, rfl⟩ := Nat.exists_eq_add_of_lt h
  exact ⟨_, by rw [Nat.add_assoc, List.range_add, List.range_succ_eq_map, List.map_cons]; rfl⟩

/-! ## The execute phase of DRW, completed and raised -/

/-- The plane and the flag that the pixel loop leaves for the `n` rows at I, drawn at `Vx` and `Vy` (R160). -/
def State.drawn (s : State) (x y : Reg) (n : Nibble) : List Bool × Bool :=
  (spritePairs n.toNat).foldl (blit s.par (s.getV x) (s.getV y) fun r => s.byteAt (s.i.toNat + r)) (s.disp, false)

section
variable (x y : Reg) {n : Nibble} {s : State} (hw : 0 < s.par.displayW) (hh : 0 < s.par.displayH)
include hw hh

/-- Where no row passes 0xFFF, the execute phase is the pixel loop, and then the flag is written (R163). -/
theorem exec_drw_ok (hread : n = 0 ∨ s.i.toNat + n.toNat ≤ 0x1000) :
    exec (.drw x y n) s =
      .next (({ s with disp := (s.drawn x y n).1 }).setV 0xF#4 (flagByte (s.drawn x y n).2)) := by
  have hrows : ∀ r ∈ List.range n.toNat, readable (indexBase s + r) := by
    intro r hr
    rw [List.mem_range] at hr
    rcases hread with rfl | hfit
    · exact absurd hr (Nat.not_lt_zero r)
    · unfold readable indexBase
      omega
  have hloop := drawRows_eq hw hh (s.getV x) (s.getV y) hrows (s.disp, false)
  simp only [indexBase_add_toNat] at hloop
  exact congrArg (fun r => finish (finishDraw r)) hloop

/-- Where a row passes 0xFFF, the first such row raises: row 0 where I itself is past it, else the row at 0x1000 (R164). -/
theorem exec_drw_raised (hn : n ≠ 0) (hpast : 0x1000 < s.i.toNat + n.toNat) :
    exec (.drw x y n) s =
      .next (takeFault (.outOfRangeAddress (max (s.i.toNat : Int) 0x1000)) (freePlane s)) := by
  have hpos : n.toNat ≠ 0 := fun e => hn (BitVec.eq_of_toNat_eq e)
  obtain ⟨post, hsplit⟩ := range_eq_append_cons (r := 0x1000 - s.i.toNat) (n := n.toNat) (by omega)
  have hbefore : ∀ q ∈ List.range (0x1000 - s.i.toNat), readable (indexBase s + q) := by
    intro q hq
    rw [List.mem_range] at hq
    unfold readable indexBase
    omega
  have hfirst : indexBase s + (0x1000 - s.i.toNat : Nat) = max (s.i.toNat : Int) 0x1000 := by
    unfold indexBase
    omega
  have hout : ¬readable (indexBase s + (0x1000 - s.i.toNat : Nat)) := by
    unfold readable
    omega
  obtain ⟨d, hraised⟩ :=
    drawRows_raised hw hh (s.getV x) (s.getV y) (post := post) hbefore hout (s.disp, false)
  rw [← hsplit, hfirst] at hraised
  exact congrArg (fun r => finish (finishDraw r)) hraised

end

/-! ## The row's bits and the flag as values -/

/-- Bit `b` of a row, the most significant first, is a digit of its number (R160). -/
theorem spriteBit_eq_true_iff (row : Byte) (b : Nat) : spriteBit row b = true ↔ row.toNat / 2 ^ (7 - b) % 2 = 1 := by
  rw [spriteBit, ← BitVec.testBit_toNat, Nat.testBit_eq_decide_div_mod_eq, decide_eq_true_eq]

theorem flagByte_eq_one_iff {c : Bool} : flagByte c = 1#8 ↔ c = true := by
  cases c <;> decide

theorem flagByte_eq_zero_or_one (c : Bool) : flagByte c = 0#8 ∨ flagByte c = 1#8 := by
  cases c
  · exact .inl rfl
  · exact .inr rfl

/-! ## The statements -/

/-- Settles O40: the loop of the model is the loop of the pseudocode, row by row, and stops at the first row outside memory. -/
theorem drawFollowsThePixelLoop : Obligations.DrawFollowsThePixelLoop := by
  refine fun x y n s hw hh => ⟨decodeOfEncodeIsTheInstruction (.drw x y n), fun _ _ => rfl,
    fun row b _ => spriteBit_eq_true_iff row b, fun hread => ?_, fun hn hpast => ?_⟩
  · refine ⟨_, exec_drw_ok x y hw hh hread, rfl, ?_, ?_, fun r hr => State.getV_setV_of_ne _ _ hr⟩
    · simp only [State.getV_setV_same, flagByte_eq_one_iff, Bool.decide_eq_true, State.setV_disp]
      rfl
    · rw [State.getV_setV_same]
      exact flagByte_eq_zero_or_one _
  · exact ⟨_, exec_drw_raised x y hw hh hn hpast, rfl, rfl⟩

/-- Settles O41: with no row the loop is empty; a raise discards the rows drawn, so a free plane is all it leaves. -/
theorem faultedDrawLeavesAFreePlane : Obligations.FaultedDrawLeavesAFreePlane := by
  refine fun x y n s hw hh => ⟨exec_drw_ok x y hw hh (.inl rfl), fun hn hpast => ⟨?_, fun hfetch => ?_⟩⟩
  · exact ⟨_, exec_drw_raised x y hw hh hn hpast, rfl, freePlane_length s⟩
  · have hexec := exec_drw_raised x y (s := s.begun) (by simpa using hw) (by simpa using hh) hn (by simpa using hpast)
    refine ⟨_, step_of_fetches_raised hfetch hexec, ?_, ?_⟩
    · rw [State.begun_i, ← s.begun_draws]
      rfl
    · rw [takeFault_disp, freePlane_length, State.begun_par]

/-- Settles O42: the pixels of the sprite are distinct, so each is read and written once and the loop acts as a snapshot. -/
theorem drawMatchesASnapshotOfThePlane : Obligations.DrawMatchesASnapshotOfThePlane := by
  intro x y n s hw hh hn hplane hread
  have hw0 : 0 < s.par.displayW := by omega
  have hnodup := nodup_pixelOffsets hw hn (s.getV x) (s.getV y)
  refine ⟨_, exec_drw_ok x y hw0 hh hread, rfl, ?zeroOrOne, ?hit, fun q hq => State.getV_setV_of_ne _ _ hq,
    foldl_blit_length .., ?under, ?outside⟩
  case zeroOrOne =>
    rw [State.getV_setV_same]
    exact flagByte_eq_zero_or_one _
  case hit =>
    rw [State.getV_setV_same, flagByte_eq_one_iff, State.drawn, foldl_blit_hit hnodup]
    simp [mem_spritePairs, State.pixel, and_assoc]
  case under =>
    intro r b hr hb
    have hlt : pixelOffset s.par (s.getV x) (s.getV y) r b < s.disp.length := hplane ▸ pixelOffset_lt hw0 hh _ _ r b
    exact foldl_blit_getD_of_mem hnodup (p := (r, b)) (mem_spritePairs.mpr ⟨hr, hb⟩) hlt
  case outside =>
    intro o ho
    refine foldl_blit_getD_of_forall_ne (fun p hp => ?_) _
    obtain ⟨hr, hb⟩ := mem_spritePairs.mp hp
    exact ho p.1 p.2 hr hb

/-- Two planes of one length with the same pixels are the same plane. -/
theorem disp_eq_of_pixel_eq {s t : State} (hlen : t.disp.length = s.disp.length) (h : ∀ o, t.pixel o = s.pixel o) :
    t.disp = s.disp := by
  refine List.ext_getElem hlen fun o ht hs => ?_
  simpa [State.pixel, ht, hs] using h o

/-- Settles O43: the first draw moves neither the sprite nor its place, so a pixel under it is XORed with one bit twice. -/
theorem drawTwiceRestoresThePlane : Obligations.DrawTwiceRestoresThePlane := by
  intro x y n s t u hx hy hw hh hn hplane hread ht hu
  obtain ⟨t', ht', hframe, -, -, hregs, hlen, hunder, houtside⟩ :=
    drawMatchesASnapshotOfThePlane x y n s hw hh hn hplane hread
  cases ht.symm.trans ht'
  have hpar : t.par = s.par := by rw [hframe]
  have hi : t.i = s.i := by rw [hframe]
  have hbyte : ∀ a, t.byteAt a = s.byteAt a := State.byteAt_congr (by rw [hframe]) hpar
  obtain ⟨u', hu', -, -, -, -, hlen', hunder', houtside'⟩ :=
    drawMatchesASnapshotOfThePlane x y n t (hpar ▸ hw) (hpar ▸ hh) (hpar ▸ hn) (hpar ▸ hlen.trans hplane) (hi ▸ hread)
  cases hu.symm.trans hu'
  simp only [hpar, hi, hbyte, hregs x hx, hregs y hy] at hunder' houtside'
  refine disp_eq_of_pixel_eq (hlen'.trans hlen) fun o => ?_
  by_cases ho : ∃ r b, r < n.toNat ∧ b < 8 ∧ pixelOffset s.par (s.getV x) (s.getV y) r b = o
  · obtain ⟨r, b, hr, hb, rfl⟩ := ho
    rw [hunder' r b hr hb, hunder r b hr hb, Bool.xor_assoc, Bool.xor_self, Bool.xor_false]
  · have hnot : ∀ r b, r < n.toNat → b < 8 → pixelOffset s.par (s.getV x) (s.getV y) r b ≠ o := fun r b hr hb e =>
      ho ⟨r, b, hr, hb, e⟩
    rw [houtside' o hnot, houtside o hnot]

end Sys2Proof.Machine

/-!
PROOFS. The statement of spec/44_keyboard.md: the key number checked unmasked, one answer drawn, and the skip it decides.
-/

namespace Sys2Proof.Machine

/-! ## The key answer (R171) -/

/-- A query where the launch's stream has an answer left. -/
theorem drawKey_of_stream {s : State} {p : Bool} {ps : List Bool} (hs : s.keyStream = p :: ps) :
    drawKey s = .ok p { s with keyStream := ps } := by
  simp only [drawKey, hs]

/-- A query where the launch's stream is used up (log entry 9). -/
theorem drawKey_of_no_stream {s : State} (hs : s.keyStream = []) :
    drawKey s = .ok (Config.keyPressed s.draws) { s with draws := s.draws + 1 } := by
  simp only [drawKey, hs]

/-- The skip after a query starts from the instruction's own PC, with no error taken (R221). -/
theorem drawKey_keeps_pc_and_fault {s u : State} {p : Bool} (h : drawKey s = .ok p u) :
    u.pc = s.pc ∧ u.fault = s.fault := by
  obtain ⟨q, ps, n, hd⟩ := drawKey_cases s
  cases hd.symm.trans h
  exact ⟨rfl, rfl⟩

/-! ## SKNP (O44) -/

theorem exec_sknp_raised {x : Reg} {s : State} (hx : 15 < (s.getV x).toNat) :
    exec (.sknp x) s = .next (takeFault (.invalidRegister (s.getV x).toNat) s) := by
  rw [exec, execSknp, keyPressed_raised hx, Res.bind_raised, finish, Res.settle_raised]

/-- SKNP on a key number is the query, and then a skip where the key is not pressed, from the state the query leaves (R170). -/
theorem exec_sknp_of_draw {x : Reg} {s u : State} {p : Bool} (hpc : s.pc.toNat % 2 = 0) (hx : (s.getV x).toNat ≤ 15)
    (hd : drawKey s = .ok p u) : exec (.sknp x) s = .next (skipLeaves (!p) u) := by
  obtain ⟨hupc, -⟩ := drawKey_keeps_pc_and_fault hd
  rw [exec, execSknp, keyPressed_ok hx, hd, Res.bind_ok, finish_eq, skipIf_settle _ (hupc ▸ hpc)]

/-- The whole step of such a SKNP, by the query from the state its execute phase starts with (R110). -/
theorem step_sknp_of_draw {x : Reg} {s u : State} {p : Bool} (hx : (s.getV x).toNat ≤ 15)
    (hd : drawKey s.begun = .ok p u) (hfetch : s.Fetches (.sknp x)) :
    step s = .next (skipStepLeaves (encode (.sknp x)) (!p) u) := by
  have hpc : s.begun.pc.toNat % 2 = 0 := by simpa using hfetch.pc_even
  have hfault : s.begun.fault = none := by simpa using hfetch.fault
  obtain ⟨hupc, hufault⟩ := drawKey_keeps_pc_and_fault hd
  rw [step_of_fetches hfetch (exec_sknp_of_draw hpc (by simpa using hx) hd),
    completeStep_skipLeaves _ _ (hufault.trans hfault) (hupc ▸ hpc)]

/-- Settles O44: by where the answer comes from; phase 1 leaves both sources alone, so the step gets the same answer. -/
theorem skipIfKeyNotPressed : Obligations.SkipIfKeyNotPressed := by
  refine fun x s hpc => ⟨decodeOfEncodeIsTheInstruction (.sknp x), exec_sknp_raised,
    fun hx => ⟨fun p ps hs => ?stream, fun hs => ⟨Config.keyPressed s.draws, ?free⟩⟩⟩
  case stream =>
    have hbegun := drawKey_of_stream (s.begun_keyStream.trans hs)
    exact ⟨exec_sknp_of_draw hpc hx (drawKey_of_stream hs), step_sknp_of_draw hx hbegun⟩
  case free =>
    have hbegun : drawKey s.begun = .ok (Config.keyPressed s.draws) { s.begun with draws := s.draws + 1 } := by
      rw [drawKey_of_no_stream (s.begun_keyStream.trans hs), s.begun_draws]
    exact ⟨exec_sknp_of_draw hpc hx (drawKey_of_no_stream hs), step_sknp_of_draw hx hbegun⟩

end Sys2Proof.Machine

/-!
PROOFS. The statements of spec/45_f_family.md: the timers read and written, the two writes of I, the digits and the registers
stored to memory, and the registers loaded from it.
-/

namespace Sys2Proof.Machine

/-! ## A step of an instruction that keeps PC (R94) -/

/-- Below the top of memory, an execute phase that completes and keeps PC is followed by an advance by 2 and the write of
PREV. -/
theorem step_of_fetches_below_top {s u : State} {i : Instr} (h : s.Fetches i) (htop : s.pc ≠ 0xFFE#12)
    (hu : exec i s.begun = .next u) (hfault : u.fault = s.begun.fault) (hpc : u.pc = s.begun.pc) :
    step s = .next { u with pc := s.pc + 2#12, prev := some (encode i) } := by
  rw [State.begun_fault, h.fault] at hfault
  rw [State.begun_pc] at hpc
  rw [step_of_fetches_completed h hu hfault, advance_eq _ (hpc ▸ h.pc_even), hpc, if_neg htop]

/-! ## The delay timer read (O45) -/

theorem exec_ldVxDt (x : Reg) (s : State) : exec (.ldVxDt x) s = .next (s.setV x s.dt) := rfl

/-- Settles O45: the execute phase of a step starts after phase 1, so the DT it copies has counted down. -/
theorem readDelayTimerAfterItsDecrement : Obligations.ReadDelayTimerAfterItsDecrement := by
  refine fun x s => ⟨decodeOfEncodeIsTheInstruction (.ldVxDt x),
    ⟨_, exec_ldVxDt x s, rfl, fun r => s.getV_setV x r s.dt⟩, fun hfetch htop => ?_⟩
  refine ⟨_, step_of_fetches_below_top hfetch htop (exec_ldVxDt x s.begun) rfl rfl, ?_, s.begun_dt, ?_⟩
  · exact s.begun_fault.trans hfetch.fault
  · exact (s.begun.getV_setV_same x s.begun.dt).trans s.begun_dt

/-! ## The timers written (O46, O47) -/

/-- What a timer takes, in the words of R36. -/
theorem timerTakes_iff {par : Config.Params} {b : Byte} : timerTakes par b ↔ b ≠ 255#8 ∨ par.timerAccepts255 = true :=
  imp_iff_not_or

theorem not_timerTakes {par : Config.Params} {b : Byte} (hb : b = 255#8) (hpar : par.timerAccepts255 = false) :
    ¬timerTakes par b :=
  fun h => Bool.false_ne_true (hpar.symm.trans (h hb))

/-- Phase 1 and the trace change neither the byte nor the parameter that decides whether a timer takes it. -/
theorem timerTakes_begun {s : State} {x : Reg} :
    timerTakes s.begun.par (s.begun.getV x) ↔ timerTakes s.par (s.getV x) := by
  rw [State.begun_par, State.begun_getV]

section
variable {x : Reg} {s : State}

theorem exec_ldDtVx_ok (h : timerTakes s.par (s.getV x)) : exec (.ldDtVx x) s = .next { s with dt := s.getV x } := by
  rw [exec, execLdDtVx, setDT_ok h, finish, Res.settle_ok]

theorem exec_ldDtVx_raised (h : ¬timerTakes s.par (s.getV x)) :
    exec (.ldDtVx x) s = .next (takeFault (.timerValueRejected 255#8) s) := by
  rw [exec, execLdDtVx, setDT_raised h, finish, Res.settle_raised]

theorem exec_ldStVx_ok (h : timerTakes s.par (s.getV x)) : exec (.ldStVx x) s = .next { s with st := s.getV x } := by
  rw [exec, execLdStVx, setST_ok h, finish, Res.settle_ok]

theorem exec_ldStVx_raised (h : ¬timerTakes s.par (s.getV x)) :
    exec (.ldStVx x) s = .next (takeFault (.timerValueRejected 255#8) s) := by
  rw [exec, execLdStVx, setST_raised h, finish, Res.settle_raised]

end

/-- Settles O46: by whether the timer takes the byte, which phase 1 does not change. -/
theorem writeDelayTimerRejecting255 : Obligations.WriteDelayTimerRejecting255 := by
  refine fun x s => ⟨decodeOfEncodeIsTheInstruction (.ldDtVx x), fun h => ?takes, fun hv hpar => ?rejects⟩
  case takes =>
    have takes := timerTakes_iff.mpr h
    refine ⟨exec_ldDtVx_ok takes, fun hfetch htop => ?_⟩
    rw [step_of_fetches_below_top hfetch htop (exec_ldDtVx_ok (timerTakes_begun.mpr takes)) rfl rfl, State.begun_getV]
    rfl
  case rejects =>
    have rejects := not_timerTakes hv hpar
    exact ⟨exec_ldDtVx_raised rejects,
      fun hfetch => step_of_fetches_raised hfetch (exec_ldDtVx_raised (mt timerTakes_begun.mp rejects))⟩

/-- Settles O47: as O46, on the sound timer. -/
theorem writeSoundTimerRejecting255 : Obligations.WriteSoundTimerRejecting255 := by
  refine fun x s => ⟨decodeOfEncodeIsTheInstruction (.ldStVx x), fun h => ?takes, fun hv hpar => ?rejects⟩
  case takes =>
    have takes := timerTakes_iff.mpr h
    refine ⟨exec_ldStVx_ok takes, fun hfetch htop => ?_⟩
    rw [step_of_fetches_below_top hfetch htop (exec_ldStVx_ok (timerTakes_begun.mpr takes)) rfl rfl, State.begun_getV]
    rfl
  case rejects =>
    have rejects := not_timerTakes hv hpar
    exact ⟨exec_ldStVx_raised rejects,
      fun hfetch => step_of_fetches_raised hfetch (exec_ldStVx_raised (mt timerTakes_begun.mp rejects))⟩

/-! ## The writes of I (O49, O50) -/

theorem exec_addI (x : Reg) (s : State) : exec (.addI x) s = .next (s.setI (s.i.toNat + (s.getV x).toNat)) := rfl
theorem exec_ldF (x : Reg) (s : State) : exec (.ldF x) s = .next (s.setI (glyphAddr (s.getV x))) := rfl

/-- I is wide enough for the glyph address of every byte, so none is reduced (R179, R25). -/
theorem State.toNat_setI_glyphAddr (s : State) (b : Byte) : (s.setI (glyphAddr b)).i.toNat = 5 * b.toNat := by
  have hb := b.isLt
  rw [State.setI_i, BitVec.toNat_ofNat, glyphAddr, Config.fontBase, Nat.zero_add, Nat.mod_eq_of_lt (by omega)]

/-- Settles O49: the sum is formed as a number and stored in the 16 bits of I. -/
theorem addIndexWrapsAt16Bits : Obligations.AddIndexWrapsAt16Bits := fun x s =>
  ⟨decodeOfEncodeIsTheInstruction (.addI x), _, exec_addI x s, rfl, BitVec.toNat_ofNat _ _⟩

/-- Settles O50: the one write of I. -/
theorem fontAddressIsFiveTimesTheDigit : Obligations.FontAddressIsFiveTimesTheDigit := fun x s =>
  ⟨decodeOfEncodeIsTheInstruction (.ldF x), _, exec_ldF x s, rfl, s.toNat_setI_glyphAddr _⟩

/-! ## Runs of writes from I up (R57, R180, R181) -/

section
variable {s : State}

theorem readable_indexBase {k : Nat} : readable (indexBase s + k) ↔ s.i.toNat + k ≤ 0xFFF := by
  unfold readable indexBase
  omega

/-- The error of a write at an offset from I, by where the address lies (R52). -/
theorem writeErr_indexBase (s : State) (k : Nat) :
    writeErr (indexBase s + k) =
      if s.i.toNat + k ≤ 0xFFF then .fontRegionWrite (indexBase s + k) else .outOfRangeAddress (indexBase s + k) := by
  simp only [writeErr, readable_indexBase]

/-- The last of a run of writes is read first. -/
theorem byteAt_putCells_concat (hm : s.mem.wf s.par.font) {cells : List (Nat × Byte)}
    (hw : ∀ c ∈ cells, writable s.par (indexBase s + c.1)) (c : Nat × Byte) (a : Nat) :
    (putCells (indexBase s) (cells ++ [c]) s).byteAt a =
      if a = s.i.toNat + c.1 then c.2 else (putCells (indexBase s) cells s).byteAt a := by
  have hpar : (putCells (indexBase s) cells s).par = s.par := by rw [putCells_frame]
  have hconcat : putCells (indexBase s) (cells ++ [c]) s =
      (putCells (indexBase s) cells s).setByte (s.i.toNat + c.1) c.2 := by
    rw [putCells, List.foldl_append, ← indexBase_add_toNat]
    rfl
  rw [hconcat, State.byteAt_setByte (hpar ▸ putCells_mem_wf hm hw)]

/-- A cell of a run of writes at distinct offsets is read back. -/
theorem byteAt_putCells_of_mem (hm : s.mem.wf s.par.font) {cells : List (Nat × Byte)}
    (hw : ∀ c ∈ cells, writable s.par (indexBase s + c.1)) (hnodup : (cells.map Prod.fst).Nodup) {c : Nat × Byte}
    (hc : c ∈ cells) : (putCells (indexBase s) cells s).byteAt (s.i.toNat + c.1) = c.2 := by
  obtain ⟨pre, post, rfl⟩ := List.append_of_mem hc
  have hlast : ∀ d ∈ post, (indexBase s + d.1).toNat ≠ (indexBase s + c.1).toNat := by
    intro d hd e
    rw [indexBase_add_toNat, indexBase_add_toNat, Nat.add_left_cancel_iff] at e
    rw [List.map_append, List.map_cons] at hnodup
    have hnot := (List.nodup_cons.mp hnodup.of_append_right).1
    exact hnot (e ▸ List.mem_map_of_mem hd)
  simpa only [indexBase_add_toNat] using byteAt_putCells_last hm hw hlast

/-- A byte at no offset of a run of writes is left alone. -/
theorem byteAt_putCells_of_forall_ne {cells : List (Nat × Byte)} {a : Nat} (h : ∀ c ∈ cells, s.i.toNat + c.1 ≠ a) :
    (putCells (indexBase s) cells s).byteAt a = s.byteAt a :=
  byteAt_putCells_other (fun c hc => by rw [indexBase_add_toNat]; exact h c hc) s

/-- An execute phase that is a run of writes, all of them taken. -/
theorem exec_of_writeCells_ok {i : Instr} {cells : List (Nat × Byte)}
    (hexec : exec i s = finish (writeCells (indexBase s) cells s))
    (hw : ∀ c ∈ cells, writable s.par (indexBase s + c.1)) :
    exec i s = .next (putCells (indexBase s) cells s) := by
  rw [hexec, writeCells_ok hw, finish, Res.settle_ok]

/-- An execute phase that is a run of writes, stopped at the first that is not taken: its error, the cells before it stored,
no other byte changed (R207, D14). -/
theorem exec_of_writeCells_raised {i : Instr} {pre post : List (Nat × Byte)} {c : Nat × Byte} (hm : s.mem.wf s.par.font)
    (hexec : exec i s = finish (writeCells (indexBase s) (pre ++ c :: post) s))
    (hpre : ∀ d ∈ pre, writable s.par (indexBase s + d.1)) (hc : ¬writable s.par (indexBase s + c.1))
    (hnodup : (pre.map Prod.fst).Nodup) :
    ∃ t, exec i s = .next t ∧ t = { s with mem := t.mem, fault := t.fault } ∧
      t.fault = some (if s.i.toNat + c.1 ≤ 0xFFF then .fontRegionWrite (indexBase s + c.1)
        else .outOfRangeAddress (indexBase s + c.1)) ∧
      (∀ d ∈ pre, t.byteAt (s.i.toNat + d.1) = d.2) ∧
      ∀ a, (∀ d ∈ pre, s.i.toNat + d.1 ≠ a) → t.byteAt a = s.byteAt a := by
  have hraised := writeCells_raised (post := post) hpre hc
  refine ⟨_, hexec.trans (congrArg finish hraised), ?_, ?_, fun d hd => ?_, fun a ha => ?_⟩
  · exact finish_writeCells_frame (congrArg finish hraised)
  · exact congrArg some (writeErr_indexBase s c.1)
  · exact byteAt_putCells_of_mem hm hpre hnodup hd
  · exact byteAt_putCells_of_forall_ne ha

end

/-! ## LD B, Vx (O51) -/

theorem hundreds_toNat (b : Byte) : (hundreds b).toNat = b.toNat / 100 := by
  have hb := b.isLt
  rw [hundreds, BitVec.toNat_ofNat]
  omega

theorem tens_toNat (b : Byte) : (tens b).toNat = b.toNat / 10 % 10 := by
  rw [tens, BitVec.toNat_ofNat]
  omega

theorem ones_toNat (b : Byte) : (ones b).toNat = b.toNat % 10 := by
  rw [ones, BitVec.toNat_ofNat]
  omega

theorem exec_ldB (x : Reg) (s : State) :
    exec (.ldB x) s = finish (writeCells (indexBase s) (bcdCells s.par.bcdLayout (s.getV x)) s) := rfl

/-- What memory reads as after three writes, the last one first. -/
theorem byteAt_putCells_three {s : State} (hm : s.mem.wf s.par.font) {c d e : Nat × Byte}
    (hw : ∀ q ∈ [c, d, e], writable s.par (indexBase s + q.1)) (a : Nat) :
    (putCells (indexBase s) [c, d, e] s).byteAt a =
      if a = s.i.toNat + e.1 then e.2 else if a = s.i.toNat + d.1 then d.2 else if a = s.i.toNat + c.1 then c.2
      else s.byteAt a := by
  have hcd : ∀ q ∈ [c, d], writable s.par (indexBase s + q.1) := fun q hq => hw q (List.mem_append_left [e] hq)
  have hc : ∀ q ∈ [c], writable s.par (indexBase s + q.1) := fun q hq => hw q (List.mem_append_left [d, e] hq)
  calc (putCells (indexBase s) ([c, d] ++ [e]) s).byteAt a
      = if a = s.i.toNat + e.1 then e.2 else (putCells (indexBase s) ([c] ++ [d]) s).byteAt a :=
        byteAt_putCells_concat hm hcd e a
    _ = if a = s.i.toNat + e.1 then e.2 else if a = s.i.toNat + d.1 then d.2
        else (putCells (indexBase s) ([] ++ [c]) s).byteAt a := by rw [byteAt_putCells_concat hm hc, List.nil_append]
    _ = _ := by rw [byteAt_putCells_concat hm (by simp), putCells_nil]

/-- The digits written before a raise are at distinct offsets: where all three share one offset, the first raises. -/
theorem nodup_offsets_before_bcd_raise {par : Config.Params} {base : Int} {b : Byte} {pre post : List (Nat × Byte)}
    {c : Nat × Byte} (hcells : bcdCells par.bcdLayout b = pre ++ c :: post)
    (hpre : ∀ d ∈ pre, writable par (base + d.1)) (hc : ¬writable par (base + c.1)) : (pre.map Prod.fst).Nodup := by
  have hoffsets : (bcdCells par.bcdLayout b).map Prod.fst = pre.map Prod.fst ++ c.1 :: post.map Prod.fst := by
    rw [hcells, List.map_append, List.map_cons]
  cases hl : par.bcdLayout with
  | table | shifted =>
    rw [hl] at hoffsets
    refine List.Nodup.of_append_left (l₂ := c.1 :: post.map Prod.fst) ?_
    simp [← hoffsets, bcdCells]
  | collapsed =>
    have hone : ∀ q ∈ bcdCells par.bcdLayout b, q.1 = 1 := by simp [hl, bcdCells]
    rw [hcells] at hone
    cases pre with
    | nil => exact List.nodup_nil
    | cons d pre =>
      have hd := hpre d (by simp)
      rw [hone d (by simp), ← hone c (by simp)] at hd
      exact absurd hd hc

/-- Settles O51: the three writes read back, the last first, at distinct offsets or all at one; a raise stops them as it stops
any run of writes. -/
theorem bcdStoresItsDigitsOrRaises : Obligations.BcdStoresItsDigitsOrRaises := by
  refine fun x s hm => ⟨decodeOfEncodeIsTheInstruction (.ldB x), ?cells, fun hw => ?stored,
    fun pre post c hcells hpre hc => ?raised⟩
  case cells =>
    cases s.par.bcdLayout <;> simp [bcdCells, hundreds_toNat, tens_toNat, ones_toNat]
  case stored =>
    refine ⟨_, exec_of_writeCells_ok (exec_ldB x s) hw, putCells_frame .., fun a => ?_⟩
    cases hl : s.par.bcdLayout with
    | table | shifted | collapsed =>
      rw [hl] at hw
      rw [bcdCells, byteAt_putCells_three hm hw, ← hundreds_toNat, ← tens_toNat, ← ones_toNat]
      grind
  case raised =>
    have hexec := exec_ldB x s
    rw [hcells] at hexec
    exact exec_of_writeCells_raised hm hexec hpre hc (nodup_offsets_before_bcd_raise hcells hpre hc)

/-! ## LD [I], Vx (O52) -/

/-- The writes of the first `n` registers, each at its own number (R181). -/
def State.firstCells (s : State) (n : Nat) : List (Nat × Byte) :=
  (List.range n).map fun k => (k, s.getV (BitVec.ofNat 4 k))

section
variable {s : State} {x : Reg}

theorem exec_store (x : Reg) (s : State) :
    exec (.store x) s = finish (writeCells (indexBase s) (s.firstCells (x.toNat + 1)) s) := rfl

theorem State.map_fst_firstCells (s : State) (n : Nat) : (s.firstCells n).map Prod.fst = List.range n := by
  simp [State.firstCells, Function.comp_def]

theorem State.nodup_firstCells (s : State) (n : Nat) : ((s.firstCells n).map Prod.fst).Nodup :=
  s.map_fst_firstCells n ▸ List.nodup_range

theorem State.lt_of_mem_firstCells {n : Nat} {c : Nat × Byte} (hc : c ∈ s.firstCells n) : c.1 < n :=
  List.mem_range.mp (s.map_fst_firstCells n ▸ List.mem_map_of_mem hc)

theorem State.mem_firstCells {n : Nat} {r : Reg} (hr : r.toNat < n) : (r.toNat, s.getV r) ∈ s.firstCells n :=
  List.mem_map.mpr ⟨r.toNat, List.mem_range.mpr hr, by rw [BitVec.ofNat_toNat, BitVec.setWidth_eq]⟩

/-- The writes before offset `k`, the one there, and those after it. -/
theorem State.firstCells_eq_append_cons (s : State) {k n : Nat} (hk : k < n) :
    ∃ post, s.firstCells n = s.firstCells k ++ (k, s.getV (BitVec.ofNat 4 k)) :: post := by
  obtain ⟨post, hrange⟩ := range_eq_append_cons hk
  exact ⟨_, by rw [State.firstCells, hrange, List.map_append, List.map_cons, State.firstCells]⟩

/-- The addresses of a store are all taken exactly where the last lies in memory and the first outside the font (R52). -/
theorem writable_firstCells_iff :
    (∀ c ∈ s.firstCells (x.toNat + 1), writable s.par (indexBase s + c.1)) ↔
      s.i.toNat + x.toNat ≤ 0xFFF ∧ (s.par.fontPolicy = .fault → 0x50 ≤ s.i.toNat) := by
  constructor
  · intro h
    obtain ⟨hlast, -⟩ := h _ (State.mem_firstCells (r := x) (Nat.lt_succ_self _))
    obtain ⟨-, hfirst⟩ := h _ (State.mem_firstCells (r := 0#4) (Nat.succ_pos _))
    refine ⟨readable_indexBase.mp hlast, fun hp => ?_⟩
    have hbase := hfirst hp
    unfold indexBase at hbase
    rw [BitVec.toNat_zero] at hbase
    omega
  · rintro ⟨hlast, hfirst⟩ c hc
    have hlt := State.lt_of_mem_firstCells hc
    refine ⟨readable_indexBase.mpr (by omega), fun hp => ?_⟩
    have hbase := hfirst hp
    unfold indexBase
    omega

end

/-- Settles O52: a run of writes at distinct offsets, completed or stopped at offset `k`. -/
theorem storeRegistersWritesV0ToVxOrRaises : Obligations.StoreRegistersWritesV0ToVxOrRaises := by
  refine fun x s hm => ⟨decodeOfEncodeIsTheInstruction (.store x), fun hlast hfirst => ?stored,
    fun k hk hbefore hat => ?raised⟩
  case stored =>
    have hw := writable_firstCells_iff.mpr ⟨hlast, hfirst⟩
    refine ⟨_, exec_of_writeCells_ok (exec_store x s) hw, putCells_frame .., fun r hr => ?_, fun a ha => ?_⟩
    · exact byteAt_putCells_of_mem hm hw (s.nodup_firstCells _) (State.mem_firstCells (Nat.lt_succ_of_le hr))
    · refine byteAt_putCells_of_forall_ne fun c hc => ?_
      have hlt := State.lt_of_mem_firstCells hc
      omega
  case raised =>
    obtain ⟨post, hcells⟩ := s.firstCells_eq_append_cons (Nat.lt_succ_of_le hk)
    have hexec := exec_store x s
    rw [hcells] at hexec
    obtain ⟨t, ht, hframe, hfault, hstored, hother⟩ := exec_of_writeCells_raised hm hexec
      (fun d hd => hbefore d.1 (State.lt_of_mem_firstCells hd)) hat (s.nodup_firstCells k)
    refine ⟨t, ht, hframe, hfault, fun r hr => hstored _ (State.mem_firstCells hr), fun a ha => hother a fun d hd => ?_⟩
    have hlt := State.lt_of_mem_firstCells hd
    omega

/-! ## LD Vx, [I] (O53) -/

section
variable {base : Int} {s : State}

theorem loadRegs_append (base : Int) (ks ks' : List Nat) (s : State) :
    loadRegs base (ks ++ ks') s = (loadRegs base ks s).bind fun _ => loadRegs base ks' := by
  induction ks generalizing s with
  | nil => rfl
  | cons k ks ih =>
    rw [List.cons_append, loadRegs, loadRegs]
    cases memRead (base + k) s with
    | ok b u => exact ih _
    | raised e u => rfl

/-- Loads whose addresses all lie in memory complete: each register numbered has its byte, every other is as before. -/
theorem loadRegs_ok {ks : List Nat} (hread : ∀ k ∈ ks, readable (base + k)) (hreg : ∀ k ∈ ks, k < 16) :
    ∃ v, loadRegs base ks s = .ok () { s with v := v } ∧
      ∀ r, ({ s with v := v } : State).getV r = if r.toNat ∈ ks then s.byteAt (base + r.toNat).toNat else s.getV r := by
  induction ks generalizing s with
  | nil => exact ⟨s.v, rfl, fun r => by simp [State.getV]⟩
  | cons k ks ih =>
    obtain ⟨hk, hread⟩ := List.forall_mem_cons.mp hread
    obtain ⟨hk16, hreg⟩ := List.forall_mem_cons.mp hreg
    obtain ⟨v, hv, hregs⟩ := ih (s := s.setV (BitVec.ofNat 4 k) (s.byteAt (base + k).toNat)) hread hreg
    refine ⟨v, by rw [loadRegs, memRead_ok hk, Res.bind_ok, hv]; rfl, fun r => (hregs r).trans ?_⟩
    have hrk : r = BitVec.ofNat 4 k ↔ r.toNat = k := by
      rw [← BitVec.toNat_inj, BitVec.toNat_ofNat, Nat.mod_eq_of_lt hk16]
    rw [State.byteAt_setV, State.getV_setV]
    by_cases h : r.toNat = k
    · subst h
      simp
    · simp [hrk, h]

/-- Loads stop at the first address outside memory, and the registers before it stay loaded (R207, D14). -/
theorem loadRegs_raised {pre post : List Nat} {k : Nat} (hread : ∀ q ∈ pre, readable (base + q))
    (hreg : ∀ q ∈ pre, q < 16) (hk : ¬readable (base + k)) :
    ∃ v, loadRegs base (pre ++ k :: post) s = .raised (.outOfRangeAddress (base + k)) { s with v := v } ∧
      ∀ r, ({ s with v := v } : State).getV r = if r.toNat ∈ pre then s.byteAt (base + r.toNat).toNat else s.getV r := by
  obtain ⟨v, hv, hregs⟩ := loadRegs_ok (s := s) hread hreg
  exact ⟨v, by rw [loadRegs_append, hv, Res.bind_ok, loadRegs, memRead_raised hk, Res.bind_raised], hregs⟩

end

section
variable {x : Reg} {s : State}

/-- LD Vx, [I] where every address lies in memory (R182). -/
theorem exec_load_ok (hfit : s.i.toNat + x.toNat ≤ 0xFFF) :
    ∃ v, exec (.load x) s = .next { s with v := v } ∧
      ∀ r, ({ s with v := v } : State).getV r =
        if r.toNat ≤ x.toNat then s.byteAt (s.i.toNat + r.toNat) else s.getV r := by
  have hx := x.isLt
  obtain ⟨v, hv, hregs⟩ := loadRegs_ok (base := indexBase s) (s := s) (ks := List.range (x.toNat + 1))
    (fun k hk => readable_indexBase.mpr (by rw [List.mem_range] at hk; omega))
    (fun k hk => by rw [List.mem_range] at hk; omega)
  refine ⟨v, congrArg finish hv, fun r => ?_⟩
  rw [hregs r, indexBase_add_toNat]
  simp only [List.mem_range, Nat.lt_succ_iff]

/-- LD Vx, [I] where an address passes 0xFFF: the first such address is I itself or 0x1000 (R182). -/
theorem exec_load_raised (hpast : 0xFFF < s.i.toNat + x.toNat) :
    ∃ v, exec (.load x) s = .next (takeFault (.outOfRangeAddress (max (s.i.toNat : Int) 0x1000)) { s with v := v }) ∧
      ∀ r, ({ s with v := v } : State).getV r =
        if s.i.toNat + r.toNat ≤ 0xFFF then s.byteAt (s.i.toNat + r.toNat) else s.getV r := by
  have hx := x.isLt
  obtain ⟨post, hsplit⟩ := range_eq_append_cons (r := 0x1000 - s.i.toNat) (n := x.toNat + 1) (by omega)
  have hfirst : indexBase s + (0x1000 - s.i.toNat : Nat) = max (s.i.toNat : Int) 0x1000 := by
    unfold indexBase
    omega
  obtain ⟨v, hv, hregs⟩ := loadRegs_raised (base := indexBase s) (s := s) (pre := List.range (0x1000 - s.i.toNat))
    (post := post) (k := 0x1000 - s.i.toNat)
    (fun q hq => readable_indexBase.mpr (by rw [List.mem_range] at hq; omega))
    (fun q hq => by rw [List.mem_range] at hq; omega)
    (mt readable_indexBase.mp (by omega))
  rw [← hsplit, hfirst] at hv
  refine ⟨v, congrArg finish hv, fun r => ?_⟩
  have hbefore : r.toNat ∈ List.range (0x1000 - s.i.toNat) ↔ s.i.toNat + r.toNat ≤ 0xFFF := by
    rw [List.mem_range]
    omega
  rw [hregs r, indexBase_add_toNat]
  simp only [hbefore]

end

/-- Settles O53: the loads in order, completed or stopped. -/
theorem loadRegistersReadsV0ToVx : Obligations.LoadRegistersReadsV0ToVx := by
  refine fun x s => ⟨decodeOfEncodeIsTheInstruction (.load x), fun hfit => ?loaded, fun hpast => ?raised⟩
  case loaded =>
    obtain ⟨v, hv, hregs⟩ := exec_load_ok hfit
    exact ⟨_, hv, rfl, hregs⟩
  case raised =>
    obtain ⟨v, hv, hregs⟩ := exec_load_raised hpast
    exact ⟨_, hv, rfl, rfl, hregs⟩

/-! ## A store and then a load (O54) -/

/-- Settles O54: a store without a fault met the premise of O52, and its bytes are those that O53 loads. -/
theorem storeThenLoadRestoresTheRegisters : Obligations.StoreThenLoadRestoresTheRegisters := by
  intro n s t v hm hfault ht htfault
  have hw : ∀ c ∈ s.firstCells (n.toNat + 1), writable s.par (indexBase s + c.1) := by
    rw [exec_store] at ht
    rcases finish_writeCells_cases ht with ⟨hw, -⟩ | ⟨_, _, _, -, -, -, rfl⟩
    · exact hw
    · cases htfault
  obtain ⟨hlast, hfirst⟩ := writable_firstCells_iff.mp hw
  obtain ⟨-, hstore, -⟩ := storeRegistersWritesV0ToVxOrRaises n s hm
  obtain ⟨t', ht', hframe, hstored, -⟩ := hstore hlast hfirst
  cases ht.symm.trans ht'
  have hi : t.i = s.i := by rw [hframe]
  obtain ⟨-, hload, -⟩ := loadRegistersReadsV0ToVx n { t with v := v }
  obtain ⟨u, hu, hframe', hloaded⟩ := hload (hi ▸ hlast)
  refine ⟨u, hu, by rw [hframe']; exact htfault, fun r hr => ?_⟩
  rw [hloaded r, if_pos hr, ← hstored r hr, ← hi]
  rfl

end Sys2Proof.Machine

/-!
PROOFS. The statements of spec/60_exceptions.md: when a step is enabled, where PC stands after a raise and which errors can be
raised; a batch of steps, the ticks of the Scheduler, its subscriptions and its loop.
-/

namespace Sys2Proof.Machine

/-! ## When a step is enabled (O8) -/

theorem step_halted {s : State} {e : Err} (hf : s.fault = some e) : step s = .fault (.halted e) := by
  rw [step, hf]

/-- Without a fault a step answers a next state, wherever the program counter is (R209). -/
theorem step_enabled {s : State} (hf : s.fault = none) : ∃ t, step s = .next t := by
  unfold step
  rw [hf]
  cases fetch (timerPhase s) with
  | raised e u => exact ⟨_, rfl⟩
  | ok w u =>
    cases hd : decode w with
    | none => exact ⟨unsupported w u, by simp only [hd]⟩
    | some i =>
      obtain ⟨v, hv⟩ := exec_total i (trace w u)
      exact ⟨completeStep w v, by simp only [hd, hv, finishStep]⟩

/-- Settles O8. -/
theorem stepIsEnabledExactlyWithoutFault : Obligations.StepIsEnabledExactlyWithoutFault :=
  fun _ => ⟨fun _ => rfl, fun _ => step_halted, step_enabled⟩

/-! ## PC after a raise (O10) -/

theorem memRead_eq_ok {a : Int} {b : Byte} {s u : State} (h : memRead a s = .ok b u) : b = s.byteAt a.toNat ∧ u = s := by
  by_cases ha : readable a
  · rw [memRead_ok ha] at h
    cases h
    exact ⟨rfl, rfl⟩
  · rw [memRead_raised ha] at h
    cases h

/-- A fetch that completes read the word at the program counter, be it even or odd (R92). -/
theorem fetch_eq_ok {s u : State} {w : Word} (h : fetch s = .ok w u) : w = s.wordAt s.pc.toNat ∧ u = s := by
  obtain ⟨hi, v, hhi, h⟩ := Res.bind_eq_ok.mp h
  obtain ⟨lo, v', hlo, h⟩ := Res.bind_eq_ok.mp h
  obtain ⟨rfl, rfl⟩ := memRead_eq_ok hhi
  obtain ⟨rfl, rfl⟩ := memRead_eq_ok hlo
  cases h
  exact ⟨rfl, rfl⟩

/-- What a step can leave, from any state, with the word named: a fault taken before the execute phase, or the end of the
execute phase of the instruction at the program counter. -/
theorem step_cases_wordAt {s t : State} (h : step s = .next t) :
    s.fault = none ∧
    ((∃ e, t = takeFault e (timerPhase s)) ∨
     ∃ i u, decode (s.wordAt s.pc.toNat) = some i ∧ exec i s.begun = .next u ∧
      t = completeStep (s.wordAt s.pc.toNat) u) := by
  obtain ⟨hf, -⟩ := step_cases h
  refine ⟨hf, ?_⟩
  cases hr : fetch (timerPhase s) with
  | raised e u =>
    have hu := fetch_left (timerPhase s)
    rw [hr] at hu
    cases hu
    simp only [step, hf, hr] at h
    cases h
    exact .inl ⟨e, rfl⟩
  | ok w u =>
    obtain ⟨hw, rfl⟩ := fetch_eq_ok hr
    rw [timerPhase_wordAt, timerPhase_pc] at hw
    subst hw
    cases hd : decode (s.wordAt s.pc.toNat) with
    | none =>
      simp only [step, hf, hr, hd] at h
      cases h
      exact .inl ⟨_, rfl⟩
    | some i =>
      obtain ⟨v, hv⟩ := exec_total i s.begun
      have hv' : exec i (trace (s.wordAt s.pc.toNat) (timerPhase s)) = .next v := hv
      simp only [step, hf, hr, hd, hv', finishStep] at h
      cases h
      exact .inr ⟨i, v, rfl, hv, rfl⟩

/-- An execute phase that moves PC moves it to an even address and raises nothing (R28, R207). -/
theorem exec_pc_cases {i : Instr} {s t : State} (h : exec i s = .next t) :
    t.pc = s.pc ∨ t.fault = s.fault ∧ t.pc.toNat % 2 = 0 := by
  have skips : ∀ (c : Bool) (u : State),
      (skipIf c u).settle.pc = u.pc ∨ (skipIf c u).settle.fault = u.fault ∧ (skipIf c u).settle.pc.toNat % 2 = 0 := by
    intro c u
    rcases skipIf_cases c u with ⟨-, e⟩ | ⟨-, hl, e⟩ | ⟨-, -, e⟩ <;> rw [e]
    · exact .inl rfl
    · exact .inr ⟨rfl, ofInt_legalPc_even hl⟩
    · exact .inl rfl
  by_cases hm : mayMovePc i
  · cases i with
    | ret =>
      rcases execRet_cases h with ⟨-, rfl⟩ | ⟨_, a, -, ⟨⟨ha, -⟩, rfl⟩ | ⟨-, rfl⟩⟩
      · exact .inl rfl
      · exact .inr ⟨rfl, by exact_mod_cast ha⟩
      · exact .inl rfl
    | jp nnn =>
      rcases execJp_cases h with ⟨hl, rfl⟩ | ⟨-, rfl⟩
      · exact .inr ⟨rfl, ofInt_legalPc_even hl⟩
      · exact .inl rfl
    | call nnn =>
      rcases execCall_cases h with ⟨-, rfl⟩ | ⟨-, rfl⟩ | ⟨_, _, -, rfl, ⟨hl, rfl⟩ | ⟨-, rfl⟩⟩
      · exact .inl rfl
      · exact .inl rfl
      · exact .inr ⟨rfl, ofInt_legalPc_even hl⟩
      · exact .inl rfl
    | seImm x kk => cases h; exact skips _ s
    | sneImm x kk => cases h; exact skips _ s
    | seReg x y => cases h; exact skips _ s
    | sknp x =>
      rcases execSknp_cases h with ⟨-, rfl⟩ | ⟨p, ks, n, -, rfl⟩
      · exact .inl rfl
      · exact skips p { s with keyStream := ks, draws := n }
    | _ => exact hm.elim
  · exact .inl (by rw [exec_frame h, State.takeWritten_pc _ _ hm])

/-- From an even address the final advance is refused only at the top of memory (R30). -/
theorem pc_top_of_not_legalPc {a : Addr} (heven : a.toNat % 2 = 0) (hl : ¬legalPc ((a.toNat : Int) + 2)) :
    a = 0xFFE#12 := by
  have hlt := a.isLt
  refine BitVec.eq_of_toNat_eq (?_ : a.toNat = 4094)
  by_contra hne
  exact hl (by unfold legalPc; omega)

/-- Settles O10: a phase that raised had not moved PC, and only at the top of memory does the advance raise from an address that
the execute phase moved to. -/
theorem faultLeavesPcAtTheInstructionOrTheTop : Obligations.FaultLeavesPcAtTheInstructionOrTheTop := by
  intro s t e h he
  obtain ⟨hf, ⟨e', rfl⟩ | ⟨i, u, hd, hu, rfl⟩⟩ := step_cases_wordAt h
  · exact .inl (timerPhase_pc s)
  · have hpc := exec_pc_cases hu
    rw [State.begun_pc, State.begun_fault, hf] at hpc
    rcases completeStep_cases (s.wordAt s.pc.toNat) u with ⟨hraised, ht⟩ | ⟨hnone, -, ht⟩ | ⟨hnone, hl, ht⟩ <;>
      rw [ht] at he ⊢
    · rcases hpc with hpc | ⟨hnone, -⟩
      · exact .inl hpc
      · exact absurd hnone hraised
    · exact absurd (hnone.symm.trans he) nofun
    · rcases hpc with hpc | ⟨-, heven⟩
      · exact .inl hpc
      · have htop := pc_top_of_not_legalPc heven hl
        rw [htop] at he ⊢
        cases he
        exact .inr ⟨i, u, hd, hu, hnone, htop, rfl, rfl⟩

/-! ## The errors an instruction can raise (O11) -/

/-- A skip raises only `InvalidAddress(0x1000)`, and only at the top of memory (R110). -/
theorem skipIf_raises {c : Bool} {s : State} {e : Err} (hpc : s.pc.toNat % 2 = 0) (hf : s.fault ≠ some e)
    (he : (skipIf c s).settle.fault = some e) : e = .invalidAddress 0x1000 ∧ s.pc = 0xFFE#12 := by
  rw [skipIf_settle c hpc] at he
  unfold skipLeaves at he
  split_ifs at he with hc htop
  · cases he
    exact ⟨rfl, htop⟩
  · exact absurd he hf
  · exact absurd he hf

/-- A run of writes raises only at the address of one of its cells (R52, R57). -/
theorem finish_writeCells_raises {base : Int} {cells : List (Nat × Byte)} {s t : State} {e : Err}
    (h : finish (writeCells base cells s) = .next t) (hf : s.fault ≠ some e) (he : t.fault = some e) :
    ∃ c ∈ cells, e = .outOfRangeAddress (base + c.1) ∨ e = .fontRegionWrite (base + c.1) := by
  rcases finish_writeCells_cases h with ⟨-, rfl⟩ | ⟨pre, c, post, rfl, -, -, rfl⟩
  · rw [putCells_frame] at he
    exact absurd he hf
  · cases he
    refine ⟨c, by simp, ?_⟩
    unfold writeErr
    split
    · exact .inr rfl
    · exact .inl rfl

/-- The digits of `Fx33` go to offsets of at most 3 in every layout (R180). -/
theorem bcdCells_offset_le {layout : Config.BcdLayout} {b : Byte} {c : Nat × Byte} (hc : c ∈ bcdCells layout b) :
    c.1 ≤ 3 := by
  have hall : ∀ d ∈ bcdCells layout b, d.1 ≤ 3 := by cases layout <;> simp [bcdCells]
  exact hall c hc

theorem regCells_offset_le {s : State} {x : Reg} {c : Nat × Byte} (hc : c ∈ regCells s x) : c.1 ≤ x.toNat := by
  obtain ⟨k, hk, rfl⟩ := List.mem_map.mp hc
  exact Nat.lt_succ_iff.mp (List.mem_range.mp hk)

/-- An execute phase that raises, raises an error that R201 lists for its instruction. -/
theorem exec_raises_listed {i : Instr} {s t : State} {e : Err} (hinv : s.Inv) (hf : s.fault ≠ some e)
    (h : exec i s = .next t) (he : t.fault = some e) : mayRaise i s e := by
  cases i with
  | ret =>
    rcases execRet_cases h with ⟨-, rfl⟩ | ⟨h0, a, ha, ⟨-, rfl⟩ | ⟨hl, rfl⟩⟩
    · cases he; rfl
    · exact absurd he hf
    · have heven : a.toNat % 2 = 0 := ha ▸ hinv.stack ⟨s.sp.val - 1, by omega⟩
      exact absurd (legalPc_of_even heven) hl
  | jp nnn =>
    rcases execJp_cases h with ⟨-, rfl⟩ | ⟨hl, rfl⟩
    · exact absurd he hf
    · cases he; exact ⟨rfl, odd_or_zero_of_not_legalPc_branchTarget hl⟩
  | call nnn =>
    rcases execCall_cases h with ⟨-, rfl⟩ | ⟨hl, rfl⟩ | ⟨_, _, -, rfl, ⟨-, rfl⟩ | ⟨hl, rfl⟩⟩
    · cases he; exact .inl rfl
    · exact absurd (legalPc_of_even hinv.pc) hl
    · exact absurd he hf
    · cases he; exact .inr ⟨rfl, odd_or_zero_of_not_legalPc_branchTarget hl⟩
  | seImm x kk => cases h; exact skipIf_raises hinv.pc hf he
  | sneImm x kk => cases h; exact skipIf_raises hinv.pc hf he
  | seReg x y => cases h; exact skipIf_raises hinv.pc hf he
  | sknp x =>
    rcases execSknp_cases h with ⟨hk, rfl⟩ | ⟨p, ks, n, -, rfl⟩
    · cases he; exact .inl ⟨rfl, hk⟩
    · exact .inr (skipIf_raises (s := { s with keyStream := ks, draws := n }) hinv.pc hf he)
  | drw x y n =>
    obtain ⟨hw, hh⟩ := hinv.display_pos
    rcases execDrw_cases h with ⟨hit, d, -, rfl⟩ | ⟨e', d, hraised, rfl⟩
    · exact absurd he hf
    · cases he
      rcases drawRows_cases hw hh (indexBase s) (s.getV x) (s.getV y) (List.range n.toNat) false with
        ⟨_, _, hok, -⟩ | ⟨r, _, hr, -, hrow, -⟩
      · rw [hok] at hraised
        cases hraised
      · rw [hrow] at hraised
        cases hraised
        exact ⟨r, List.mem_range.mp hr, rfl⟩
  | ldDtVx x =>
    rcases execLdDtVx_cases h with ⟨-, rfl⟩ | ⟨-, rfl⟩
    · exact absurd he hf
    · cases he; rfl
  | ldStVx x =>
    rcases execLdStVx_cases h with ⟨-, rfl⟩ | ⟨-, rfl⟩
    · exact absurd he hf
    · cases he; rfl
  | ldB x =>
    obtain ⟨c, hc, hraised⟩ := finish_writeCells_raises h hf he
    exact ⟨c.1, bcdCells_offset_le hc, hraised⟩
  | store x =>
    obtain ⟨c, hc, hraised⟩ := finish_writeCells_raises h hf he
    exact ⟨c.1, regCells_offset_le hc, hraised⟩
  | load x =>
    rcases execLoad_cases h with ⟨_, rfl⟩ | ⟨k, _, hk, -, rfl⟩
    · exact absurd he hf
    · cases he; exact ⟨k, hk, rfl⟩
  | _ =>
    have hkept := exec_fault_of_not_mayRaise h hinv.pc fun _ => id
    exact absurd (hkept ▸ he) hf

theorem begun_keeps_inv {s : State} (h : s.Inv) : s.begun.Inv := trace_keeps_inv _ (timerPhase_keeps_inv h)

/-- Settles O11: an unsupported word raises after phase 1; on an instruction either its execute phase raised, or the advance did
from the even address it left. -/
theorem onlyTheListedErrorsAreRaised : Obligations.OnlyTheListedErrorsAreRaised := by
  intro s t e hinv h he
  obtain ⟨hf, -⟩ := step_cases h
  cases hd : decode (s.wordAt s.pc.toNat) with
  | none =>
    rw [step_of_decode_none hf hinv.pc hd] at h
    cases h
    cases he
    rfl
  | some i =>
    obtain ⟨u, hu⟩ := exec_total i s.begun
    rw [step_of_decode hf hinv.pc hd hu] at h
    cases h
    rcases completeStep_cases (s.wordAt s.pc.toNat) u with ⟨-, ht⟩ | ⟨hnone, -, ht⟩ | ⟨hnone, hl, ht⟩ <;> rw [ht] at he
    · have hbegun : s.begun.fault ≠ some e := by simp [hf]
      exact .inl ⟨ht.symm ▸ hu, exec_raises_listed (begun_keeps_inv hinv) hbegun hu he⟩
    · exact absurd (hnone.symm.trans he) nofun
    · have htop := pc_top_of_not_legalPc (exec_keeps_inv (begun_keeps_inv hinv) hu).pc hl
      rw [htop] at he
      cases he
      exact .inr ⟨u, hu, hnone, htop, rfl⟩

/-! ## A tick, listener by listener (O56) -/

section
variable {raising : List Nat} {sub : Subscriber} {later : List Subscriber} {s t : State}

theorem onTick_core (h : sub.runsCore = true) :
    onTick raising sub s =
      ((runBatch s.par.batch (s.record (.onTick sub.id))).1,
        (runBatch s.par.batch (s.record (.onTick sub.id))).2.map .step) := by
  simp [onTick, h]

theorem onTick_host (h : sub.runsCore = false) :
    onTick raising sub s =
      (s.record (.onTick sub.id), if sub.id ∈ raising then some (.listener sub.id) else none) := by
  simp [onTick, h]

theorem runListeners_of_completed (h : onTick raising sub s = (t, none)) :
    runListeners raising (sub :: later) s = runListeners raising later t := by
  simp [runListeners, h]

theorem runListeners_of_raised {e : TickError} (h : onTick raising sub s = (t, some e)) :
    runListeners raising (sub :: later) s = stopTick e t := by
  simp [runListeners, h]

end

/-- A tick that an error ends tells every subscriber and empties the list (R218). -/
theorem stopTick_eq (e : TickError) (s : State) :
    stopTick e s = { s with
      events := (s.sched.subs.map fun l => Event.onError l.id e).reverse ++ s.events
      sched := { s.sched with subs := [] } } := by
  rw [stopTick, notifyAll_eq]

/-- Settles O56. -/
theorem errorStopsTheTickForEverySubscriber : Obligations.ErrorStopsTheTickForEverySubscriber :=
  fun _ _ _ _ t =>
    ⟨rfl, onTick_core, onTick_host, runListeners_of_completed,
      fun e h => (runListeners_of_raised h).trans (stopTick_eq e t)⟩

/-! ## A batch (O57) -/

section
variable {n : Nat} {s u : State}

theorem runBatch_succ_of_completed (hs : step s = .next u) (hu : u.fault = none) :
    runBatch (n + 1) s = runBatch n u := by
  simp [runBatch, hs, hu]

theorem runBatch_succ_of_raised {e : Err} (hs : step s = .next u) (hu : u.fault = some e) :
    runBatch (n + 1) s = (u, some e) := by
  simp [runBatch, hs, hu]

theorem core_run_succ (hs : step s = .next u) : core.run (n + 1) s = core.run n u := by
  have hs' : core.step s = .next u := hs
  simp [Host.Core.run, hs']

end

/-- A batch reports the FAULT record of the state it ends in, which is that of some steps, and of all of them where it reports
none. -/
theorem runBatch_eq_run {n : Nat} {s t : State} {r : Option Err} (hf : s.fault = none) (h : runBatch n s = (t, r)) :
    t.fault = r ∧ ∃ k, k ≤ n ∧ (r = none → k = n) ∧ core.run k s = .next t := by
  induction n generalizing s with
  | zero =>
    cases h
    exact ⟨hf, 0, le_rfl, fun _ => rfl, rfl⟩
  | succ n ih =>
    obtain ⟨u, hu⟩ := step_enabled hf
    cases huf : u.fault with
    | none =>
      rw [runBatch_succ_of_completed hu huf] at h
      obtain ⟨ht, k, hk, hall, hrun⟩ := ih huf h
      exact ⟨ht, k + 1, by omega, fun hr => by rw [hall hr], (core_run_succ hu).trans hrun⟩
    | some e =>
      rw [runBatch_succ_of_raised hu huf] at h
      cases h
      exact ⟨huf, 1, by omega, nofun, core_run_succ hu⟩

/-- Settles O57. -/
theorem batchIsStepAppliedRepeatedly : Obligations.BatchIsStepAppliedRepeatedly := by
  refine fun n s t hf => ⟨fun h => ?completed, fun e h => ?stopped⟩
  case completed =>
    obtain ⟨ht, k, -, hall, hrun⟩ := runBatch_eq_run hf h
    exact ⟨ht, hall rfl ▸ hrun⟩
  case stopped =>
    obtain ⟨ht, k, hk, -, hrun⟩ := runBatch_eq_run hf h
    exact ⟨ht, k, hk, hrun⟩

/-! ## Unsubscribing (O58) -/

theorem mem_unsubscribe_subs {id : Nat} {s : State} {l : Subscriber} :
    l ∈ (unsubscribe id s).sched.subs ↔ l ∈ s.sched.subs ∧ l.id ≠ id := by
  simp [unsubscribe]

/-- Unsubscribing a number that no other entry has takes back its subscription. -/
theorem unsubscribe_subscribe_subs {sub : Subscriber} {s : State} (h : ∀ l ∈ s.sched.subs, l.id ≠ sub.id) :
    (unsubscribe sub.id (subscribe sub s)).sched.subs = s.sched.subs := by
  have hkept : s.sched.subs.filter (fun l => l.id != sub.id) = s.sched.subs :=
    List.filter_eq_self.mpr fun l hl => bne_iff_ne.mpr (h l hl)
  simp [unsubscribe, subscribe, hkept]

/-- The end of a tick makes no call to a number that no subscriber has. -/
theorem stopTick_calls {e : TickError} {id : Nat} {s : State} (h : ∀ l ∈ s.sched.subs, l.id ≠ id) :
    (stopTick e s).events.countP (Event.calls id) = s.events.countP (Event.calls id) := by
  have hnone : (s.sched.subs.map fun l => Event.onError l.id e).countP (Event.calls id) = 0 := by
    simpa [List.countP_eq_zero, Event.calls] using h
  rw [stopTick_eq, List.countP_append, List.countP_reverse, hnone, Nat.zero_add]

/-- A tick makes no call to a number that neither a listener still to run nor a subscriber has: the listeners run before an
error leave the list, and with it who is told, as it is. -/
theorem runListeners_calls {raising : List Nat} {id : Nat} {subs : List Subscriber} {s : State}
    (hrun : ∀ l ∈ subs, l.id ≠ id) (htold : ∀ l ∈ s.sched.subs, l.id ≠ id) :
    (runListeners raising subs s).events.countP (Event.calls id) = s.events.countP (Event.calls id) := by
  induction subs generalizing s with
  | nil => rfl
  | cons sub subs ih =>
    rw [List.forall_mem_cons] at hrun
    obtain ⟨hsched, hcalls⟩ := onTick_keeps raising sub s id
    cases hr : onTick raising sub s with
    | mk t r =>
      rw [hr] at hsched hcalls
      have htold' : ∀ l ∈ t.sched.subs, l.id ≠ id := by rwa [hsched]
      cases r with
      | none => rw [runListeners_of_completed hr, ih hrun.2 htold', hcalls hrun.1]
      | some e => rw [runListeners_of_raised hr, stopTick_calls htold', hcalls hrun.1]

/-- Settles O58. -/
theorem unsubscribingRemovesThatListener : Obligations.UnsubscribingRemovesThatListener := by
  intro sub id raising s
  have hothers : ∀ l ∈ (unsubscribe id s).sched.subs, l.id ≠ id := fun l hl => (mem_unsubscribe_subs.mp hl).2
  exact ⟨rfl, rfl, List.filter_sublist, fun l => mem_unsubscribe_subs, unsubscribe_subscribe_subs,
    runListeners_calls hothers hothers⟩

/-! ## The tick loop (O59) -/

section
variable {interval : Nat}

theorem tickWait_of_le {drift : Int} (h : drift ≤ interval) : tickWait interval drift = interval - drift :=
  max_eq_right (by omega)

theorem tickWait_of_gt {drift : Int} (h : interval < drift) : tickWait interval drift = 0 :=
  max_eq_left (by omega)

variable {start now : Int}

theorem nextDrift_of_le (h : now - (start + interval) ≤ interval) :
    nextDrift interval start now = now - (start + interval) :=
  if_neg (by omega)

theorem nextDrift_of_gt (h : interval < now - (start + interval)) : nextDrift interval start now = 0 :=
  if_pos h

/-- The drift never exceeds the interval, so the next wait is cut short by exactly it. -/
theorem nextDrift_le : nextDrift interval start now ≤ interval := by
  rcases le_or_gt (now - (start + interval)) interval with h | h
  · rw [nextDrift_of_le h]; exact h
  · rw [nextDrift_of_gt h]; omega

variable {raising : List Nat} {s : State}

theorem tickLoopTurn_of_no_subs (h : s.sched.subs = []) : tickLoopTurn start now raising s = s := if_pos h

theorem tickLoopTurn_of_subs (h : s.sched.subs ≠ []) :
    tickLoopTurn start now raising s =
      runTick raising { s with sched := { s.sched with drift := nextDrift s.par.tickInterval start now } } :=
  if_neg h

end

/-- A tick leaves the drift alone, also where an error ends it (R218). -/
theorem runListeners_drift (raising : List Nat) (subs : List Subscriber) (s : State) :
    (runListeners raising subs s).sched.drift = s.sched.drift := by
  induction subs generalizing s with
  | nil => rfl
  | cons sub subs ih =>
    obtain ⟨hsched, -⟩ := onTick_keeps raising sub s 0
    cases hr : onTick raising sub s with
    | mk t r =>
      rw [hr] at hsched
      cases r with
      | none => rw [runListeners_of_completed hr, ih, hsched]
      | some e => rw [runListeners_of_raised hr, stopTick_eq, hsched]

/-- Settles O59. -/
theorem tickLoopWaitsAndCorrectsItsDrift : Obligations.TickLoopWaitsAndCorrectsItsDrift := by
  refine fun interval drift start now raising s =>
    ⟨tickWait_of_le, tickWait_of_gt, nextDrift_of_le, nextDrift_of_gt, tickWait_of_le nextDrift_le,
      tickLoopTurn_of_no_subs, fun h => ⟨tickLoopTurn_of_subs h, ?_⟩⟩
  rw [tickLoopTurn_of_subs h, runTick, runListeners_drift]

end Sys2Proof.Machine

/-!
PROOFS. The statements of spec/70_reset_and_hazards.md: what `Reset` leaves, the launch, the latency of the delay timer and the
idle loop.
-/

namespace Sys2Proof.Machine

/-! ## `Reset(program)`: when it is taken, and the memory it leaves (O19) -/

theorem programWf_iff {p : List Byte} : programWf p = true ↔ p.length ≤ 3584 := decide_eq_true_iff

/-- The contents of memory where neither a program nor a write has put anything (R53). -/
theorem Memory.unlisted_eq (font : List Byte) (a : Nat) :
    Memory.unlisted font a = if a < 80 then font.getD a 0 else 0#8 := by
  simp [Memory.unlisted, Config.fontBase, Config.fontSize]

section
variable {p : List Byte}

theorem resetProgram_of_fits (h : p.length ≤ 3584) (s : State) : resetProgram p s = .next (loadProgram p s) :=
  if_pos (programWf_iff.mpr h)

theorem resetProgram_of_overlong (h : 3584 < p.length) (s : State) :
    resetProgram p s = .refused (.programTooLong p.length) :=
  if_neg fun hwf => Nat.not_le_of_lt h (programWf_iff.mp hwf)

/-- `Reset` answers a state only for a program that fits, and then with the State Store set (R240, R242). -/
theorem resetProgram_cases {s t : State} (h : resetProgram p s = .next t) : p.length ≤ 3584 ∧ t = loadProgram p s := by
  by_cases hfits : p.length ≤ 3584
  · rw [resetProgram_of_fits hfits] at h
    cases h
    exact ⟨hfits, rfl⟩
  · rw [resetProgram_of_overlong (by omega)] at h
    cases h

/-- Memory after a load: the program, the font and zero elsewhere (R240, R53, R70). -/
theorem byteAt_loadProgram (h : p.length ≤ 3584) (s : State) (a : Nat) :
    (loadProgram p s).byteAt a =
      if 0x200 ≤ a ∧ a < 0x200 + p.length then p.getD (a - 0x200) 0
      else if a < 80 then s.par.font.getD a 0 else 0#8 := by
  have empty_wf : Memory.wf s.par.font [] := ⟨.nil, nofun⟩
  have fits : 0x200 + p.length ≤ Config.memSize := Nat.add_le_add_left h 0x200
  rw [← Memory.unlisted_eq]
  exact Memory.read_writeBytes empty_wf fits a

end

/-- Settles O19. -/
theorem resetProgramSetsTheStateStore : Obligations.ResetProgramSetsTheStateStore := fun _ s h =>
  ⟨_, resetProgram_of_fits h s, rfl, byteAt_loadProgram h s⟩

/-! ## Reset twice, and the program read back (O20) -/

/-- A load reads nothing that a load before it wrote (R241). -/
theorem loadProgram_loadProgram (p q : List Byte) (s : State) : loadProgram p (loadProgram q s) = loadProgram p s := rfl

/-- The byte of the program at each of its offsets (R70). -/
theorem byteAt_loadProgram_of_lt {p : List Byte} (h : p.length ≤ 3584) (s : State) {k : Nat} (hk : k < p.length) :
    (loadProgram p s).byteAt (0x200 + k) = p[k] := by
  rw [byteAt_loadProgram h, if_pos ⟨by omega, by omega⟩, Nat.add_sub_cancel_left, List.getD_eq_getElem _ _ hk]

/-- Settles O20: a second load sets the same values, and each offset of the program reads back. -/
theorem resetIsIdempotentAndReadsBack : Obligations.ResetIsIdempotentAndReadsBack := by
  intro p s t h
  obtain ⟨hfits, rfl⟩ := resetProgram_cases h
  refine ⟨?_, ?_⟩
  · rw [resetProgram_of_fits hfits, loadProgram_loadProgram]
  · refine List.ext_getElem (by simp) fun k _ hk => ?_
    rw [List.getElem_map, List.getElem_range, byteAt_loadProgram_of_lt hfits s hk]

/-! ## The launch (O21) -/

section
variable (par : Config.Params) (plane : List Bool) (rands : List Byte) (keys : List Bool)

/-- The machine as a launch constructs it, before its `Reset` (R245, steps 1 to 3; R38). -/
def State.constructed : State :=
  { State.reset with par := par, disp := plane, randStream := rands, keyStream := keys }

variable {par plane}

/-- An admissible launch is `Reset(program)` of the machine it constructs (R245). -/
theorem launch_of_admissible (hpar : par.wf = true) (hplane : planeWf par plane = true) (p : List Byte) :
    launch par plane rands keys p = resetProgram p (.constructed par plane rands keys) :=
  if_pos (by rw [hpar, hplane]; rfl)

theorem launch_of_not_admissible (h : par.wf = false ∨ planeWf par plane = false) (p : List Byte) :
    launch par plane rands keys p = .refused .badLaunch :=
  if_neg (by rcases h with h | h <;> simp [h])

end

/-! ## The first step of the empty program (O21) -/

theorem loadProgram_pc (p : List Byte) (s : State) : (loadProgram p s).pc = 0x200#12 := rfl

/-- The empty program leaves zero at every address from 0x200 on (R53). -/
theorem byteAt_loadProgram_nil (s : State) {a : Nat} (ha : 0x200 ≤ a) : (loadProgram [] s).byteAt a = 0#8 := by
  rw [byteAt_loadProgram (Nat.zero_le _), if_neg (by rw [List.length_nil]; omega), if_neg (by omega)]

/-- The empty program leaves the word 0x0000 where execution starts (R242). -/
theorem wordAt_loadProgram_nil (s : State) : (loadProgram [] s).wordAt (loadProgram [] s).pc.toNat = 0x0000#16 := by
  have hpc : 0x200 ≤ (loadProgram [] s).pc.toNat := by rw [loadProgram_pc]; decide
  rw [State.wordAt, byteAt_loadProgram_nil s hpc, byteAt_loadProgram_nil s (Nat.le_succ_of_le hpc)]
  rfl

/-- The first step of the empty program raises on the unsupported word 0x0000 (R242). -/
theorem step_loadProgram_nil (s : State) :
    step (loadProgram [] s) =
      .next (takeFault (.unsupportedInstruction 0x0000#16 s.prev) (timerPhase (loadProgram [] s))) := by
  have even : (loadProgram [] s).pc.toNat % 2 = 0 := by rw [loadProgram_pc]; rfl
  have unsupported : decode ((loadProgram [] s).wordAt (loadProgram [] s).pc.toNat) = none := by
    rw [wordAt_loadProgram_nil]; rfl
  rw [step_of_decode_none rfl even unsupported, wordAt_loadProgram_nil]
  rfl

/-- Settles O21: a launch by whether it is admissible, `Reset` by the length of the program, and the step of the empty one. -/
theorem overlongProgramIsRefusedAndEmptyProgramFaults : Obligations.OverlongProgramIsRefusedAndEmptyProgramFaults := by
  refine fun par plane rands keys p s => ⟨fun hpar hplane => ?admissible, fun h => launch_of_not_admissible rands keys h p,
    fun h => ⟨_, resetProgram_of_fits h s⟩, fun h => resetProgram_of_overlong h s, fun hprev => ?empty⟩
  case admissible =>
    rw [launch_of_admissible rands keys hpar hplane]
    refine ⟨fun h => ?_, fun h => resetProgram_of_overlong h _⟩
    refine ⟨_, resetProgram_of_fits h _, ?_, rfl, rfl, rfl, rfl, rfl, rfl⟩
    rw [resetProgram_of_fits h, loadProgram_loadProgram]
  case empty =>
    refine ⟨_, _, resetProgram_of_fits (Nat.zero_le _) s, step_loadProgram_nil s, ?_, ?_⟩
    · rw [takeFault_fault, hprev]
    · rw [takeFault_pc, timerPhase_pc, loadProgram_pc]

/-! ## The latency of the delay timer (O48) -/

/-- Counting down is subtraction on the numbers, which stops at 0 too (R91). -/
theorem toNat_countDown (b : Byte) : (countDown b).toNat = b.toNat - 1 := by
  unfold countDown
  split
  next h => rw [h]; rfl
  next h => bv_omega

/-- Settles O48: the write leaves DT as it is (O46), and the read sees it after the next step's decrement (O45). -/
theorem delayTimerHasAOneStepLatency : Obligations.DelayTimerHasAOneStepLatency := by
  intro x y s t hwrites htop _ hmax hstep hreads htop'
  have hdt : t.dt = s.getV x := by
    obtain ⟨-, hwrite, -⟩ := writeDelayTimerRejecting255 x s
    obtain ⟨-, hwritten⟩ := hwrite (.inl hmax)
    rw [hwritten hwrites htop] at hstep
    cases hstep
    rfl
  obtain ⟨-, -, hread⟩ := readDelayTimerAfterItsDecrement y t
  obtain ⟨u, hu, hfault, -, hv⟩ := hread hreads htop'
  exact ⟨u, hu, hfault, by rw [hv, toNat_countDown, hdt]⟩

/-! ## The idle loop (O55) -/

/-- An idle state at an even address fetches the jump to itself (R247). -/
theorem State.IdleAt.fetches {s : State} {p : Addr} (h : s.IdleAt p) (heven : p.toNat % 2 = 0) : s.Fetches (.jp p) := by
  obtain ⟨hfault, rfl, -, hword⟩ := h
  exact ⟨hfault, heven, hword⟩

/-- Where neither timer runs and there is no sink, nothing happens before the execute phase (R91, R224). -/
theorem State.begun_eq_self {s : State} (hdt : s.dt = 0#8) (hst : s.st = 0#8) (hsink : s.par.traceSink = false) :
    s.begun = s := by
  have timers : timerPhase s = s := by rw [timerPhase, tickDelay, if_pos hdt, tickSound, if_pos hst]
  rw [State.begun, timers, trace, if_neg (by simp [hsink])]

/-- The step of an idle state is a jump that lands where it started (R112, R247). -/
theorem step_of_idleAt {s : State} {p : Addr} (h : s.IdleAt p) (heven : p.toNat % 2 = 0) :
    step s = .next { s.begun with prev := some (0x1#4 ++ p) } := by
  have hfetches := h.fetches heven
  obtain ⟨-, rfl, hlow, -⟩ := h
  have hne : s.pc ≠ 0 := by intro hzero; simp [hzero] at hlow
  obtain ⟨-, hjump, -⟩ := jumpReachesItsTargetOrRaises s.pc s
  obtain ⟨-, hlands⟩ := hjump heven hne
  simp only [hlands hfetches, State.begun_pc]

/-- Settles O55: the jump's step, and what is left of it where nothing happens before the execute phase and PREV is the jump. -/
theorem idleStateOnlyCountsDown : Obligations.IdleStateOnlyCountsDown := by
  intro s p hidle heven
  have hstep := step_of_idleAt hidle heven
  refine ⟨hstep, fun hdt hst hsink hprev => ?_⟩
  rw [hstep, State.begun_eq_self hdt hst hsink, ← hprev]

end Sys2Proof.Machine
